-- ==== Sys2Proof/Word.lean ====
section
/-! DEFINITION. Word.lean: the bit-vector types the spec's words have: a 32-bit register, datum or memory word (R24, R60), a
byte of the little-endian view of one (R67), a 22-bit bus offset (R60) and a 16-bit sample (R10). -/

namespace Sys2Proof

/-- One byte of the block's byte view (R67). -/
abbrev Byte := BitVec 8

/-- A bus datum, a register, a frame word or a coefficient entry word: 32 bits (R24, R60, R64, R65). -/
abbrev Word := BitVec 32

/-- A byte offset of a host transaction relative to the block's base: 22 bits (R60). -/
abbrev Offset := BitVec 22

/-- One 16-bit two's-complement sample, or one 16-bit coefficient (R10, R110). -/
abbrev Sample := BitVec 16

end Sys2Proof
end

