-- ==== Sys2Proof/Config.lean ====
section
/-! DEFINITION. Config.lean: what one implementation fixes (the fixed-point constants of R9, the capacities of R11, the built-in
tables of R12) and the FREE VALUES, which the spec leaves open: opaque constants with no body, so that nothing can evaluate them.
Every operation of Machine/ whose rule names a parameter takes the parameters as an argument; `Config.pfr` is the spec's default
choice. -/

namespace Sys2Proof

/-- The fixed-point constants of R9 and the capacities of R11, "A model takes each as a parameter". `Npc`, `Pmask` and `Amask` are
derived from them below. -/
structure Params where
  /-- `Np`: fractional bits of the time accumulator. -/
  np : Nat
  /-- `Na`: bits of coefficient interpolation between two table entries. -/
  na : Nat
  /-- `Nhc`: log2 of table entries per tap. -/
  nhc : Nat
  /-- `Nh`: bits of a filter coefficient. -/
  nh : Nat
  /-- `Nb`: bits of a sample. -/
  nb : Nat
  /-- `Nhxn`: right shift applied to each coefficient-times-sample product. -/
  nhxn : Nat
  /-- `Nhg`: guard bits. -/
  nhg : Nat
  /-- `NLpScl`: fractional bits of the gain; the quantizer shift of the FIR modes. -/
  nlpscl : Nat
  /-- `XBUF_FRAMES_MAX`: frames the overlap memory holds. -/
  xbufFramesMax : Nat
  /-- `CTAB_DEPTH`: entries of the custom coefficient memory. -/
  ctabDepth : Nat
  /-- `IN_FRAMES_MAX`: frames of the input memory. -/
  inFramesMax : Nat
  /-- `OUT_FRAMES_MAX`: frames of the output memory. -/
  outFramesMax : Nat
  /-- `ACC_W`: width of the signed datapath accumulator. -/
  accW : Nat
  deriving DecidableEq, Repr

/-- `Npc = 2^Nhc`, table entries per input-sample step (R9). -/
def Params.npc (P : Params) : Nat := 2 ^ P.nhc

/-- The greatest sample value, `2^(Nb-1) - 1` (R9, R10: 32767). -/
def Params.sampleMax (P : Params) : Int := 2 ^ (P.nb - 1) - 1

/-- The least sample value, `-2^(Nb-1)` (R9, R10: -32768). -/
def Params.sampleMin (P : Params) : Int := -2 ^ (P.nb - 1)

/-- The header of a filter table (R110): the built-in tables' `Nwing`, `Nmult` and `LpScl`, each 16-bit unsigned (R12). -/
structure TableHeader where
  nwing : BitVec 16
  nmult : BitVec 16
  lpscl : BitVec 16
  deriving DecidableEq, Repr, Inhabited

/-- The legal header `raw` stands for: `Nwing` from 1 to CTAB_DEPTH, and a strictly positive `LpScl` (R110, R117). Every legal
header is the value at some `raw`, so nothing else about it is fixed. -/
def TableHeader.legal (P : Params) (raw : TableHeader) : TableHeader :=
  { nwing := BitVec.ofNat 16 (raw.nwing.toNat % min P.ctabDepth 65535 + 1)
    nmult := raw.nmult
    lpscl := if raw.lpscl = 0 then 1 else raw.lpscl }

/-- The defaults of R9 and R11, "used by every worked number in the spec": the parameters `step` runs with. -/
def Config.pfr : Params where
  np := 15
  na := 7
  nhc := 8
  nh := 16
  nb := 16
  nhxn := 14
  nhg := 2
  nlpscl := 13
  xbufFramesMax := 16384
  ctabDepth := 16384
  inFramesMax := 65536
  outFramesMax := 262144
  accW := 48

/-- What `LOW_TABLE`'s header is made from: an OPEN parameter (R12, D27). Log entry 4. -/
opaque Config.lowRaw : TableHeader

/-- `LOW_TABLE`'s header: any that meets "the table invariants of rule R110" (R12) and the checks of R117 (U16). -/
def Config.lowHeader (P : Params) : TableHeader := TableHeader.legal P Config.lowRaw

/-- `LOW_TABLE`'s entry words `{ImpD[h], Imp[h]}` by index, in the layout of R65: an OPEN parameter (R12, D27). Log entry 4. -/
opaque Config.lowEntry : Nat → Word

/-- What `MED_TABLE`'s header is made from: an OPEN parameter (R12, D27). Log entry 4. -/
opaque Config.medRaw : TableHeader

/-- `MED_TABLE`'s header: any that meets the table invariants of R110 and the checks of R117 (R12, U16). -/
def Config.medHeader (P : Params) : TableHeader := TableHeader.legal P Config.medRaw

/-- `MED_TABLE`'s entry words by index: an OPEN parameter (R12, D27). Log entry 4. -/
opaque Config.medEntry : Nat → Word

/-- Free value: what a byte of CTAB, IN or OUT holds that nothing has written since hardware reset number `epoch` (R280, U8:
"A read returns whatever the memory holds"). Log entry 5. -/
opaque Config.powerOnByte : (epoch : Nat) → (addr : Nat) → Byte

/-- Free value: the frame word of an XBUF frame whose contents are unspecified (R38, R280, U7). Log entry 6. -/
opaque Config.unspecifiedXbuf : (frame : Nat) → Word

/-- Free value: what a window read outside `[0, 2*Xoff + N)` would give; such a read is unreachable (R152, R168, U3).
Log entry 7. -/
opaque Config.outsideWindow : Int → Word

/-- Free value: LPSCL_RAW after CREATE in Fast mode, where no table and so no `LpScl` is bound and R121 states no value (R36).
Log entry 18. -/
opaque Config.unboundLpscl : BitVec 16

/-- Free value: a coefficient entry read while no table is bound, which no kernel does (R36, R190). Log entry 7. -/
opaque Config.unboundEntry : Nat → Word

/-- Free value: the words R290 (b) and U5 leave to "any value", one per draw (OUT words and read data of a host that breaks the
BUSY duty). Log entry 8. -/
opaque Config.freeWord : (draw : Nat) → Word

/-- Free value: how many host transactions pass between the `k`-th acceptance and its completion: "a finite, unspecified number
of host transactions, chosen by the scheduler" (R295, U17). Log entry 3. -/
opaque Config.latency : (acceptance : Nat) → Nat

end Sys2Proof
end

