-- ==== Sys2Proof/Syntax.lean ====
section
/-! DEFINITION. Syntax.lean: the instruction set PFR-CMD v1 (R2, R91): four command words, none with an operand field (R93). -/

namespace Sys2Proof

/-- The four commands of R91. Their operands are registers latched at acceptance (R35, R93), so no constructor has a field. -/
inductive Instr where
  /-- CREATE, the document's `create(ratio, quality, custom, interpolate)` (R230). -/
  | create
  /-- PROCESS, the document's `process(handle, input, frameCount)` (R235). -/
  | process
  /-- FLUSH, the document's `flush(handle)` (R240). -/
  | flush
  /-- DESTROY, the document's `destroy(handle)` (R243). -/
  | destroy
  deriving DecidableEq, Repr

end Sys2Proof
end

