-- ==== Sys2Proof/Decode.lean ====
section
/-! DEFINITION. Decode.lean: the decoder of command words (R90 to R92), total on any bytes and rejecting by name; after it the
encoder, from the same opcode map; and the words the opcode table's rows are asked about. -/

namespace Sys2Proof

/-- Why a word is no command. -/
inductive DecodeError where
  /-- A bit of RSV (bits 31:4) is set (R92). -/
  | reservedBits
  /-- OP is 0x0 or 0x5 to 0xF (R92). -/
  | reservedOp (op : BitVec 4)
  /-- Fewer than the four bytes a command word has (R90: "Every command is exactly one word"). -/
  | truncated
  deriving DecidableEq, Repr

/-- The OP field, bits 3:0 (R90). -/
def opField (d : Word) : BitVec 4 := d.extractLsb' 0 4

/-- The RSV field, bits 31:4 (R90). -/
def rsvField (d : Word) : BitVec 28 := d.extractLsb' 4 28

/-- The opcode map of R91. -/
def instrOfOp (op : BitVec 4) : Option Instr :=
  if op = 0x1#4 then some .create
  else if op = 0x2#4 then some .process
  else if op = 0x3#4 then some .flush
  else if op = 0x4#4 then some .destroy
  else none

/-- R91: "A word selects a command when `d[3:0]` equals its OP and `d[31:4] = 0`"; every other word is illegal (R92). -/
def decode (d : Word) : Except DecodeError Instr :=
  if rsvField d = 0#28 then
    match instrOfOp (opField d) with
    | some i => .ok i
    | none => .error (.reservedOp (opField d))
  else .error .reservedBits

/-- A word from its four bytes, the lowest address first, least significant byte first (R67). -/
def wordOfBytes (b0 b1 b2 b3 : BitVec 8) : Word := b3 ++ b2 ++ b1 ++ b0

/-- The four bytes of a word, the lowest address first (R67: "byte offset `a + j` of the word at `a` holds bits
`8*j+7 : 8*j`"). -/
def bytesOfWord (w : Word) : List (BitVec 8) :=
  [w.extractLsb' 0 8, w.extractLsb' 8 8, w.extractLsb' 16 8, w.extractLsb' 24 8]

/-- The decoder on a byte string: one command word and the rest of the bytes. -/
def decodeBytes : List (BitVec 8) → Except DecodeError (Instr × List (BitVec 8))
  | b0 :: b1 :: b2 :: b3 :: rest =>
    match decode (wordOfBytes b0 b1 b2 b3) with
    | .ok i => .ok (i, rest)
    | .error e => .error e
  | _ => .error .truncated

/-- OP of a command (R91). -/
def opOf : Instr → BitVec 4
  | .create => 0x1#4
  | .process => 0x2#4
  | .flush => 0x3#4
  | .destroy => 0x4#4

/-- The command word: RSV zero above OP (R90, R91). -/
def encode (i : Instr) : Word := 0#28 ++ opOf i

/-- The instruction the decoder reads from the word whose low `nbits` bits are those of `w` and whose other bits are 0, laid out
as the port's bytes (R67). A command is exactly one 32-bit word (R90), so nothing longer is one. -/
def decodeTableWord (nbits w : Nat) : Option Instr :=
  if nbits ≤ 32 then
    match decodeBytes (bytesOfWord (BitVec.ofNat 32 (w % 2 ^ nbits))) with
    | .ok (i, _) => some i
    | .error _ => none
  else none

end Sys2Proof
end

