-- ==== Sys2Proof/Machine/State.lean ====
section
/-! DEFINITION. Machine/State.lean: everything the spec gives one PFR instance to hold (R20), as plain data; the reasons a step
can stop; and the state after hardware reset (R280). STATUS and the other register words are views of these fields
(Machine/Flags.lean, Machine/Operands.lean). -/

namespace Sys2Proof.Machine

/-- Bus-visible memory (CTAB, IN and OUT, R62): listed bytes by their 22-bit bus offset. Its one canonical form is `Memory.wf`;
an unlisted address has no byte of its own and reads as the free value `Config.powerOnByte` (log entry 5). -/
abbrev Memory := List Host.Cell

/-- One stereo frame (R10): channel 0 is `left`, channel 1 is `right`. -/
structure Frame where
  left : Sample
  right : Sample
  deriving DecidableEq, Repr, Inhabited

/-- A channel (lane) of a frame (R16). -/
inductive Channel where
  | left
  | right
  deriving DecidableEq, Repr

/-- The processing mode, STATUS.MODE (R26, R95): 0 = Fast, 1 = UpOnly, 2 = UpDown; "3 is never produced". -/
inductive Mode where
  | fast
  | upOnly
  | upDown
  deriving DecidableEq, Repr

/-- The table CREATE bound (R36). -/
inductive TableSel where
  | none
  | low
  | med
  | custom
  deriving DecidableEq, Repr

/-- The error codes of R251; codes 14 and 15 are reserved and "never written" (U14). -/
inductive ErrCode where
  | none
  | configRatio
  | configQuality
  | configNoTable
  | configTable
  | configRange
  | configReach
  | configCreep
  | alloc
  | precondShort
  | precondRange
  | outOverflow
  | state
  | cmdIllegal
  deriving DecidableEq, Repr

/-- The registers of R24 the host writes. Reserved bits are not stored: they read 0 and ignore writes. -/
structure HostRegs where
  /-- CFG_FACTOR_LO (R28). -/
  factorLo : Word
  /-- CFG_FACTOR_HI (R28). -/
  factorHi : Word
  /-- CFG_MODE.QUALITY (R29). -/
  quality : BitVec 4
  /-- CFG_MODE.INTERP (R29). -/
  interp : Bool
  /-- CFG_MODE.CTAB_VALID (R29). -/
  ctabValid : Bool
  /-- CTAB_NWING (R30). -/
  ctabNwing : BitVec 16
  /-- CTAB_NMULT (R30). -/
  ctabNmult : BitVec 16
  /-- CTAB_LPSCL (R30). -/
  ctabLpscl : BitVec 16
  /-- IN_COUNT (R32). -/
  inCount : BitVec 24
  deriving DecidableEq, Repr

/-- The sticky flags of STATUS (R26, R27). -/
structure Sticky where
  /-- STATUS.ACC_OVF. -/
  accOvf : Bool
  /-- STATUS.OVERRUN. -/
  overrun : Bool
  /-- STATUS.CTAB_WLOCK. -/
  ctabWlock : Bool
  deriving DecidableEq, Repr

/-- The active configuration CREATE records (R121): STATUS.MODE and INTERP_ACT, the readback registers of R33, and the hidden
TSEL and LPSCL_RAW of R36. -/
structure ActiveConfig where
  /-- STATUS.MODE (R26). -/
  mode : Mode
  /-- STATUS.INTERP_ACT (R26). -/
  interpAct : Bool
  /-- TSEL (R36), hidden. -/
  tsel : TableSel
  /-- LPSCL_RAW (R36), hidden. -/
  lpsclRaw : BitVec 16
  /-- XOFF (R33). -/
  xoff : BitVec 16
  /-- DTB (R33). -/
  dtb : BitVec 32
  /-- DHB (R33): the register word, whose field is `Np + 1` bits wide (R9: the field widths "scale with `Np`"; 15:0 by default);
  `dhb <= 2^Np` keeps the bits above it 0. -/
  dhb : Word
  /-- LPSCL_EFF (R33). -/
  lpsclEff : BitVec 16
  /-- NWING_ACT (R33). -/
  nwingAct : BitVec 16
  /-- NMULT_ACT (R33). -/
  nmultAct : BitVec 16
  deriving DecidableEq, Repr

/-- The position registers of R31. -/
structure Position where
  /-- NCREEP. -/
  ncreep : BitVec 16
  /-- TFRAC: the register word, whose field is bits `Np-1:0`; `TFRAC <= Pmask` keeps the bits above it 0 (R40). -/
  tfrac : Word
  deriving DecidableEq, Repr

/-- The latched operands of R35 (hidden), with the memory contents "as they stand at acceptance" that PROCESS reads (R72 b; log
entry 9). -/
structure Latched where
  /-- FACTOR_BITS, latched by CREATE. -/
  factorBits : BitVec 64
  /-- CFG_MODE.QUALITY, latched by CREATE. -/
  quality : BitVec 4
  /-- CFG_MODE.INTERP, latched by CREATE. -/
  interp : Bool
  /-- CFG_MODE.CTAB_VALID, latched by CREATE. -/
  ctabValid : Bool
  /-- CTAB_NWING, latched by CREATE. -/
  nwing : BitVec 16
  /-- CTAB_NMULT, latched by CREATE. -/
  nmult : BitVec 16
  /-- CTAB_LPSCL, latched by CREATE. -/
  lpscl : BitVec 16
  /-- IN_COUNT, latched by PROCESS. -/
  inCount : BitVec 24
  /-- IN and CTAB as they stood when PROCESS was accepted (R72 b). -/
  mem : Memory
  deriving DecidableEq, Repr

/-- What the host or the platform does next at the port: a transaction of R60, a poll (R96), or hardware reset (R280). -/
inductive HostOp where
  /-- `BusWrite(a, d)` (R60). -/
  | write (a : Offset) (d : Word)
  /-- `BusRead(a)` (R60). -/
  | read (a : Offset)
  /-- `POLL` (R96): `RD STATUS`, again and again until the value read has BUSY = 0. -/
  | poll
  /-- The platform asserts the reset input (R280). -/
  | reset
  deriving DecidableEq, Repr

/-- The MODEL's own fields: what stands outside the block (the host's coming transactions), the port's answer, the scheduler's
choice and the counters of the free values. None is architectural state of R20 (log entries 2, 3, 5, 8). -/
structure Env where
  /-- The host's coming operations, the next one first (R8, R60, R72 a). -/
  host : List HostOp
  /-- The datum the last host operation returned; none when it was not a read (R60). -/
  rdata : Option Word
  /-- Host operations that may still pass before the engine step that is owed (R295). -/
  wait : Nat
  /-- Commands accepted so far: which draw of `Config.latency` comes next. -/
  accepts : Nat
  /-- Hardware resets so far: which power-on contents an unwritten byte shows. -/
  epoch : Nat
  /-- Draws of `Config.freeWord` so far. -/
  free : Nat
  /-- The host broke the duty of R290 (b) since the running command was accepted. -/
  hazard : Bool
  deriving DecidableEq, Repr

/-- The complete state of one PFR instance (R20) with the model's own `env`. -/
structure State where
  /-- The host-written registers (R24, R28 to R30, R32). -/
  regs : HostRegs
  /-- STATUS.READY, the command state READY (R23). -/
  ready : Bool
  /-- STATUS.BUSY, the command state BUSY (R23). -/
  busy : Bool
  /-- STATUS.ERR (R26, R251). -/
  err : ErrCode
  /-- STATUS.LAST_OP (R26, R222). -/
  lastOp : BitVec 4
  /-- STATUS.ACC_OVF, OVERRUN and CTAB_WLOCK (R27). -/
  sticky : Sticky
  /-- The active configuration (R33, R36, R121). -/
  act : ActiveConfig
  /-- NCREEP and TFRAC (R31). -/
  pos : Position
  /-- OUT_COUNT (R32). -/
  outCount : BitVec 24
  /-- The pending command's OP (R37), hidden; meaningful while BUSY = 1. -/
  pending : BitVec 4
  /-- The latched operands (R35), hidden. -/
  latched : Latched
  /-- CTAB, IN and OUT (R62). -/
  mem : Memory
  /-- XBUF's frames from frame 0 on (R38): the `2*Xoff` frames in use while READY, none while UNCONFIGURED; a frame past the end
  of the list has unspecified contents and "is never read" (log entry 6). -/
  xbuf : List Frame
  /-- The model's own fields. -/
  env : Env
  deriving DecidableEq, Repr

/-- Why the machine stops. -/
inductive Fault where
  /-- Raised by `step` alone: BUSY = 1 while the pending OP is none of the four commands. No run reaches it: acceptance (R220)
  stores legal OPs only, and the invariant of Safety.lean rules it out. Safe: the machine stops where the spec gives no
  behaviour. -/
  | noPendingCommand
  deriving DecidableEq, Repr

/-- Why an instruction has no meaning. -/
inductive Refusal where
  /-- Raised by an arm of `exec` whose instruction is not modelled yet; no arm of this model does. Safe. -/
  | notModelled (mnemonic : String)
  deriving DecidableEq, Repr

/-- What a step answers. -/
abbrev Result := Host.Outcome State Fault Refusal

/-- The host-written registers after reset: all 0 (R280). -/
def HostRegs.zero : HostRegs :=
  { factorLo := 0, factorHi := 0, quality := 0, interp := false, ctabValid := false, ctabNwing := 0, ctabNmult := 0,
    ctabLpscl := 0, inCount := 0 }

/-- The sticky flags cleared (R27, R280). -/
def Sticky.clear : Sticky := { accOvf := false, overrun := false, ctabWlock := false }

/-- The configuration fields while UNCONFIGURED: MODE 0, TSEL NONE and every readback register 0 (R40, R280). -/
def ActiveConfig.unconfigured : ActiveConfig :=
  { mode := .fast, interpAct := false, tsel := .none, lpsclRaw := 0, xoff := 0, dtb := 0, dhb := 0, lpsclEff := 0,
    nwingAct := 0, nmultAct := 0 }

/-- The fresh position `NCREEP = TFRAC = 0` (R169). -/
def Position.fresh : Position := { ncreep := 0, tfrac := 0 }

/-- The latched copies after reset: "unspecified and are never read before the next acceptance" (R280); the model names zeros
(DESIGN CHOICE, log entry 10). -/
def Latched.none : Latched :=
  { factorBits := 0, quality := 0, interp := false, ctabValid := false, nwing := 0, nmult := 0, lpscl := 0, inCount := 0,
    mem := [] }

/-- The model's own fields at the start: no host operation given, nothing drawn (DESIGN CHOICE, log entry 2). -/
def Env.start : Env := { host := [], rdata := .none, wait := 0, accepts := 0, epoch := 0, free := 0, hazard := false }

/-- Hardware reset (R280): every register 0, UNCONFIGURED and not BUSY, no pending command, TSEL NONE, LPSCL_RAW 0, and the
memories unspecified (nothing listed). -/
def State.reset : State :=
  { regs := HostRegs.zero
    ready := false
    busy := false
    err := .none
    lastOp := 0
    sticky := Sticky.clear
    act := ActiveConfig.unconfigured
    pos := Position.fresh
    outCount := 0
    pending := 0
    latched := Latched.none
    mem := []
    xbuf := []
    env := Env.start }

end Sys2Proof.Machine
end

