-- ==== Sys2Proof/Machine/Ops.lean ====
section
/-! DEFINITION. Machine/Ops.lean: the named operations over memory and the command state. Byte order, the frame and entry
layouts (R64, R65, R67), the integer primitives of R14 and R15, XBUF and the window (R151 to R153), acceptance (R220), raising an
error (R250) and completion (R221) are each decided here, once. -/

namespace Sys2Proof.Machine

/-! ## Integer primitives (R14, R15) -/

/-- `asr(x, k) = floor(x / 2^k)` (R15): arithmetic shift right, rounding toward minus infinity. -/
def asr (x : Int) (k : Nat) : Int := x / 2 ^ k

/-- `v[i]`: bit `i` of the two's-complement representation of `v` (R14). -/
def bitAt (v : Int) (i : Nat) : Bool := decide (v / 2 ^ i % 2 = 1)

/-- `ovf32(x)`: `x` lies outside the 32-bit signed range (R15). -/
def ovf32 (x : Int) : Bool := decide (x < -2 ^ 31) || decide (2 ^ 31 - 1 < x)

/-- `clamp(x, lo, hi) = min(hi, max(lo, x))` (R15). -/
def clamp (x lo hi : Int) : Int := min hi (max lo x)

/-- `rnd(q) = floor(q + 1/2)` on an exact rational (R15). -/
def rnd (q : ℚ) : Int := ⌊q + 1 / 2⌋

/-- `ceil(a / b)` of natural numbers (R15); used with `b >= 1`. -/
def ceilDiv (a b : Nat) : Nat := (a + (b - 1)) / b

/-! ## Memory (R62, R67): bytes by bus offset -/

/-- The canonical form: addresses strictly rising. An unlisted address has no byte, so no entry equals it. -/
abbrev Memory.wf (m : Memory) : Prop := m.Pairwise (fun c d => c.1 < d.1)

/-- The listed byte at an address. -/
def Memory.read : Memory → Nat → Option Byte
  | [], _ => none
  | c :: m, a => if c.1 = a then some c.2 else Memory.read m a

/-- A byte string placed from address `a` on, as cells. -/
def cellsFrom (a : Nat) : List Byte → Memory
  | [] => []
  | b :: bs => (a, b) :: cellsFrom (a + 1) bs

/-- Store a byte string from address `a` on; every other address keeps what it had. -/
def Memory.write (m : Memory) (a : Nat) (bs : List Byte) : Memory :=
  m.filter (fun c => c.1 < a) ++ cellsFrom a bs ++ m.filter (fun c => a + bs.length ≤ c.1)

/-- The byte strings of a list of words, one after the other, each little-endian (R67). -/
def bytesOfWords (ws : List Word) : List Byte := ws.flatMap bytesOfWord

/-- One byte as the machine shows it: the listed byte, or the power-on contents of an address nothing has written (U8). -/
def byteAt (epoch : Nat) (m : Memory) (a : Nat) : Byte := (m.read a).getD (Config.powerOnByte epoch a)

/-- One 32-bit word, single-copy (R71), from its four bytes (R67). -/
def wordAt (epoch : Nat) (m : Memory) (a : Nat) : Word :=
  wordOfBytes (byteAt epoch m a) (byteAt epoch m (a + 1)) (byteAt epoch m (a + 2)) (byteAt epoch m (a + 3))

/-! ## Address spaces (R62) -/

/-- First offset of the CTAB region. -/
def ctabBase : Nat := 0x010000

/-- First offset of the IN region. -/
def inBase : Nat := 0x100000

/-- First offset of the OUT region. -/
def outBase : Nat := 0x200000

/-- Offset of CTAB entry `i`. -/
def ctabAddr (i : Nat) : Nat := ctabBase + 4 * i

/-- Offset of IN frame `f`. -/
def inAddr (f : Nat) : Nat := inBase + 4 * f

/-- Offset of OUT frame `k`. -/
def outAddr (k : Nat) : Nat := outBase + 4 * k

/-! ## Frames and coefficient entries (R64, R65) -/

/-- R64: bits 15:0 are the left sample, bits 31:16 the right sample. -/
def frameOfWord (w : Word) : Frame := { left := w.extractLsb' 0 16, right := w.extractLsb' 16 16 }

/-- R64: an output frame is stored as `{yR[15:0], yL[15:0]}`. -/
def wordOfFrame (f : Frame) : Word := f.right ++ f.left

/-- Channel `c` of a frame, read as two's complement (R16, R64). -/
def Frame.sample (f : Frame) : Channel → Int
  | .left => f.left.toInt
  | .right => f.right.toInt

/-- The zero frame `(0, 0)`. -/
def Frame.zero : Frame := { left := 0, right := 0 }

/-- One coefficient entry `(Imp[h], ImpD[h])` (R65, R110). -/
structure Coefficient where
  imp : Int
  impd : Int
  deriving DecidableEq, Repr

/-- R65: bits 15:0 hold `Imp[i]`, bits 31:16 hold `ImpD[i]`, each two's complement. -/
def coefficientOfWord (w : Word) : Coefficient :=
  { imp := (w.extractLsb' 0 16).toInt, impd := (w.extractLsb' 16 16).toInt }

/-- R65: an entry word from its two coefficients. -/
def wordOfCoefficient (imp impd : Sample) : Word := impd ++ imp

/-- `(Imp[h], ImpD[h])` of the table TSEL names (R36, R190), CTAB as it stood at acceptance (R72 b). -/
def tableEntry (s : State) (h : Nat) : Coefficient :=
  match s.act.tsel with
  | .none => coefficientOfWord (Config.unboundEntry h)
  | .low => coefficientOfWord (Config.lowEntry h)
  | .med => coefficientOfWord (Config.medEntry h)
  | .custom => coefficientOfWord (wordAt s.env.epoch s.latched.mem (ctabAddr h))

/-! ## The window (R151 to R153) -/

/-- `XBUF[w]` (R38). -/
def xbufFrame (s : State) (w : Nat) : Frame := (s.xbuf[w]?).getD (frameOfWord (Config.unspecifiedXbuf w))

/-- `IN[f]` as it stood at acceptance (R64, R72 b). -/
def inFrame (s : State) (f : Nat) : Frame := frameOfWord (wordAt s.env.epoch s.latched.mem (inAddr f))

/-- `W(w)` of R152 for a block of `n` frames. "No other `w` is ever read" (R168); there the model has a free value. -/
def windowFrame (s : State) (n : Nat) (w : Int) : Frame :=
  let span := 2 * s.act.xoff.toNat
  if 0 ≤ w ∧ w < span then xbufFrame s w.toNat
  else if span ≤ w ∧ w < span + n then inFrame s (w - span).toNat
  else frameOfWord (Config.outsideWindow w)

/-- `W(w).c` for one channel (R152, R164). -/
def windowSample (s : State) (n : Nat) (c : Channel) (w : Int) : Int := (windowFrame s n w).sample c

/-- The XBUF update of R153: the last `2*Xoff` frames of the window as it stood before the update. -/
def nextXbuf (s : State) (n : Nat) : List Frame :=
  (List.range (2 * s.act.xoff.toNat)).map (fun j => windowFrame s n ((n + j : Nat) : Int))

/-- XBUF after CREATE success or FLUSH: frames `0 .. 2*Xoff-1` are `(0, 0)` (R169). -/
def zeroXbuf (xoff : Nat) : List Frame := List.replicate (2 * xoff) Frame.zero

/-! ## Command acceptance (R220) -/

/-- FACTOR_BITS `= {CFG_FACTOR_HI, CFG_FACTOR_LO}` (R28). -/
def factorBitsOf (r : HostRegs) : BitVec 64 := r.factorHi ++ r.factorLo

/-- R35: CREATE latches FACTOR_BITS, CFG_MODE and the CTAB descriptor; PROCESS latches IN_COUNT, and reads the IN and CTAB
contents of this moment (R72 b); FLUSH and DESTROY have no operands. -/
def latchOperands (i : Instr) (s : State) : Latched :=
  match i with
  | .create =>
    { s.latched with
      factorBits := factorBitsOf s.regs, quality := s.regs.quality, interp := s.regs.interp, ctabValid := s.regs.ctabValid,
      nwing := s.regs.ctabNwing, nmult := s.regs.ctabNmult, lpscl := s.regs.ctabLpscl }
  | .process => { s.latched with inCount := s.regs.inCount, mem := s.mem }
  | .flush => s.latched
  | .destroy => s.latched

/-- An accepted command word (R220): operands latched, the OP pending, BUSY set, LAST_OP recorded, ERR kept; the scheduler draws
how long the engine step may be put off (R295). -/
def accept (i : Instr) (s : State) : State :=
  { s with
    lastOp := opOf i
    latched := latchOperands i s
    pending := opOf i
    busy := true
    env := { s.env with wait := Config.latency s.env.accepts, accepts := s.env.accepts + 1, hazard := false } }

/-- A write of `d` to CMD (R220): dropped with OVERRUN while BUSY, refused with CMD_ILLEGAL when it is no command, accepted
otherwise. -/
def commandWrite (s : State) (d : Word) : State :=
  if s.busy then { s with sticky := { s.sticky with overrun := true } }
  else
    match decode d with
    | .ok i => accept i s
    | .error _ => { s with lastOp := opField d, err := .cmdIllegal }

/-- The command word the engine runs while BUSY = 1: the pending OP with RSV zero (R37, R90). -/
def pendingWord (s : State) : Word := 0#28 ++ s.pending

/-! ## Raising an error and completing (R221, R250) -/

/-- `raise E` (R250): ERR takes the code, BUSY is cleared, "and changes no other state". There is no return from it (R257). -/
def raise (e : ErrCode) (s : State) : State := { s with err := e, busy := false }

/-- A successful end (R221): ERR becomes NONE and BUSY is cleared, with the rule's writes `t` applied. -/
def finish (t : State) : State := { t with err := .none, busy := false }

/-- Command completion (R221): the rule's verdict on the state `s` it started from, as one atomic update. -/
def complete (s : State) (verdict : Except ErrCode State) : Result :=
  match verdict with
  | .error e => .next (raise e s)
  | .ok t => .next (finish t)

end Sys2Proof.Machine
end

