-- ==== Sys2Proof/Machine/Flags.lean ====
section
/-! DEFINITION. Machine/Flags.lean: the monitored accumulator behind ACC_OVF (R142, R196), the codes of MODE and ERR (R95, R251),
the sticky flags' events (R27) and the STATUS word (R26). -/

namespace Sys2Proof.Machine

/-! ## The monitored accumulator (R196) -/

/-- An exact datapath value with the record whether a monitor point so far left the 32-bit signed range (R196). -/
structure Monitored where
  v : Int
  ovf : Bool
  deriving DecidableEq, Repr

/-- The exact value `v`, itself a monitor point. -/
def monitor (v : Int) : Monitored := { v := v, ovf := ovf32 v }

/-- The empty sum of a wing. -/
def Monitored.zero : Monitored := { v := 0, ovf := false }

/-- One more partial sum of a wing, a monitor point (R196). -/
def Monitored.add (acc : Monitored) (x : Int) : Monitored := { v := acc.v + x, ovf := acc.ovf || ovf32 (acc.v + x) }

/-! ## Codes -/

/-- STATUS.MODE (R95). -/
def modeCode : Mode → BitVec 2
  | .fast => 0#2
  | .upOnly => 1#2
  | .upDown => 2#2

/-- STATUS.ERR (R251). -/
def errCode : ErrCode → BitVec 4
  | .none => 0#4
  | .configRatio => 1#4
  | .configQuality => 2#4
  | .configNoTable => 3#4
  | .configTable => 4#4
  | .configRange => 5#4
  | .configReach => 6#4
  | .configCreep => 7#4
  | .alloc => 8#4
  | .precondShort => 9#4
  | .precondRange => 10#4
  | .outOverflow => 11#4
  | .state => 12#4
  | .cmdIllegal => 13#4

/-! ## Sticky flags -/

/-- PROCESS sets ACC_OVF when a monitor point overflowed, and never clears it (R27, R196). -/
def Sticky.noteOvf (f : Sticky) (ovf : Bool) : Sticky := { f with accOvf := f.accOvf || ovf }

/-- A dropped CTAB write sets CTAB_WLOCK (R66). -/
def Sticky.noteWlock (f : Sticky) : Sticky := { f with ctabWlock := true }

/-! ## STATUS -/

/-- The STATUS word of R26: bit 0 BUSY, 1 READY, 3:2 MODE, 7:4 ERR, 8 ACC_OVF, 9 OVERRUN, 10 CTAB_WLOCK, 11 INTERP_ACT,
15:12 LAST_OP, 31:16 reserved. -/
def statusWord (s : State) : Word :=
  0#16 ++ s.lastOp ++ BitVec.ofBool s.act.interpAct ++ BitVec.ofBool s.sticky.ctabWlock ++ BitVec.ofBool s.sticky.overrun ++
    BitVec.ofBool s.sticky.accOvf ++ errCode s.err ++ modeCode s.act.mode ++ BitVec.ofBool s.ready ++ BitVec.ofBool s.busy

end Sys2Proof.Machine
end

