-- ==== Sys2Proof/Machine/Operands.lean ====
section
/-! DEFINITION. Machine/Operands.lean: the commands' operands (R93), the binary64 reading of FACTOR_BITS (R17, R94), the quality
selector (R95), and the registers of R24 as the port reads and writes them. -/

namespace Sys2Proof.Machine

/-! ## FACTOR_BITS (R17, R94) -/

/-- The value of a binary64 pattern (R17): "a signed zero, a finite non-zero rational, an infinity or NaN". -/
inductive FVal where
  | nan
  | infinity (negative : Bool)
  | zero (negative : Bool)
  | finite (q : ℚ)
  deriving DecidableEq, Repr

/-- The magnitude `m * 2^-1074` or `(2^52 + m) * 2^(e - 1075)` of R94, for `e < 2047`. -/
def binary64Magnitude (e m : Nat) : ℚ :=
  if e = 0 then (m : ℚ) / ((2 ^ 1074 : ℕ) : ℚ)
  else if 1075 ≤ e then (((2 ^ 52 + m) * 2 ^ (e - 1075) : ℕ) : ℚ)
  else ((2 ^ 52 + m : ℕ) : ℚ) / ((2 ^ (1075 - e) : ℕ) : ℚ)

/-- `fval(b)` (R17), with `s = b[63]`, `e = b[62:52]`, `m = b[51:0]` (R94). -/
def fval (b : BitVec 64) : FVal :=
  let negative := b.extractLsb' 63 1 == 1#1
  let e := (b.extractLsb' 52 11).toNat
  let m := (b.extractLsb' 0 52).toNat
  if e = 2047 then
    if m = 0 then .infinity negative else .nan
  else if e = 0 ∧ m = 0 then .zero negative
  else if negative then .finite (-binary64Magnitude e m)
  else .finite (binary64Magnitude e m)

/-- A factor that passed R111: `+infinity`, or an exact positive rational. -/
inductive Factor where
  | infinite
  | finite (q : ℚ)
  deriving DecidableEq, Repr

/-- R111: NaN, zeros, negative values and `-infinity` are refused; `+infinity` and every finite positive value pass. -/
def positiveFactor : FVal → Option Factor
  | .nan => none
  | .infinity negative => if negative then none else some .infinite
  | .zero _ => none
  | .finite q => if 0 < q then some (.finite q) else none

/-! ## QUALITY (R95) -/

/-- The quality selector: 0 = Basic, 1 = Low, 2 = Medium, 3 = Custom; 4 to 15 are unrecognized (R95). -/
inductive Quality where
  | basic
  | low
  | medium
  | custom
  | unrecognized
  deriving DecidableEq, Repr

/-- R95. -/
def qualityOf (q : BitVec 4) : Quality :=
  if q = 0#4 then .basic
  else if q = 1#4 then .low
  else if q = 2#4 then .medium
  else if q = 3#4 then .custom
  else .unrecognized

/-! ## PROCESS's operand (R93) -/

/-- `N = zext_24(IN_COUNT[23:0])`, latched (R35, R93). -/
def blockLength (s : State) : Nat := s.latched.inCount.toNat

/-! ## The registers of R24 -/

/-- The registers of the CSR window. -/
inductive Reg where
  | cmd
  | status
  | cfgFactorLo
  | cfgFactorHi
  | cfgMode
  | ctabNwing
  | ctabNmult
  | ctabLpscl
  | inCount
  | outCount
  | xoff
  | ncreep
  | tfrac
  | dtb
  | dhb
  | lpsclEff
  | nwingAct
  | nmultAct
  deriving DecidableEq, Repr

/-- The offset column of R24. -/
def regOffset : Reg → Nat
  | .cmd => 0x00
  | .status => 0x04
  | .cfgFactorLo => 0x08
  | .cfgFactorHi => 0x0C
  | .cfgMode => 0x10
  | .ctabNwing => 0x14
  | .ctabNmult => 0x18
  | .ctabLpscl => 0x1C
  | .inCount => 0x20
  | .outCount => 0x24
  | .xoff => 0x28
  | .ncreep => 0x2C
  | .tfrac => 0x30
  | .dtb => 0x34
  | .dhb => 0x38
  | .lpsclEff => 0x3C
  | .nwingAct => 0x40
  | .nmultAct => 0x44

/-- The register at an offset of the CSR window; 0x48 to 0xFC are reserved (R24, R34). -/
def regAt (offset : Nat) : Option Reg :=
  if offset = 0x00 then some .cmd
  else if offset = 0x04 then some .status
  else if offset = 0x08 then some .cfgFactorLo
  else if offset = 0x0C then some .cfgFactorHi
  else if offset = 0x10 then some .cfgMode
  else if offset = 0x14 then some .ctabNwing
  else if offset = 0x18 then some .ctabNmult
  else if offset = 0x1C then some .ctabLpscl
  else if offset = 0x20 then some .inCount
  else if offset = 0x24 then some .outCount
  else if offset = 0x28 then some .xoff
  else if offset = 0x2C then some .ncreep
  else if offset = 0x30 then some .tfrac
  else if offset = 0x34 then some .dtb
  else if offset = 0x38 then some .dhb
  else if offset = 0x3C then some .lpsclEff
  else if offset = 0x40 then some .nwingAct
  else if offset = 0x44 then some .nmultAct
  else none

/-- The CFG_MODE word of R29: QUALITY in 3:0, INTERP in 8, CTAB_VALID in 16, the rest reserved. -/
def cfgModeWord (r : HostRegs) : Word :=
  0#15 ++ BitVec.ofBool r.ctabValid ++ 0#7 ++ BitVec.ofBool r.interp ++ 0#4 ++ r.quality

/-- What a bus read of a register returns (R24): its fields, reserved bits 0; CMD reads 0 (R25). -/
def csrRead (s : State) : Reg → Word
  | .cmd => 0#32
  | .status => statusWord s
  | .cfgFactorLo => s.regs.factorLo
  | .cfgFactorHi => s.regs.factorHi
  | .cfgMode => cfgModeWord s.regs
  | .ctabNwing => 0#16 ++ s.regs.ctabNwing
  | .ctabNmult => 0#16 ++ s.regs.ctabNmult
  | .ctabLpscl => 0#16 ++ s.regs.ctabLpscl
  | .inCount => 0#8 ++ s.regs.inCount
  | .outCount => 0#8 ++ s.outCount
  | .xoff => 0#16 ++ s.act.xoff
  | .ncreep => 0#16 ++ s.pos.ncreep
  | .tfrac => s.pos.tfrac
  | .dtb => s.act.dtb
  | .dhb => s.act.dhb
  | .lpsclEff => 0#16 ++ s.act.lpsclEff
  | .nwingAct => 0#16 ++ s.act.nwingAct
  | .nmultAct => 0#16 ++ s.act.nmultAct

/-- What a bus write of `d` to a register does (R24, R63): an RW register takes its fields, reserved bits are dropped; RO
registers ignore it; CMD takes a command request (R220). -/
def csrWrite (s : State) (r : Reg) (d : Word) : State :=
  match r with
  | .cmd => commandWrite s d
  | .cfgFactorLo => { s with regs := { s.regs with factorLo := d } }
  | .cfgFactorHi => { s with regs := { s.regs with factorHi := d } }
  | .cfgMode =>
    { s with
      regs :=
        { s.regs with
          quality := d.extractLsb' 0 4, interp := d.extractLsb' 8 1 == 1#1, ctabValid := d.extractLsb' 16 1 == 1#1 } }
  | .ctabNwing => { s with regs := { s.regs with ctabNwing := d.extractLsb' 0 16 } }
  | .ctabNmult => { s with regs := { s.regs with ctabNmult := d.extractLsb' 0 16 } }
  | .ctabLpscl => { s with regs := { s.regs with ctabLpscl := d.extractLsb' 0 16 } }
  | .inCount => { s with regs := { s.regs with inCount := d.extractLsb' 0 24 } }
  | .status => s
  | .outCount => s
  | .xoff => s
  | .ncreep => s
  | .tfrac => s
  | .dtb => s
  | .dhb => s
  | .lpsclEff => s
  | .nwingAct => s
  | .nmultAct => s

end Sys2Proof.Machine
end

