-- ==== Sys2Proof/Machine/Derivation.lean ====
section
/-! DEFINITION. Machine/Derivation.lean: the arithmetic of CREATE on exact rationals: table selection (R117), mode (R114), `dtb`
(R112), `dhb` (R113), gain (R115), reach (R116), and the checks of R118 to R120 in the order of R231. -/

namespace Sys2Proof.Machine

/-- What table selection answers (R117): TSEL and the bound table's header. For Basic, `Nwing` and `Nmult` are 0 (R121), and
`LpScl` is a free value (DESIGN CHOICE, log entry 18). -/
structure Selection where
  tsel : TableSel
  header : TableHeader
  deriving DecidableEq, Repr

/-- The custom table's descriptor, latched (R93). -/
def customHeader (l : Latched) : TableHeader := { nwing := l.nwing, nmult := l.nmult, lpscl := l.lpscl }

/-- R117's legality check of a custom descriptor: `Nwing < 1 or Nwing > CTAB_DEPTH or LpScl = 0`. -/
def customIllegal (P : Params) (t : TableHeader) : Bool :=
  decide (t.nwing.toNat < 1) || decide (P.ctabDepth < t.nwing.toNat) || t.lpscl == 0#16

/-- Table selection (R117). CTAB_VALID is read for Custom alone. Basic binds no `LpScl`, and R121 records LPSCL_RAW without saying
what it then is: the free value `Config.unboundLpscl` (DESIGN CHOICE, log entry 18). -/
def selectTable (P : Params) (l : Latched) : Except ErrCode Selection :=
  match qualityOf l.quality with
  | .basic => .ok { tsel := .none, header := { nwing := 0, nmult := 0, lpscl := Config.unboundLpscl } }
  | .low => .ok { tsel := .low, header := Config.lowHeader P }
  | .medium => .ok { tsel := .med, header := Config.medHeader P }
  | .custom =>
    if l.ctabValid = false then .error .configNoTable
    else if customIllegal P (customHeader l) then .error .configTable
    else .ok { tsel := .custom, header := customHeader l }
  | .unrecognized => .error .configQuality

/-- `f >= 1`, `+infinity` included (R114). -/
def Factor.atLeastOne : Factor → Bool
  | .infinite => true
  | .finite q => decide (1 ≤ q)

/-- Mode selection (R114): Basic is Fast for every factor. -/
def selectMode (sel : Selection) (f : Factor) : Mode :=
  if sel.tsel = .none then .fast else if f.atLeastOne then .upOnly else .upDown

/-- `dtb = rnd(2^Np / f)`, and 0 for `+infinity` (R112). -/
def dtbOf (P : Params) : Factor → Nat
  | .infinite => 0
  | .finite q => (rnd (2 ^ P.np / q)).toNat

/-- `rnd(min(Npc, f * Npc) * 2^Na)` (R113). -/
def dhbUpDown (P : Params) : Factor → Nat
  | .infinite => P.npc * 2 ^ P.na
  | .finite q => (rnd (min (P.npc : ℚ) (q * P.npc) * 2 ^ P.na)).toNat

/-- `dhb` by mode (R113): 0 in Fast, `2^Np` in UpOnly. -/
def dhbOf (P : Params) (mode : Mode) (f : Factor) : Nat :=
  match mode with
  | .fast => 0
  | .upOnly => 2 ^ P.np
  | .upDown => dhbUpDown P f

/-- `f` where R115 and R116 use it in UpDown, whose factor is finite (R114). -/
def Factor.value : Factor → ℚ
  | .infinite => 1
  | .finite q => q

/-- `LpScl_eff` (R115), one rounding on the exact product; 0 in Fast. -/
def lpsclEffOf (mode : Mode) (f : Factor) (lpscl : Nat) : Nat :=
  match mode with
  | .fast => 0
  | .upOnly => (rnd ((lpscl : ℚ) * (19 / 20))).toNat
  | .upDown => (rnd ((lpscl : ℚ) * (19 / 20) * f.value)).toNat

/-- `Xoff` (R116), `ceil` applied once to the exact product; 10 in Fast. -/
def xoffOf (mode : Mode) (f : Factor) (nmult : Nat) : Nat :=
  match mode with
  | .fast => 10
  | .upOnly => ⌈((nmult : ℚ) + 1) / 2⌉.toNat + 10
  | .upDown => ⌈((nmult : ℚ) + 1) / (2 * f.value)⌉.toNat + 10

/-- The derived configuration before it is checked and stored: unbounded integers (R13). -/
structure Derived where
  mode : Mode
  dtb : Nat
  dhb : Nat
  lpsclEff : Nat
  xoff : Nat
  deriving DecidableEq, Repr

/-- R112 to R116 together. -/
def derive (P : Params) (sel : Selection) (f : Factor) : Derived :=
  let mode := selectMode sel f
  { mode := mode
    dtb := dtbOf P f
    dhb := dhbOf P mode f
    lpsclEff := lpsclEffOf mode f sel.header.lpscl.toNat
    xoff := xoffOf mode f sel.header.nmult.toNat }

/-- `Lmax` of R118: the most taps the left wing can read. -/
def lmaxOf (P : Params) (mode : Mode) (nwing dhb : Nat) : Nat :=
  match mode with
  | .fast => 1
  | .upOnly => ceilDiv nwing P.npc
  | .upDown => ceilDiv (nwing * 2 ^ P.na) dhb

/-- `Rmax` of R118: the most taps the right wing can read. -/
def rmaxOf (P : Params) (mode : Mode) (nwing dhb : Nat) : Nat :=
  match mode with
  | .fast => 1
  | .upOnly => ceilDiv (nwing - 1) P.npc
  | .upDown => ceilDiv ((nwing - 1) * 2 ^ P.na) dhb

/-- R120: CONFIG_RANGE. -/
def rangeFails (d : Derived) : Bool :=
  decide (d.dtb < 1) || decide (2 ^ 32 - 1 < d.dtb) || (d.mode == .upDown && decide (d.dhb < 1)) || decide (65535 < d.xoff)

/-- R120: ALLOC. -/
def allocFails (P : Params) (d : Derived) : Bool := decide (P.xbufFramesMax < 2 * d.xoff)

/-- R118: CONFIG_REACH. -/
def reachFails (P : Params) (d : Derived) (nwing : Nat) : Bool :=
  decide (d.xoff + 1 < lmaxOf P d.mode nwing d.dhb) || decide (d.xoff < rmaxOf P d.mode nwing d.dhb)

/-- R119: CONFIG_CREEP. -/
def creepFails (P : Params) (d : Derived) : Bool := decide (2 * d.xoff < (d.dtb - 1) / 2 ^ P.np)

/-- The first failing check on the derived configuration, in the order of R231. -/
def failingCheck (P : Params) (d : Derived) (nwing : Nat) : Option ErrCode :=
  if rangeFails d then some .configRange
  else if allocFails P d then some .alloc
  else if reachFails P d nwing then some .configReach
  else if creepFails P d then some .configCreep
  else none

/-- What CREATE records of the derived configuration (R121); INTERP_ACT is 0 in Fast. -/
def activeConfigOf (d : Derived) (sel : Selection) (interp : Bool) : ActiveConfig :=
  { mode := d.mode
    interpAct := d.mode != .fast && interp
    tsel := sel.tsel
    lpsclRaw := sel.header.lpscl
    xoff := BitVec.ofNat 16 d.xoff
    dtb := BitVec.ofNat 32 d.dtb
    dhb := BitVec.ofNat 32 d.dhb
    lpsclEff := BitVec.ofNat 16 d.lpsclEff
    nwingAct := sel.header.nwing
    nmultAct := sel.header.nmult }

end Sys2Proof.Machine
end

