-- ==== Sys2Proof/Machine/Lifecycle.lean ====
section
/-! DEFINITION. Machine/Lifecycle.lean: CREATE (R230, R231), FLUSH (R240) and DESTROY (R243), each a rule on the latched operands
that either raises an error or gives every write of the command, and its meaning through `complete` (R221). -/

namespace Sys2Proof.Machine

/-! ## CREATE -/

/-- What CREATE writes on success (R121, R230): the configuration, the fresh stream of R169, READY, and the sticky flags
cleared. -/
def recordCreate (s : State) (d : Derived) (sel : Selection) : State :=
  { s with
    ready := true
    act := activeConfigOf d sel s.latched.interp
    xbuf := zeroXbuf d.xoff
    pos := Position.fresh
    outCount := 0
    sticky := Sticky.clear }

/-- CREATE's rule for any parameters (R230): "the first step that raises ends the command". -/
def createRule (P : Params) (s : State) : Except ErrCode State :=
  if s.ready then .error .state
  else
    match positiveFactor (fval s.latched.factorBits) with
    | none => .error .configRatio
    | some f =>
      match selectTable P s.latched with
      | .error e => .error e
      | .ok sel =>
        let d := derive P sel f
        match failingCheck P d sel.header.nwing.toNat with
        | some e => .error e
        | none => .ok (recordCreate s d sel)

/-- The meaning of CREATE (R230). -/
def execCreate (s : State) : Result := complete s (createRule Config.pfr s)

/-! ## FLUSH -/

/-- What FLUSH writes (R240): XBUF zeroed, NCREEP, TFRAC and OUT_COUNT 0. -/
def recordFlush (s : State) : State :=
  { s with xbuf := zeroXbuf s.act.xoff.toNat, pos := Position.fresh, outCount := 0 }

/-- FLUSH's rule (R240). -/
def flushRule (s : State) : Except ErrCode State := if s.ready then .ok (recordFlush s) else .error .state

/-- The meaning of FLUSH (R240). -/
def execFlush (s : State) : Result := complete s (flushRule s)

/-! ## DESTROY -/

/-- What DESTROY writes (R243): UNCONFIGURED, every derived register 0, "XBUF contents become unspecified". -/
def recordDestroy (s : State) : State :=
  { s with ready := false, act := ActiveConfig.unconfigured, pos := Position.fresh, outCount := 0, xbuf := [] }

/-- DESTROY's rule (R243). -/
def destroyRule (s : State) : Except ErrCode State := if s.ready then .ok (recordDestroy s) else .error .state

/-- The meaning of DESTROY (R243). -/
def execDestroy (s : State) : Result := complete s (destroyRule s)

end Sys2Proof.Machine
end

