-- ==== Sys2Proof/Machine/Quantizer.lean ====
section
/-! DEFINITION. Machine/Quantizer.lean: the sub-block fixed_point_quantizer_with_saturation (R140 to R142). -/

namespace Sys2Proof.Machine

/-- The exact bias sum `s = v + 2^(scl-1)` of R140. -/
def biasSum (v : Int) (scl : Nat) : Int := v + 2 ^ (scl - 1)

/-- `Q(v, scl)` (R140): bias, arithmetic shift right, clamp to the signed range of a sample (`Nb` bits, R9; R10: 16). -/
def quantize (P : Params) (v : Int) (scl : Nat) : Int := clamp (asr (biasSum v scl) scl) P.sampleMin P.sampleMax

/-- The compatibility flag of one application of `Q` (R142): the exact bias sum leaves the 32-bit signed range. -/
def quantizeOvf (v : Int) (scl : Nat) : Bool := ovf32 (biasSum v scl)

/-- One application of `Q` with its monitor point (R140, R196). -/
def quantizeMonitored (P : Params) (v : Int) (scl : Nat) : Monitored := { v := quantize P v scl, ovf := quantizeOvf v scl }

end Sys2Proof.Machine
end

