-- ==== Sys2Proof/Machine/Kernels.lean ====
section
/-! DEFINITION. Machine/Kernels.lean: the Fast kernel (R180), the sub-block filter_coefficient_interpolator (R191, R192), the
wings (R200 to R202) and the FIR kernels (R203). Each is a function of the parameters `P`, the bound table `tab`, the active
configuration and ONE channel of the window, `W : Int → Int` (R164). -/

namespace Sys2Proof.Machine

/-! ## Fast kernel -/

/-- The linear blend of R180: `x1 * (2^Np - frac) + x2 * frac`. -/
def fastBlend (P : Params) (x1 x2 : Int) (frac : Nat) : Int := x1 * (2 ^ P.np - frac) + x2 * frac

/-- `KernelOut(T, c)` in Fast mode (R180). "Flags: none": the quantizer's monitor is carried all the same (R145). -/
def fastKernel (P : Params) (W : Int → Int) (T : Nat) : Monitored :=
  let n := T / 2 ^ P.np
  let frac := T % 2 ^ P.np
  quantizeMonitored P (fastBlend P (W n) (W (n + 1)) frac) P.np

/-! ## Coefficient interpolator -/

/-- `Coef(h, a)` of R191 on entry `e = (Imp[h], ImpD[h])`; without interpolation `ImpD` is not read. -/
def coef (P : Params) (interp : Bool) (e : Coefficient) (a : Nat) : Int :=
  if interp then e.imp + asr (e.impd * a) P.na else e.imp

/-- `RoundProd(cf, x)` of R192: the product, its rounding bit added when set, shifted right by `Nhxn`. -/
def roundProd (P : Params) (cf x : Int) : Int :=
  let t := cf * x
  asr (if bitAt t (P.nhxn - 1) then t + 2 ^ (P.nhxn - 1) else t) P.nhxn

/-- The interpolation fraction of a tap (R201, R202): the low `Na` bits, or 0 when INTERP_ACT = 0. -/
def tapFraction (P : Params) (interp : Bool) (position : Nat) : Nat := if interp then position % 2 ^ P.na else 0

/-! ## Wings -/

/-- Which wing (R201): the left steps backward through the window (`inc = -1`), the right forward (`inc = +1`). -/
inductive Wing where
  | left
  | right
  deriving DecidableEq, Repr

/-- `inc` of a wing (R201). -/
def Wing.inc : Wing → Int
  | .left => -1
  | .right => 1

/-- `End` of a wing (R201): the right wing drops the last entry. -/
def Wing.endOf (nwing : Nat) : Wing → Nat
  | .left => nwing
  | .right => nwing - 1

/-- `PhL` and `PhR` of R200. -/
def phaseOf (P : Params) (T : Nat) : Wing → Nat
  | .left => T % 2 ^ P.np
  | .right => (2 ^ P.np - T % 2 ^ P.np) % 2 ^ P.np

/-- The loop of R201: tap after tap while `h < End`; `fuel` bounds the taps (`h` grows by `Npc >= 1`, R296). -/
def wingUpLoop (P : Params) (tab : Nat → Coefficient) (interp : Bool) (W : Int → Int) (inc : Int) (last a : Nat) :
    (fuel : Nat) → (h : Nat) → (w : Int) → Monitored → Monitored
  | 0, _, _, acc => acc
  | fuel + 1, h, w, acc =>
    if h < last then
      wingUpLoop P tab interp W inc last a fuel (h + P.npc) (w + inc) (acc.add (roundProd P (coef P interp (tab h) a) (W w)))
    else acc

/-- The first table entry of an UpOnly wing (R201): `Ph >> Na`, and the right wing skips the centre tap at `Ph = 0`. -/
def firstEntryUp (P : Params) (side : Wing) (ph : Nat) : Nat :=
  ph / 2 ^ P.na + (if side = .right ∧ ph = 0 then P.npc else 0)

/-- `WingUp(n0, inc, Ph, c)` of R201. -/
def wingUp (P : Params) (tab : Nat → Coefficient) (act : ActiveConfig) (W : Int → Int) (side : Wing) (n0 : Int) (ph : Nat) :
    Monitored :=
  let last := side.endOf act.nwingAct.toNat
  wingUpLoop P tab act.interpAct W side.inc last (tapFraction P act.interpAct ph) last (firstEntryUp P side ph) n0 Monitored.zero

/-- The loop of R202: tap after tap while `(Ho >> Na) < End`; `fuel` bounds the taps (`Ho` grows by `dhb >= 1`, R296). -/
def wingUDLoop (P : Params) (tab : Nat → Coefficient) (interp : Bool) (W : Int → Int) (inc : Int) (last dhb : Nat) :
    (fuel : Nat) → (ho : Nat) → (w : Int) → Monitored → Monitored
  | 0, _, _, acc => acc
  | fuel + 1, ho, w, acc =>
    if ho / 2 ^ P.na < last then
      wingUDLoop P tab interp W inc last dhb fuel (ho + dhb) (w + inc)
        (acc.add (roundProd P (coef P interp (tab (ho / 2 ^ P.na)) (tapFraction P interp ho)) (W w)))
    else acc

/-- The first table position of an UpDown wing (R202): `(Ph * dhb) >> Np`, and the right wing skips the centre tap at `Ph = 0`. -/
def firstPositionUD (P : Params) (dhb : Nat) (side : Wing) (ph : Nat) : Nat :=
  ph * dhb / 2 ^ P.np + (if side = .right ∧ ph = 0 then dhb else 0)

/-- `WingUD(n0, inc, Ph, c)` of R202, with `dhb = DHB`. -/
def wingUD (P : Params) (tab : Nat → Coefficient) (act : ActiveConfig) (W : Int → Int) (side : Wing) (n0 : Int) (ph : Nat) :
    Monitored :=
  let last := side.endOf act.nwingAct.toNat
  let dhb := act.dhb.toNat
  wingUDLoop P tab act.interpAct W side.inc last dhb (last * 2 ^ P.na) (firstPositionUD P dhb side ph) n0 Monitored.zero

/-- The wing of the active FIR mode (R203): WingUp in UpOnly, WingUD in UpDown. Fast mode has no wing (R180). -/
def wing (P : Params) (tab : Nat → Coefficient) (act : ActiveConfig) (W : Int → Int) (side : Wing) (n0 : Int) (ph : Nat) :
    Monitored :=
  match act.mode with
  | .fast => Monitored.zero
  | .upOnly => wingUp P tab act W side n0 ph
  | .upDown => wingUD P tab act W side n0 ph

/-! ## FIR output -/

/-- The two wing sums added (R203), a monitor point (R196). -/
def wingSum (P : Params) (tab : Nat → Coefficient) (act : ActiveConfig) (W : Int → Int) (T : Nat) : Monitored :=
  let n : Int := (T / 2 ^ P.np : Nat)
  let vL := wing P tab act W .left n (phaseOf P T .left)
  let vR := wing P tab act W .right (n + 1) (phaseOf P T .right)
  { v := vL.v + vR.v, ovf := vL.ovf || vR.ovf || ovf32 (vL.v + vR.v) }

/-- `KernelOut(T, c)` in UpOnly and UpDown (R203): guard bits dropped, times LPSCL_EFF, quantized by `NLpScl`. -/
def firKernel (P : Params) (tab : Nat → Coefficient) (act : ActiveConfig) (W : Int → Int) (T : Nat) : Monitored :=
  let sum := wingSum P tab act W T
  let scaled := monitor (asr sum.v P.nhg * act.lpsclEff.toNat)
  let y := quantizeMonitored P scaled.v P.nlpscl
  { v := y.v, ovf := sum.ovf || scaled.ovf || y.ovf }

/-- `KernelOut(T, c)` (R164), "selected once at creation, not branched per sample". -/
def kernelOut (P : Params) (tab : Nat → Coefficient) (act : ActiveConfig) (W : Int → Int) (T : Nat) : Monitored :=
  match act.mode with
  | .fast => fastKernel P W T
  | .upOnly => firKernel P tab act W T
  | .upDown => firKernel P tab act W T

end Sys2Proof.Machine
end

