-- ==== Sys2Proof/Machine/Process.lean ====
section
/-! DEFINITION. Machine/Process.lean: PROCESS (R235): its checks, the output times (R161 to R163), the output frames, and the
position, XBUF and OUT updates (R153, R166), applied as one atomic update through `complete` (R221). -/

namespace Sys2Proof.Machine

/-! ## Times -/

/-- `T0` of R161. -/
def startTime (P : Params) (s : State) : Nat :=
  (s.pos.ncreep.toNat + s.act.xoff.toNat) * 2 ^ P.np + s.pos.tfrac.toNat

/-- `E` of R162 for a block of `n` frames. -/
def endTime (P : Params) (s : State) (n : Nat) : Nat := (s.act.xoff.toNat + n) * 2 ^ P.np

/-- `K = ceil((E - T0) / dtb)` of R163. -/
def outputCount (P : Params) (s : State) (n : Nat) : Nat :=
  ceilDiv (endTime P s n - startTime P s) s.act.dtb.toNat

/-- The time of output `k`, `T0 + k * dtb` (R163). -/
def outputTime (P : Params) (s : State) (k : Nat) : Nat := startTime P s + k * s.act.dtb.toNat

/-- `Tend`, the time of the first output not produced (R166). -/
def finalTime (P : Params) (s : State) (n : Nat) : Nat := outputTime P s (outputCount P s n)

/-! ## Outputs -/

/-- `KernelOut(T, c)` over the window of this PROCESS (R163, R164). -/
def kernelAt (P : Params) (s : State) (n : Nat) (c : Channel) (T : Nat) : Monitored :=
  kernelOut P (tableEntry s) s.act (windowSample s n c) T

/-- Output frame `k` (R163). -/
def outputFrame (P : Params) (s : State) (n k : Nat) : Frame :=
  { left := BitVec.ofInt 16 (kernelAt P s n .left (outputTime P s k)).v
    right := BitVec.ofInt 16 (kernelAt P s n .right (outputTime P s k)).v }

/-- Whether a monitor point of output `k` overflowed, in either channel (R196). -/
def outputOvf (P : Params) (s : State) (n k : Nat) : Bool :=
  (kernelAt P s n .left (outputTime P s k)).ovf || (kernelAt P s n .right (outputTime P s k)).ovf

/-- Whether "any monitor point overflowed" in this PROCESS (R235). -/
def processOvf (P : Params) (s : State) (n : Nat) : Bool :=
  (List.range (outputCount P s n)).any (outputOvf P s n)

/-- The OUT words of this PROCESS (R69); any values when the host broke the duty of R290 (b) while it ran (U5). -/
def outputWords (P : Params) (s : State) (n : Nat) : List Word :=
  (List.range (outputCount P s n)).map fun k =>
    if s.env.hazard then Config.freeWord (s.env.free + k) else wordOfFrame (outputFrame P s n k)

/-! ## Position (R166) -/

/-- NCREEP and TFRAC after a successful PROCESS (R166). -/
def nextPosition (P : Params) (s : State) (n : Nat) : Position :=
  { ncreep := BitVec.ofNat 16 (finalTime P s n / 2 ^ P.np - (s.act.xoff.toNat + n))
    tfrac := BitVec.ofNat 32 (finalTime P s n % 2 ^ P.np) }

/-! ## The command -/

/-- R235's checks, in order: STATE, PRECOND_RANGE, PRECOND_SHORT, OUT_OVERFLOW (R252). -/
def processCheck (P : Params) (s : State) (n : Nat) : Option ErrCode :=
  if s.ready = false then some .state
  else if P.inFramesMax < n then some .precondRange
  else if n < 2 * s.act.xoff.toNat + s.pos.ncreep.toNat then some .precondShort
  else if P.outFramesMax < outputCount P s n then some .outOverflow
  else none

/-- The free draws PROCESS consumes: one per OUT word after a broken duty, none otherwise. -/
def drawOutputs (P : Params) (s : State) (n : Nat) : Env :=
  if s.env.hazard then { s.env with free := s.env.free + outputCount P s n } else s.env

/-- What PROCESS writes on success (R235): OUT, NCREEP, TFRAC, XBUF, OUT_COUNT and ACC_OVF. -/
def recordProcess (P : Params) (s : State) (n : Nat) : State :=
  { s with
    mem := s.mem.write outBase (bytesOfWords (outputWords P s n))
    pos := nextPosition P s n
    xbuf := nextXbuf s n
    outCount := BitVec.ofNat 24 (outputCount P s n)
    sticky := s.sticky.noteOvf (processOvf P s n)
    env := drawOutputs P s n }

/-- PROCESS's rule for any parameters (R235): "All checks come before any write". -/
def processRule (P : Params) (s : State) : Except ErrCode State :=
  match processCheck P s (blockLength s) with
  | some e => .error e
  | none => .ok (recordProcess P s (blockLength s))

/-- The meaning of PROCESS (R235). -/
def execProcess (s : State) : Result := complete s (processRule Config.pfr s)

end Sys2Proof.Machine
end

