-- ==== Sys2Proof/Machine/Dispatch.lean ====
section
/-! DEFINITION. Machine/Dispatch.lean: one arm per command (R91), each one direct call of its meaning. -/

namespace Sys2Proof.Machine

def exec (i : Instr) (s : State) : Host.Outcome State Fault Refusal :=
  match i with
  | .create => Sys2Proof.Machine.execCreate s
  | .process => Sys2Proof.Machine.execProcess s
  | .flush => Sys2Proof.Machine.execFlush s
  | .destroy => Sys2Proof.Machine.execDestroy s

end Sys2Proof.Machine
end

