-- ==== Sys2Proof/Machine/HostPort.lean ====
section
/-! DEFINITION. Machine/HostPort.lean: the host port (R60 to R63), the CTAB write lock (R66), host accesses while BUSY (R73, R290),
hardware reset (R280, R281), the order of host and engine (R72, R295), and the host program notation of R96. -/

namespace Sys2Proof.Machine

/-! ## Address decoding (R61, R62) -/

/-- What an offset reaches. -/
inductive Target where
  /-- A register of R24. -/
  | csr (r : Reg)
  /-- A reserved offset of the CSR window (R34). -/
  | reserved
  /-- CTAB entry `i`. -/
  | ctab (i : Nat)
  /-- IN frame `f`. -/
  | input (f : Nat)
  /-- OUT frame `k`. -/
  | output (k : Nat)
  /-- A misaligned offset, or one in no region (R61). -/
  | unmapped
  deriving DecidableEq, Repr

/-- R61 to R63: the target of an offset. An offset inside a region but at or beyond the space's size is unmapped (R62). -/
def targetOf (P : Params) (a : Nat) : Target :=
  if a % 4 ≠ 0 then .unmapped
  else if a < 0x100 then
    match regAt a with
    | some r => .csr r
    | none => .reserved
  else if ctabBase ≤ a ∧ a < ctabBase + 4 * P.ctabDepth then .ctab ((a - ctabBase) / 4)
  else if inBase ≤ a ∧ a < inBase + 4 * P.inFramesMax then .input ((a - inBase) / 4)
  else if outBase ≤ a ∧ a < outBase + 4 * P.outFramesMax then .output ((a - outBase) / 4)
  else .unmapped

/-! ## Bus transactions -/

/-- The datum `BusRead(a)` returns. Reads have no side effect in the block (R71). An OUT read while BUSY may return any value
(R73, R290 b, U5). -/
def busRead (P : Params) (s : State) (a : Offset) : Word :=
  match targetOf P a.toNat with
  | .csr r => csrRead s r
  | .reserved => 0#32
  | .ctab i => wordAt s.env.epoch s.mem (ctabAddr i)
  | .input f => wordAt s.env.epoch s.mem (inAddr f)
  | .output k => if s.busy then Config.freeWord s.env.free else wordAt s.env.epoch s.mem (outAddr k)
  | .unmapped => 0#32

/-- The host breaks the duty of R290 (b): the running command's outputs are unspecified from here on. -/
def breakDuty (s : State) : State := { s with env := { s.env with hazard := true, free := s.env.free + 1 } }

/-- The state after `BusRead(a)`: the same but for the duty R290 (b) an OUT read while BUSY breaks. -/
def afterBusRead (P : Params) (s : State) (a : Offset) : State :=
  match targetOf P a.toNat with
  | .output _ => if s.busy then breakDuty s else s
  | .csr _ => s
  | .reserved => s
  | .ctab _ => s
  | .input _ => s
  | .unmapped => s

/-- Store one word (R71). -/
def storeWord (s : State) (a : Nat) (d : Word) : State := { s with mem := s.mem.write a (bytesOfWord d) }

/-- A host write to CTAB (R66): dropped with CTAB_WLOCK while READY or BUSY, stored otherwise. -/
def ctabWrite (s : State) (i : Nat) (d : Word) : State :=
  if s.ready || s.busy then { s with sticky := s.sticky.noteWlock } else storeWord s (ctabAddr i) d

/-- A host write to IN: stored; while BUSY it breaks the duty of R290 (b), and the running PROCESS "may read either the old or the
new IN word" (log entry 9). -/
def inWrite (s : State) (f : Nat) (d : Word) : State :=
  if s.busy then breakDuty (storeWord s (inAddr f) d) else storeWord s (inAddr f) d

/-- A host write to OUT: stored; while BUSY it breaks the duty of R290 (b) and what the word then holds is unspecified. -/
def outWrite (s : State) (k : Nat) (d : Word) : State :=
  if s.busy then breakDuty (storeWord s (outAddr k) (Config.freeWord s.env.free)) else storeWord s (outAddr k) d

/-- The state after `BusWrite(a, d)` (R61, R63): a write that reaches nothing is ignored. -/
def busWrite (P : Params) (s : State) (a : Offset) (d : Word) : State :=
  match targetOf P a.toNat with
  | .csr r => csrWrite s r d
  | .reserved => s
  | .ctab i => ctabWrite s i d
  | .input f => inWrite s f d
  | .output k => outWrite s k d
  | .unmapped => s

/-! ## Hardware reset -/

/-- The reset input is asserted (R280, R281): every piece of the block's state takes its reset value, a pending command is
abandoned, and the memories show power-on contents anew. The host's coming operations and the draws made stay. -/
def hardReset (s : State) : State :=
  { State.reset with env := { s.env with rdata := none, wait := 0, epoch := s.env.epoch + 1, hazard := false } }

/-! ## One host operation -/

/-- The next host operation leaves the queue; while BUSY it is one of those the engine step may still be put off by (R295). -/
def popHost (s : State) (rest : List HostOp) : State :=
  { s with env := { s.env with host := rest, wait := if s.busy then s.env.wait - 1 else s.env.wait } }

/-- What the port returns to the host: the datum of a read, nothing otherwise. -/
def answer (s : State) (d : Option Word) : State := { s with env := { s.env with rdata := d } }

/-- One host operation, `rest` the ones after it. A poll that reads BUSY = 1 stays in front (R96). -/
def hostOperation (P : Params) (s : State) (op : HostOp) (rest : List HostOp) : State :=
  match op with
  | .write a d => answer (busWrite P (popHost s rest) a d) none
  | .read a => answer (afterBusRead P (popHost s rest) a) (some (busRead P s a))
  | .poll => answer (popHost s (if s.busy then .poll :: rest else rest)) (some (statusWord s))
  | .reset => hardReset (popHost s rest)

/-! ## Who moves next (R8, R72, R295) -/

/-- The next mover. -/
inductive Move where
  /-- The engine takes the step it owes (R221). -/
  | engine
  /-- The host's next operation. -/
  | host (op : HostOp) (rest : List HostOp)
  /-- Nothing is pending and the host is silent: the block "is idle and holds all its state" (R265). -/
  | idle
  deriving DecidableEq, Repr

/-- R295: while BUSY the engine step comes after the drawn number of host operations, and at once when the host is silent. -/
def nextMove (s : State) : Move :=
  match s.env.host with
  | [] => if s.busy then .engine else .idle
  | op :: rest => if s.busy ∧ s.env.wait = 0 then .engine else .host op rest

/-! ## Host program notation (R96) -/

/-- `WR <reg>, <value>`. -/
def hostWr (r : Reg) (d : Word) : HostOp := .write (BitVec.ofNat 22 (regOffset r)) d

/-- `RD <reg>`. -/
def hostRd (r : Reg) : HostOp := .read (BitVec.ofNat 22 (regOffset r))

/-- `CMD <mnemonic>`: `WR CMD, <command word of R91>`. -/
def hostCmd (i : Instr) : HostOp := hostWr .cmd (encode i)

/-- `RUN <mnemonic>`: `CMD <mnemonic>` then `POLL`. -/
def hostRun (i : Instr) : List HostOp := [hostCmd i, .poll]

/-- `WRIN f, l, r`: `WR @(0x100000 + 4*f), {r[15:0], l[15:0]}`. -/
def hostWrin (f : Nat) (l r : Int) : HostOp :=
  .write (BitVec.ofNat 22 (inAddr f)) (wordOfFrame { left := BitVec.ofInt 16 l, right := BitVec.ofInt 16 r })

/-- `WRCT i, imp, impd`: `WR @(0x010000 + 4*i), {impd[15:0], imp[15:0]}`. -/
def hostWrct (i : Nat) (imp impd : Int) : HostOp :=
  .write (BitVec.ofNat 22 (ctabAddr i)) (wordOfCoefficient (BitVec.ofInt 16 imp) (BitVec.ofInt 16 impd))

/-- `RDOUT k`: `RD @(0x200000 + 4*k)`. -/
def hostRdout (k : Nat) : HostOp := .read (BitVec.ofNat 22 (outAddr k))

/-- `WRF64 x`, given `bits(x)`: the low half to CFG_FACTOR_LO, then the high half to CFG_FACTOR_HI. -/
def hostWrf64 (bits : BitVec 64) : List HostOp :=
  [hostWr .cfgFactorLo (bits.extractLsb' 0 32), hostWr .cfgFactorHi (bits.extractLsb' 32 32)]

end Sys2Proof.Machine
end

