-- ==== Sys2Proof/Machine/Parametric.lean ====
section
/-! DEFINITION. Machine/Parametric.lean: the machine of any choice of parameters ("A model takes each as a parameter", R9, R11, U18):
its commands and its step. Machine/Step.lean runs it at the defaults. -/

namespace Sys2Proof.Machine

/-- The rule of a command: the error it raises, or every write it makes (R230, R235, R240, R243). -/
def commandRule (P : Params) (i : Instr) (s : State) : Except ErrCode State :=
  match i with
  | .create => createRule P s
  | .process => processRule P s
  | .flush => flushRule s
  | .destroy => destroyRule s

/-- The meaning of a command with parameters `P`. -/
def execAt (P : Params) (i : Instr) (s : State) : Result := complete s (commandRule P i s)

/-- The engine step of R221: the pending command word is decoded and its meaning run by `run`. -/
def engineStepOf (run : Instr → State → Result) (s : State) : Result :=
  match decode (pendingWord s) with
  | .ok i => run i s
  | .error _ => .fault .noPendingCommand

/-- One step with parameters `P` and meanings `run`: whoever `nextMove` says moves (R8, R72, R295). -/
def stepOf (P : Params) (run : Instr → State → Result) (s : State) : Result :=
  match nextMove s with
  | .engine => engineStepOf run s
  | .host op rest => .next (hostOperation P s op rest)
  | .idle => .next s

/-- One step of the machine with parameters `P`. -/
def stepAt (P : Params) (s : State) : Result := stepOf P (execAt P) s

end Sys2Proof.Machine
end

