-- ==== Sys2Proof/Machine/Step.lean ====
section
/-! DEFINITION. Machine/Step.lean: one step of the machine: the engine's completion of the pending command (R221), one host
operation (R60), or nothing (R265); and how an instruction is put where the engine takes its next one. -/

namespace Sys2Proof.Machine

/-- One step: whoever `nextMove` says moves (R8, R72, R295), with the default parameters and the meanings of `exec`. -/
def step (s : State) : Host.Outcome State Fault Refusal := stepOf Config.pfr exec s

/-- Put an instruction where the engine takes its next one: the command word is accepted as R220 says (operands latched from `s`)
and no host operation is left to come before the engine step, so that the very next step runs it. A word that is no command is
left to the port: it is the host's next write to CMD, which R220 refuses. -/
def State.withFetchWord (s : State) (nbits w : Nat) : State :=
  match decodeTableWord nbits w with
  | some i => { accept i s with env := { (accept i s).env with wait := 0 } }
  | none =>
    { s with busy := false, env := { s.env with host := hostWr .cmd (BitVec.ofNat 32 (w % 2 ^ nbits)) :: s.env.host } }

end Sys2Proof.Machine
end

