-- ==== Sys2Proof/Safety.lean ====
section
/-! DEFINITION. Safety.lean: what a good state is: the invariants of R40, with what the model's representation adds to them, and
what it means that a step does not stop. -/

namespace Sys2Proof.Machine

/-- An offset that lies in CTAB, IN or OUT (R62). -/
def Mapped (P : Params) (a : Nat) : Prop :=
  (ctabBase ≤ a ∧ a < ctabBase + 4 * P.ctabDepth) ∨ (inBase ≤ a ∧ a < inBase + 4 * P.inFramesMax) ∨
    (outBase ≤ a ∧ a < outBase + 4 * P.outFramesMax)

/-- A memory in canonical form that lists no unmapped address. -/
structure MemoryOk (P : Params) (m : Memory) : Prop where
  wf : m.wf
  mapped : ∀ c ∈ m, Mapped P c.1

/-- R40 while READY = 1, clause by clause. -/
structure ReadyOk (P : Params) (s : State) : Prop where
  /-- "`0 <= NCREEP <= 2 * XOFF`". -/
  creep : s.pos.ncreep.toNat ≤ 2 * s.act.xoff.toNat
  /-- "`0 <= TFRAC <= Pmask`". -/
  frac : s.pos.tfrac.toNat ≤ 2 ^ P.np - 1
  /-- "`10 <= XOFF`". -/
  reachMin : 10 ≤ s.act.xoff.toNat
  /-- "`2 * XOFF <= XBUF_FRAMES_MAX`". -/
  reachMax : 2 * s.act.xoff.toNat ≤ P.xbufFramesMax
  /-- "`DTB >= 1`". -/
  period : 1 ≤ s.act.dtb.toNat
  /-- "`(DTB - 1) >> Np <= 2 * XOFF`". -/
  periodCreep : (s.act.dtb.toNat - 1) / 2 ^ P.np ≤ 2 * s.act.xoff.toNat
  /-- "MODE = 0 iff TSEL = NONE". -/
  fastIff : s.act.mode = .fast ↔ s.act.tsel = .none
  /-- "in UpDown mode `1 <= DHB <= 2^Np`". -/
  stepRange : s.act.mode = .upDown → 1 ≤ s.act.dhb.toNat ∧ s.act.dhb.toNat ≤ 2 ^ P.np

/-- R40 while READY = 0: every listed field is 0 and TSEL = NONE. -/
structure UnconfiguredOk (s : State) : Prop where
  act : s.act = ActiveConfig.unconfigured
  pos : s.pos = Position.fresh

/-- What CREATE's other checks and records leave while READY = 1 (R113, R115, R118, R121) and the model's XBUF list (R38). -/
structure RecordOk (P : Params) (s : State) : Prop where
  /-- R118: the left wing's reach. -/
  left : lmaxOf P s.act.mode s.act.nwingAct.toNat s.act.dhb.toNat ≤ s.act.xoff.toNat + 1
  /-- R118: the right wing's reach. -/
  right : rmaxOf P s.act.mode s.act.nwingAct.toNat s.act.dhb.toNat ≤ s.act.xoff.toNat
  /-- R115: "`LpScl_eff <= 62258` always". -/
  gain : s.act.lpsclEff.toNat ≤ 62258
  /-- R113: in UpOnly `dhb` is recorded as `2^Np`. -/
  fullStep : s.act.mode = .upOnly → s.act.dhb.toNat = 2 ^ P.np
  /-- R33, R121: in Fast mode DHB, LPSCL_EFF, NWING_ACT, NMULT_ACT and INTERP_ACT are 0. -/
  fastZero : s.act.mode = .fast →
    s.act.dhb = 0 ∧ s.act.lpsclEff = 0 ∧ s.act.nwingAct = 0 ∧ s.act.nmultAct = 0 ∧ s.act.interpAct = false
  /-- R38: XBUF holds the `2*Xoff` frames in use. -/
  xbuf : s.xbuf.length = 2 * s.act.xoff.toNat

/-- The invariant of the machine: R40, and what the model's representation adds. -/
structure Inv (P : Params) (s : State) : Prop where
  mem : MemoryOk P s.mem
  latchedMem : MemoryOk P s.latched.mem
  /-- R37: while BUSY the pending OP is a command's. -/
  pending : s.busy = true → ∃ i, decode (pendingWord s) = .ok i
  ready : s.ready = true → ReadyOk P s ∧ RecordOk P s
  unconfigured : s.ready = false → UnconfiguredOk s ∧ s.xbuf = [] ∧ s.outCount = 0

/-- A step that answers a next state. -/
def Goes (s : State) : Prop := ∃ t, step s = .next t

/-- A state a run from `s` reaches. -/
inductive Reaches (s : State) : State → Prop where
  | here : Reaches s s
  | step {t u : State} : Reaches s t → step t = .next u → Reaches s u

/-- A safe run: the machine never stops, whatever the host does. -/
def SafeFrom (s : State) : Prop := ∀ t, Reaches s t → Goes t

/-- A 16-bit sample's value (R10). -/
def InSampleRange (x : Int) : Prop := -32768 ≤ x ∧ x ≤ 32767

/-- A table whose entries are 16-bit (R110). -/
def TableInRange (tab : Nat → Coefficient) : Prop := ∀ h, InSampleRange (tab h).imp ∧ InSampleRange (tab h).impd

/-! ## Vocabulary of the statements -/

/-- A value outside the 32-bit signed range (R15, R196). -/
def Leaves32 (x : Int) : Prop := x < -2147483648 ∨ 2147483647 < x

/-- The factor patterns R111 refuses: NaN, `+0`, `-0`, and negative values with `-infinity`. -/
def RefusedRatio (v : FVal) : Prop :=
  v = .nan ∨ v = .zero false ∨ v = .zero true ∨ v = .infinity true ∨ ∃ q, v = .finite q ∧ q < 0

/-- CREATE with the latched selector binds the table `tsel` with header `h` (R117, R12): Low, Medium, or a legal Custom one. -/
def BindsTable (l : Latched) (tsel : TableSel) (h : TableHeader) : Prop :=
  (l.quality = 1 ∧ tsel = .low ∧ h = Config.lowHeader Config.pfr) ∨
    (l.quality = 2 ∧ tsel = .med ∧ h = Config.medHeader Config.pfr) ∨
    (l.quality = 3 ∧ l.ctabValid = true ∧ 1 ≤ l.nwing.toNat ∧ l.nwing.toNat ≤ 16384 ∧ l.lpscl ≠ 0 ∧ tsel = .custom ∧
      h = { nwing := l.nwing, nmult := l.nmult, lpscl := l.lpscl })

/-- PROCESS of `n` frames passes its first three checks (R235): READY, `N <= IN_FRAMES_MAX`, `N >= 2*XOFF + NCREEP`. -/
def BlockFits (s : State) (n : Nat) : Prop :=
  s.ready = true ∧ n = s.latched.inCount.toNat ∧ n ≤ 65536 ∧ 2 * s.act.xoff.toNat + s.pos.ncreep.toNat ≤ n

/-- The loop of R163 makes exactly `k` outputs: every one of the times `T0 + j*dtb`, `j < k`, lies below `E`, and the next does
not. -/
def LoopCount (t0 e dtb k : Nat) : Prop := (∀ j, j < k → t0 + j * dtb < e) ∧ e ≤ t0 + k * dtb

end Sys2Proof.Machine
end

