-- ==== Sys2Proof/WellFormed.lean ====
section
/-! DEFINITION. WellFormed.lean: the checks on what is written down from outside: a command word (R90, R92), the parameters
(R9, R62) and a filter table's header (R110). An `Instr` has no operand field (R93), so every term of it is well formed. -/

namespace Sys2Proof

/-- R93: "Commands carry no operand fields": there is nothing in a term of `Instr` that could be out of range. -/
def Instr.wf : Instr → Bool
  | .create => true
  | .process => true
  | .flush => true
  | .destroy => true

/-- R90: bits 31:4 (RSV) "reserved, must be zero". -/
def commandRsvZero (d : Word) : Bool := d.extractLsb' 4 28 == 0#28

/-- R91, R92: OP is one of 0x1 to 0x4. -/
def commandOpLegal (d : Word) : Bool :=
  let op := d.extractLsb' 0 4
  op == 1#4 || op == 2#4 || op == 3#4 || op == 4#4

/-- A legal command word (R92): both checks. -/
def commandWordWf (d : Word) : Bool := commandRsvZero d && commandOpLegal d

/-- R9: "The relations `Np = Nhc + Na`, `Npc = 2^Nhc` and `Nhg = Nh - Nhxn` are required of any parameter choice" (`Npc` is
defined by its relation), and the shifts are positive so that rounding bits exist. -/
def Params.relationsWf (P : Params) : Bool :=
  P.np == P.nhc + P.na && P.nhg + P.nhxn == P.nh && decide (0 < P.nhxn) && decide (0 < P.nlpscl) && decide (0 < P.np)

/-- The fields that stay as they are: a sample has 16 bits (R10, R64), a stored coefficient at most 16 (R65, R110), `2^Np` fits the
32-bit registers DHB and TFRAC (R24), and a creep count up to `2*Xoff` fits NCREEP's 16 bits (R31, R40). Log entry 1. -/
def Params.widthsWf (P : Params) : Bool :=
  P.nb == 16 && decide (P.nh ≤ 16) && decide (P.np ≤ 31) && decide (P.xbufFramesMax ≤ 65535)

/-- R62: the capacities "so that each space fits its region", and CTAB has an entry. -/
def Params.capacitiesWf (P : Params) : Bool :=
  decide (1 ≤ P.ctabDepth) && decide (P.ctabDepth ≤ 245760) && decide (P.inFramesMax ≤ 262144) &&
    decide (P.outFramesMax ≤ 524288)

/-- The greatest magnitude a rounded product can have (R191, R192): `|Coef| <= 2^Nh` and `|x| <= 2^(Nb-1)`. DESIGN CHOICE (log entry
19): it takes the entries of a table to have `Nh` bits, where for `Nh < 16` the spec does not say whether a stored 16-bit `Imp` or
`ImpD` may exceed them; nothing of it is seen at the default `Nh = 16`. -/
def Params.productBound (P : Params) : Nat := (2 ^ P.nh * 2 ^ (P.nb - 1) + 2 ^ (P.nhxn - 1)) / 2 ^ P.nhxn + 1

/-- The greatest magnitude of `vL + vR` (R203): at most `2*Xoff + 1 <= XBUF_FRAMES_MAX + 1` taps (R118, R120, R204). -/
def Params.wingSumBound (P : Params) : Nat := (P.xbufFramesMax + 1) * P.productBound

/-- The greatest magnitude of the FIR bias sum (R140, R203): guard bits dropped, times a 16-bit gain, plus the bias. -/
def Params.firBound (P : Params) : Nat := (P.wingSumBound / 2 ^ P.nhg + 1) * 2 ^ 16 + 2 ^ (P.nlpscl - 1)

/-- The greatest magnitude of the Fast kernel's bias sum (R140, R180). -/
def Params.fastBound (P : Params) : Nat := 2 ^ (P.nb - 1) * 2 ^ P.np + 2 ^ (P.np - 1)

/-- R11: ACC_W "must be wide enough that no value of rule R140 or rules R192-R203 wraps" (R196; "A model with other parameters must
recompute the width", R205), and `scl < ACC_W - 1` (R140). DESIGN CHOICE (log entry 20): the values are those of the datapath, as in
R205's derivation; the positions in table and window (R202's `Ph * dhb` among them) are not counted, though R196 says "all sums and
products of rules R201-R203". -/
def Params.accWide (P : Params) : Bool :=
  let top := 2 ^ (P.accW - 1)
  decide (2 ^ P.nh * 2 ^ (P.nb - 1) + 2 ^ (P.nhxn - 1) < top) && decide (P.wingSumBound < top) && decide (P.firBound < top) &&
    decide (P.fastBound < top) && decide (P.np + 1 < P.accW) && decide (P.nlpscl + 1 < P.accW)

/-- A parameter choice the spec admits (R9, R11, R62). -/
def Params.wf (P : Params) : Bool := P.relationsWf && P.widthsWf && P.capacitiesWf && P.accWide

/-- R110, R117: "`LpScl` is strictly positive", and a table has at least one and at most CTAB_DEPTH entries. -/
def TableHeader.wf (P : Params) (t : TableHeader) : Bool :=
  decide (1 ≤ t.nwing.toNat) && decide (t.nwing.toNat ≤ P.ctabDepth) && t.lpscl != 0#16

end Sys2Proof
end

