-- ==== Sys2Proof/Certificates/Slice0/Obligations.lean ====
section
/-! DEFINITION. Certificates/Slice0/Obligations.lean: the statements for the provers, from the spec's numbered rules. -/

open Sys2Proof Sys2Proof.Machine

/-! ## Encoding -/

/-- R91: a word selects a command exactly when `d[3:0]` is its OP and `d[31:4]` is 0. -/
def Obligations.DecodeSelectsByOpcodeMap : Prop :=
  ∀ (d : Word) (i : Instr),
    decode d = .ok i ↔
      d.extractLsb' 4 28 = 0#28 ∧
        ((i = .create ∧ d.extractLsb' 0 4 = 0x1#4) ∨ (i = .process ∧ d.extractLsb' 0 4 = 0x2#4) ∨
          (i = .flush ∧ d.extractLsb' 0 4 = 0x3#4) ∨ (i = .destroy ∧ d.extractLsb' 0 4 = 0x4#4))

/-- The four command words of R91 written out, and words with a reserved OP or an RSV bit set (R92). -/
def Obligations.CommandWordsReadRight : Prop :=
  decode 0x00000001#32 = .ok .create ∧ decode 0x00000002#32 = .ok .process ∧ decode 0x00000003#32 = .ok .flush ∧
    decode 0x00000004#32 = .ok .destroy ∧ decode 0x00000000#32 = .error (.reservedOp 0#4) ∧
    decode 0x00000005#32 = .error (.reservedOp 5#4) ∧ decode 0x00000012#32 = .error .reservedBits

/-- Decoding an encoded command gives it back, as a word, as bytes with anything behind them, and as the opcode table's row. -/
def Obligations.DecodeOfEncode : Prop :=
  ∀ (i : Instr) (rest : List Byte),
    decode (encode i) = .ok i ∧ decodeBytes (bytesOfWord (encode i) ++ rest) = .ok (i, rest) ∧
      decodeTableWord 32 (encode i).toNat = some i

/-! ## Who moves -/

/-- A step while BUSY whose turn it is runs the pending command's meaning, and nothing around it. -/
def Obligations.StepRunsPendingCommand : Prop :=
  ∀ (s : State) (i : Instr), s.busy = true → (s.env.host = [] ∨ s.env.wait = 0) → decode (0#28 ++ s.pending) = .ok i →
    step s = exec i s

/-- A command word put where the engine takes its next one runs in the very next step, on operands latched from the state. -/
def Obligations.FetchedWordRunsNext : Prop :=
  ∀ (s : State) (i : Instr),
    step (s.withFetchWord 32 (encode i).toNat) = exec i (s.withFetchWord 32 (encode i).toNat) ∧
      (s.withFetchWord 32 (encode i).toNat).latched = latchOperands i s

/-- Otherwise a step takes the host's next operation (R60, R96, R280): a write reaches the block as `busWrite` and returns no datum;
a read returns `busRead` and changes no state of the block (R71), not even what unwritten memory reads as; a poll returns STATUS and
stays in front while BUSY; a reset gives the reset state. An idle block with a silent host stays as it is (R265). The host's queue, the datum and the count of operations
that may still come before the engine step are the model's own fields (log entries 2, 3). -/
def Obligations.HostMovesOrBlockIdles : Prop :=
  (∀ (s : State) (op : HostOp) (rest : List HostOp), s.env.host = op :: rest → (s.busy = false ∨ s.env.wait ≠ 0) →
    let after := fun queue : List HostOp =>
      { s with env := { s.env with host := queue, wait := if s.busy then s.env.wait - 1 else s.env.wait } }
    ∃ t, step s = .next t ∧ t = hostOperation Config.pfr s op rest ∧
      (∀ a d, op = .write a d →
        let u := busWrite Config.pfr (after rest) a d
        t = { u with env := { u.env with rdata := none } }) ∧
      (∀ a, op = .read a →
        t = { s with env := t.env } ∧ t.env.host = rest ∧ t.env.epoch = s.env.epoch ∧
          t.env.rdata = some (busRead Config.pfr s a)) ∧
      (op = .poll →
        let u := after (if s.busy then .poll :: rest else rest)
        t = { u with env := { u.env with rdata := some (busRead Config.pfr s 0x04#22) } }) ∧
      (op = .reset → t = { State.reset with env := t.env } ∧ t.env.host = rest)) ∧
  ∀ s : State, s.env.host = [] → s.busy = false → step s = .next s

/-- Every accepted command completes: BUSY is 0 again within the drawn number of host operations and one engine step (log entry 3),
by the completion itself or by a reset, which abandons the command (R281); without a reset in the host's queue, the last of these
steps is the command's `exec`, on the operands its acceptance latched. -/
def Obligations.AcceptedCommandCompletes : Prop :=
  ∀ (s : State) (i : Instr), Inv Config.pfr s → s.busy = true → decode (0#28 ++ s.pending) = .ok i →
    (∃ k t, k ≤ s.env.wait + 1 ∧ Host.Core.run core k s = .next t ∧ t.busy = false) ∧
      (HostOp.reset ∉ s.env.host →
        ∃ k u t, k ≤ s.env.wait ∧ Host.Core.run core k s = .next u ∧ u.busy = true ∧ u.pending = s.pending ∧
          u.latched = s.latched ∧ step u = exec i u ∧ exec i u = .next t ∧ t.busy = false ∧
          Host.Core.run core (k + 1) s = .next t)

/-! ## Acceptance -/

/-- R220, all three outcomes of a write to CMD, with what R35 latches. That PROCESS latches memory is log entry 9 (DEDUCED from
R72 b); the queue and the breach of the model's environment are log entries 2 and 8, and its epoch, which unwritten memory reads by,
is log entry 5. -/
def Obligations.CommandAcceptance : Prop :=
  ∀ (s : State) (d : Word),
    (s.busy = true → busWrite Config.pfr s 0#22 d = { s with sticky := { s.sticky with overrun := true } }) ∧
    (s.busy = false → (d.extractLsb' 4 28 ≠ 0#28 ∨ ∀ i, d.extractLsb' 0 4 ≠ opOf i) →
      busWrite Config.pfr s 0#22 d = { s with lastOp := d.extractLsb' 0 4, err := .cmdIllegal }) ∧
    ∀ i, s.busy = false → d.extractLsb' 4 28 = 0#28 → d.extractLsb' 0 4 = opOf i →
      ∃ l e,
        busWrite Config.pfr s 0#22 d =
          { s with lastOp := d.extractLsb' 0 4, pending := d.extractLsb' 0 4, busy := true, latched := l, env := e } ∧
        (i = .create → l =
          { s.latched with
            factorBits := s.regs.factorHi ++ s.regs.factorLo, quality := s.regs.quality, interp := s.regs.interp,
            ctabValid := s.regs.ctabValid, nwing := s.regs.ctabNwing, nmult := s.regs.ctabNmult, lpscl := s.regs.ctabLpscl }) ∧
        (i = .process → l = { s.latched with inCount := s.regs.inCount, mem := s.mem }) ∧
        (i = .flush ∨ i = .destroy → l = s.latched) ∧ e.host = s.env.host ∧ e.epoch = s.env.epoch ∧ e.hazard = false

/-- R35, R72 b: no host operation but reset changes the command in flight: BUSY, its OP, its latched operands, or ERR. -/
def Obligations.RunningCommandKeepsItsOperands : Prop :=
  ∀ (s : State) (op : HostOp) (rest : List HostOp), s.busy = true → op ≠ .reset →
    (hostOperation Config.pfr s op rest).busy = true ∧ (hostOperation Config.pfr s op rest).pending = s.pending ∧
      (hostOperation Config.pfr s op rest).latched = s.latched ∧ (hostOperation Config.pfr s op rest).err = s.err ∧
      (hostOperation Config.pfr s op rest).lastOp = s.lastOp

/-- R222: LAST_OP changes only in a step that takes a CMD write that is not dropped, which records its OP there, or a reset. -/
def Obligations.LastOpFollowsCommandWrites : Prop :=
  ∀ s t : State, step s = .next t →
    (t.lastOp ≠ s.lastOp → (∃ rest, nextMove s = .host .reset rest) ∨
      (s.busy = false ∧ ∃ d rest, nextMove s = .host (.write 0#22 d) rest)) ∧
    ∀ d rest, s.busy = false → nextMove s = .host (.write 0#22 d) rest → t.lastOp = d.extractLsb' 0 4

/-! ## Registers and the port -/

/-- R26: the fields of a STATUS read, with the numbers of MODE (R95) and ERR (R251). -/
def Obligations.StatusReadShowsItsFields : Prop :=
  ∀ s : State,
    let w := busRead Config.pfr s 0x04#22
    let mode := match s.act.mode with
      | .fast => 0
      | .upOnly => 1
      | .upDown => 2
    let err := match s.err with
      | .none => 0
      | .configRatio => 1
      | .configQuality => 2
      | .configNoTable => 3
      | .configTable => 4
      | .configRange => 5
      | .configReach => 6
      | .configCreep => 7
      | .alloc => 8
      | .precondShort => 9
      | .precondRange => 10
      | .outOverflow => 11
      | .state => 12
      | .cmdIllegal => 13
    w.extractLsb' 0 1 = BitVec.ofBool s.busy ∧ w.extractLsb' 1 1 = BitVec.ofBool s.ready ∧
      (w.extractLsb' 2 2).toNat = mode ∧ (w.extractLsb' 4 4).toNat = err ∧
      w.extractLsb' 8 1 = BitVec.ofBool s.sticky.accOvf ∧ w.extractLsb' 9 1 = BitVec.ofBool s.sticky.overrun ∧
      w.extractLsb' 10 1 = BitVec.ofBool s.sticky.ctabWlock ∧ w.extractLsb' 11 1 = BitVec.ofBool s.act.interpAct ∧
      w.extractLsb' 12 4 = s.lastOp ∧ w.extractLsb' 16 16 = 0#16

/-- R24, R28 to R30, R32: a host-written register reads back its fields, reserved bits 0, and the write changes no other
register it does not hold. -/
def Obligations.HostRegistersReadBack : Prop :=
  ∀ (s : State) (d : Word),
    let back := fun a : Offset => busRead Config.pfr (busWrite Config.pfr s a d) a
    back 0x08#22 = d ∧ back 0x0C#22 = d ∧ back 0x10#22 = d &&& 0x0001010F#32 ∧ back 0x14#22 = d &&& 0x0000FFFF#32 ∧
      back 0x18#22 = d &&& 0x0000FFFF#32 ∧ back 0x1C#22 = d &&& 0x0000FFFF#32 ∧ back 0x20#22 = d &&& 0x00FFFFFF#32 ∧
      ∀ a b : Offset, a ≠ b → a ≠ 0x00#22 → a.toNat < 0x100 →
        busRead Config.pfr (busWrite Config.pfr s a d) b = busRead Config.pfr s b

/-- R33, R31, R32: the readback registers are their fields, zero-extended, and a write to one changes nothing (R24). -/
def Obligations.ReadbackRegistersReadTheirFields : Prop :=
  ∀ s : State,
    let value := fun a : Offset => (busRead Config.pfr s a).toNat
    value 0x24#22 = s.outCount.toNat ∧ value 0x28#22 = s.act.xoff.toNat ∧ value 0x2C#22 = s.pos.ncreep.toNat ∧
      value 0x30#22 = s.pos.tfrac.toNat ∧ value 0x34#22 = s.act.dtb.toNat ∧ value 0x38#22 = s.act.dhb.toNat ∧
      value 0x3C#22 = s.act.lpsclEff.toNat ∧ value 0x40#22 = s.act.nwingAct.toNat ∧ value 0x44#22 = s.act.nmultAct.toNat ∧
      value 0x00#22 = 0 ∧
      ∀ (a : Offset) (d : Word), a.toNat = 0x04 ∨ (0x24 ≤ a.toNat ∧ a.toNat ≤ 0x44) → busWrite Config.pfr s a d = s

/-- R61: a misaligned or unmapped transaction is ignored or returns 0, and changes no state; R34: so is one at the reserved offsets
0x48 to 0xFC. -/
def Obligations.UnmappedAndReservedAreIgnored : Prop :=
  ∀ (s : State) (a : Offset) (d : Word),
    (a.toNat % 4 ≠ 0 ∨ (0x48 ≤ a.toNat ∧ a.toNat ≤ 0xFC) ∨
      ¬ (a.toNat < 0x100 ∨ (0x010000 ≤ a.toNat ∧ a.toNat < 0x010000 + 4 * 16384) ∨
        (0x100000 ≤ a.toNat ∧ a.toNat < 0x100000 + 4 * 65536) ∨ (0x200000 ≤ a.toNat ∧ a.toNat < 0x200000 + 4 * 262144))) →
    busRead Config.pfr s a = 0#32 ∧ afterBusRead Config.pfr s a = s ∧ busWrite Config.pfr s a d = s

/-- R62, R71: while not BUSY a word written to IN, OUT or unlocked CTAB reads back, and every other offset reads as before. -/
def Obligations.HostMemoryReadsBack : Prop :=
  ∀ (s : State) (a : Offset) (d : Word), s.busy = false → a.toNat % 4 = 0 →
    ((0x100000 ≤ a.toNat ∧ a.toNat < 0x100000 + 4 * 65536) ∨ (0x200000 ≤ a.toNat ∧ a.toNat < 0x200000 + 4 * 262144) ∨
      (s.ready = false ∧ 0x010000 ≤ a.toNat ∧ a.toNat < 0x010000 + 4 * 16384)) →
    busRead Config.pfr (busWrite Config.pfr s a d) a = d ∧
      ∀ b : Offset, b ≠ a → busRead Config.pfr (busWrite Config.pfr s a d) b = busRead Config.pfr s b

/-- R67: byte `a + j` of a stored word holds its bits `8*j+7 : 8*j`. -/
def Obligations.WordsAreLittleEndian : Prop :=
  ∀ (s : State) (a j : Nat) (d : Word), j < 4 →
    byteAt s.env.epoch (storeWord s a d).mem (a + j) = d.extractLsb' (8 * j) 8

/-- R66: while READY or BUSY a CTAB write is dropped and sets CTAB_WLOCK; otherwise it is stored; reads are never locked. -/
def Obligations.CtabWriteLock : Prop :=
  ∀ (s : State) (i : Nat) (d : Word), i < 16384 →
    let a := BitVec.ofNat 22 (0x010000 + 4 * i)
    (s.ready = true ∨ s.busy = true → busWrite Config.pfr s a d = { s with sticky := { s.sticky with ctabWlock := true } }) ∧
    (s.ready = false → s.busy = false →
      busRead Config.pfr (busWrite Config.pfr s a d) a = d ∧
        busWrite Config.pfr s a d = { s with mem := (busWrite Config.pfr s a d).mem } ∧
        ∀ x, x < 0x010000 + 4 * i ∨ 0x010000 + 4 * i + 4 ≤ x →
          byteAt s.env.epoch (busWrite Config.pfr s a d).mem x = byteAt s.env.epoch s.mem x) ∧
    busRead Config.pfr s a = wordAt s.env.epoch s.mem (0x010000 + 4 * i)

/-- R76: CTAB cannot change while an instance is configured or a command runs, whatever the step is, short of one that
takes a hardware reset. -/
def Obligations.CtabFixedWhileConfigured : Prop :=
  ∀ s t : State, step s = .next t → (∀ rest, nextMove s ≠ .host .reset rest) → s.ready = true ∨ s.busy = true →
    ∀ a, 0x010000 ≤ a → a < 0x100000 → byteAt t.env.epoch t.mem a = byteAt s.env.epoch s.mem a

/-- R290 (b), U5: a host access to IN or OUT while BUSY changes nothing but the word it writes and the model's own fields: a read
changes no byte, a write none outside its word (log entry 8). -/
def Obligations.HostAccessWhileBusyIsContained : Prop :=
  ∀ (s : State) (op : HostOp) (rest : List HostOp) (a : Offset) (d : Word), s.busy = true → a.toNat % 4 = 0 →
    ((0x100000 ≤ a.toNat ∧ a.toNat < 0x100000 + 4 * 65536) ∨ (0x200000 ≤ a.toNat ∧ a.toNat < 0x200000 + 4 * 262144)) →
    op = .write a d ∨ op = .read a →
    let t := hostOperation Config.pfr s op rest
    t = { s with mem := t.mem, env := t.env } ∧ (op = .read a → t.mem = s.mem) ∧
      ∀ x, op = .read a ∨ x < a.toNat ∨ a.toNat + 4 ≤ x → byteAt t.env.epoch t.mem x = byteAt s.env.epoch s.mem x

/-! ## Reset -/

/-- R280: what hardware reset leaves in registers, STATUS fields, command state and hidden configuration. -/
def Obligations.ResetClearsEveryRegister : Prop :=
  (∀ r, csrRead State.reset r = 0#32) ∧ State.reset.busy = false ∧ State.reset.ready = false ∧
    State.reset.act.mode = .fast ∧ State.reset.err = .none ∧ State.reset.sticky.accOvf = false ∧
    State.reset.sticky.overrun = false ∧ State.reset.sticky.ctabWlock = false ∧ State.reset.act.interpAct = false ∧
    State.reset.lastOp = 0#4 ∧ State.reset.act.tsel = .none ∧ State.reset.act.lpsclRaw = 0#16

/-- R281: a reset abandons a pending command: all but the model's own fields is the state of R280, and the host goes on. -/
def Obligations.ResetAbandonsPendingCommand : Prop :=
  ∀ (s : State) (rest : List HostOp),
    let t := hostOperation Config.pfr s .reset rest
    t = { State.reset with env := t.env } ∧ t.env.host = rest

/-! ## Errors -/

/-- R250: every command answers; a failing one changes ERR and BUSY alone, and CMD_ILLEGAL is written at the CMD write. -/
def Obligations.FailingCommandChangesOnlyErrAndBusy : Prop :=
  (∀ (i : Instr) (s : State), ∃ t, exec i s = .next t ∧ t.busy = false ∧
    (t.err ≠ .none → t = { s with err := t.err, busy := false })) ∧
  ∀ (s : State) (d : Word) (e : DecodeError), s.busy = false → decode d = .error e →
    busWrite Config.pfr s 0#22 d = { s with lastOp := d.extractLsb' 0 4, err := .cmdIllegal }

/-- R223: which command is legal in which command state, and the state it leaves. -/
def Obligations.CommandLegalityByState : Prop :=
  ∀ (i : Instr) (s : State), ∃ t, exec i s = .next t ∧
    (t.err = .state ↔ ((i = .create ∧ s.ready = true) ∨ (i ≠ .create ∧ s.ready = false))) ∧
    (t.err = .none → (t.ready = true ↔ i ≠ .destroy)) ∧ (t.err ≠ .none → t.ready = s.ready)

/-- R111: CREATE while UNCONFIGURED reports CONFIG_RATIO exactly for NaN, zeros and negative values; `+infinity` with a legal
selector goes on to CONFIG_RANGE. -/
def Obligations.RatioCheck : Prop :=
  ∀ s : State, s.ready = false →
    (exec .create s = .next { s with err := .configRatio, busy := false } ↔ RefusedRatio (fval s.latched.factorBits)) ∧
    (fval s.latched.factorBits = .infinity false → (s.latched.quality = 0 ∨ ∃ tsel h, BindsTable s.latched tsel h) →
      exec .create s = .next { s with err := .configRange, busy := false })

/-- R231: the first failing check of CREATE, in the rule's order, is the one reported. -/
def Obligations.CreateErrorsInOrder : Prop :=
  ∀ s : State,
    (s.ready = true → exec .create s = .next { s with err := .state, busy := false }) ∧
    (s.ready = false → RefusedRatio (fval s.latched.factorBits) →
      exec .create s = .next { s with err := .configRatio, busy := false }) ∧
    ∀ f, s.ready = false → positiveFactor (fval s.latched.factorBits) = some f →
      (4 ≤ s.latched.quality.toNat → exec .create s = .next { s with err := .configQuality, busy := false }) ∧
      (s.latched.quality = 3 → s.latched.ctabValid = false →
        exec .create s = .next { s with err := .configNoTable, busy := false }) ∧
      (s.latched.quality = 3 → s.latched.ctabValid = true →
        (s.latched.nwing = 0 ∨ 16384 < s.latched.nwing.toNat ∨ s.latched.lpscl = 0) →
        exec .create s = .next { s with err := .configTable, busy := false }) ∧
      ∀ sel, selectTable Config.pfr s.latched = .ok sel →
        let d := derive Config.pfr sel f
        let range := d.dtb < 1 ∨ 2 ^ 32 - 1 < d.dtb ∨ (d.mode = .upDown ∧ d.dhb < 1) ∨ 65535 < d.xoff
        let alloc := 16384 < 2 * d.xoff
        let reach := d.xoff + 1 < lmaxOf Config.pfr d.mode sel.header.nwing.toNat d.dhb ∨
          d.xoff < rmaxOf Config.pfr d.mode sel.header.nwing.toNat d.dhb
        let creep := 2 * d.xoff < (d.dtb - 1) / 2 ^ 15
        (range → exec .create s = .next { s with err := .configRange, busy := false }) ∧
        (¬ range → alloc → exec .create s = .next { s with err := .alloc, busy := false }) ∧
        (¬ range → ¬ alloc → reach → exec .create s = .next { s with err := .configReach, busy := false }) ∧
        (¬ range → ¬ alloc → ¬ reach → creep → exec .create s = .next { s with err := .configCreep, busy := false })

/-- R235, R252: PROCESS reports STATE, PRECOND_RANGE, PRECOND_SHORT and OUT_OVERFLOW in that order, and changes nothing else. -/
def Obligations.ProcessErrorsInOrder : Prop :=
  ∀ s : State,
    let n := s.latched.inCount.toNat
    (s.ready = false → exec .process s = .next { s with err := .state, busy := false }) ∧
    (s.ready = true → 65536 < n → exec .process s = .next { s with err := .precondRange, busy := false }) ∧
    (s.ready = true → n ≤ 65536 → n < 2 * s.act.xoff.toNat + s.pos.ncreep.toNat →
      exec .process s = .next { s with err := .precondShort, busy := false }) ∧
    ∀ k, Inv Config.pfr s → BlockFits s n →
      LoopCount (startTime Config.pfr s) (endTime Config.pfr s n) s.act.dtb.toNat k → 262144 < k →
      exec .process s = .next { s with err := .outOverflow, busy := false }

/-! ## CREATE -/

/-- R94: the binary64 reading of FACTOR_BITS, with sign, exponent and fraction as the rule names them. -/
def Obligations.Binary64Decoding : Prop :=
  ∀ (sign : Bool) (e m : Nat), e < 2048 → m < 2 ^ 52 →
    let v := fval (BitVec.ofBool sign ++ BitVec.ofNat 11 e ++ BitVec.ofNat 52 m)
    let unit : ℚ := if sign then -1 else 1
    (e = 2047 → m ≠ 0 → v = .nan) ∧ (e = 2047 → m = 0 → v = .infinity sign) ∧ (e = 0 → m = 0 → v = .zero sign) ∧
      (e = 0 → m ≠ 0 → v = .finite (unit * m * (2 : ℚ) ^ (-1074 : ℤ))) ∧
      (1 ≤ e → e ≤ 2046 → v = .finite (unit * (2 ^ 52 + m) * (2 : ℚ) ^ ((e : ℤ) - 1075)))

/-- CREATE with QUALITY = Basic completes (R112, R116, R121, R230): the whole next state. LPSCL_RAW, which R121 leaves open here, is
the free value of log entry 18. -/
def Obligations.CreateBasicCompletes : Prop :=
  ∀ (s : State) (q : ℚ), s.ready = false → fval s.latched.factorBits = .finite q → 0 < q → s.latched.quality = 0 →
    1 ≤ ⌊(2 : ℚ) ^ 15 / q + 1 / 2⌋ → (⌊(2 : ℚ) ^ 15 / q + 1 / 2⌋ - 1) / 2 ^ 15 ≤ 20 →
    exec .create s = .next
      { s with
        ready := true, busy := false, err := .none
        act :=
          { mode := .fast, interpAct := false, tsel := .none, lpsclRaw := Config.unboundLpscl, xoff := 10,
            dtb := BitVec.ofInt 32 ⌊(2 : ℚ) ^ 15 / q + 1 / 2⌋, dhb := 0, lpsclEff := 0, nwingAct := 0, nmultAct := 0 }
        pos := { ncreep := 0, tfrac := 0 }
        outCount := 0
        xbuf := List.replicate 20 { left := 0, right := 0 }
        sticky := { accOvf := false, overrun := false, ctabWlock := false } }

/-- CREATE with a table and `f >= 1` completes in UpOnly (R112 to R121, R230): the whole next state. -/
def Obligations.CreateUpOnlyCompletes : Prop :=
  ∀ (s : State) (q : ℚ) (tsel : TableSel) (h : TableHeader), s.ready = false → fval s.latched.factorBits = .finite q → 1 ≤ q →
    BindsTable s.latched tsel h →
    let x := ⌈((h.nmult.toNat : ℚ) + 1) / 2⌉ + 10
    1 ≤ ⌊(2 : ℚ) ^ 15 / q + 1 / 2⌋ → 2 * x ≤ 16384 → ⌈(h.nwing.toNat : ℚ) / 256⌉ ≤ x + 1 →
    ⌈((h.nwing.toNat : ℚ) - 1) / 256⌉ ≤ x →
    exec .create s = .next
      { s with
        ready := true, busy := false, err := .none
        act :=
          { mode := .upOnly, interpAct := s.latched.interp, tsel := tsel, lpsclRaw := h.lpscl, xoff := BitVec.ofInt 16 x,
            dtb := BitVec.ofInt 32 ⌊(2 : ℚ) ^ 15 / q + 1 / 2⌋, dhb := 32768,
            lpsclEff := BitVec.ofInt 16 ⌊(h.lpscl.toNat : ℚ) * 19 / 20 + 1 / 2⌋, nwingAct := h.nwing, nmultAct := h.nmult }
        pos := { ncreep := 0, tfrac := 0 }
        outCount := 0
        xbuf := List.replicate (2 * x).toNat { left := 0, right := 0 }
        sticky := { accOvf := false, overrun := false, ctabWlock := false } }

/-- CREATE with a table and `f < 1` completes in UpDown (R112 to R121, R230): the whole next state. The range and creep checks
need no hypothesis: a reach that fits XBUF implies them. -/
def Obligations.CreateUpDownCompletes : Prop :=
  ∀ (s : State) (q : ℚ) (tsel : TableSel) (h : TableHeader), s.ready = false → fval s.latched.factorBits = .finite q → 0 < q →
    q < 1 → BindsTable s.latched tsel h →
    let x := ⌈((h.nmult.toNat : ℚ) + 1) / (2 * q)⌉ + 10
    let b := ⌊q * 2 ^ 15 + 1 / 2⌋
    2 * x ≤ 16384 → ⌈(h.nwing.toNat : ℚ) * 128 / b⌉ ≤ x + 1 → ⌈((h.nwing.toNat : ℚ) - 1) * 128 / b⌉ ≤ x →
    exec .create s = .next
      { s with
        ready := true, busy := false, err := .none
        act :=
          { mode := .upDown, interpAct := s.latched.interp, tsel := tsel, lpsclRaw := h.lpscl, xoff := BitVec.ofInt 16 x,
            dtb := BitVec.ofInt 32 ⌊(2 : ℚ) ^ 15 / q + 1 / 2⌋, dhb := BitVec.ofInt 32 b,
            lpsclEff := BitVec.ofInt 16 ⌊(h.lpscl.toNat : ℚ) * 19 / 20 * q + 1 / 2⌋, nwingAct := h.nwing, nmultAct := h.nmult }
        pos := { ncreep := 0, tfrac := 0 }
        outCount := 0
        xbuf := List.replicate (2 * x).toNat { left := 0, right := 0 }
        sticky := { accOvf := false, overrun := false, ctabWlock := false } }

/-- The bounds the derivation keeps before any check: gain (R115), reach (R116), step (R113), and the creep check that "never
fails" in FIR modes (R119). -/
def Obligations.DerivedConfigurationBounds : Prop :=
  ∀ (sel : Selection) (q : ℚ), 0 < q →
    let d := derive Config.pfr sel (.finite q)
    d.lpsclEff ≤ 62258 ∧ 10 ≤ d.xoff ∧ (d.mode = .upDown → d.dhb ≤ 2 ^ 15) ∧
      (d.mode ≠ .fast → 11 ≤ d.xoff ∧ (d.dtb - 1) / 2 ^ 15 ≤ 2 * d.xoff)

/-- R12, R110, U16: the built-in tables' headers meet the table invariants and the checks of R117, and nothing else: every legal
header is one that some contents of the open parameter give (log entry 4). R118: in UpOnly a table with
`Nwing <= Npc * (Nmult + 1) / 2` always passes the reach check. -/
def Obligations.BuiltInTablesAreLegalAndShortTablesPassReach : Prop :=
  (∀ h : TableHeader, h = Config.lowHeader Config.pfr ∨ h = Config.medHeader Config.pfr →
    1 ≤ h.nwing.toNat ∧ h.nwing.toNat ≤ 16384 ∧ 1 ≤ h.lpscl.toNat) ∧
  (∀ h : TableHeader, 1 ≤ h.nwing.toNat → h.nwing.toNat ≤ 16384 → 1 ≤ h.lpscl.toNat →
    ∃ raw, TableHeader.legal Config.pfr raw = h) ∧
  ∀ (sel : Selection) (f : Factor), (derive Config.pfr sel f).mode = .upOnly →
    2 * sel.header.nwing.toNat ≤ 256 * (sel.header.nmult.toNat + 1) →
    reachFails Config.pfr (derive Config.pfr sel f) sel.header.nwing.toNat = false

/-! ## Quantizer -/

/-- R143: no input and no legal shift takes `Q` out of the 16-bit range. -/
def Obligations.QuantizerStaysInRange : Prop :=
  ∀ (v : Int) (scl : Nat), 1 ≤ scl → -32768 ≤ quantize Config.pfr v scl ∧ quantize Config.pfr v scl ≤ 32767

/-- R144: `Q` is the clamp of round to nearest with ties toward plus infinity; it is non-decreasing; it takes its extreme values
exactly where the rule says. -/
def Obligations.QuantizerRoundsHalfUp : Prop :=
  ∀ (v : Int) (scl : Nat), 1 ≤ scl →
    let Q := fun u : Int => quantize Config.pfr u scl
    asr (v + 2 ^ (scl - 1)) scl = ⌊(v : ℚ) / 2 ^ scl + 1 / 2⌋ ∧ Q v = min 32767 (max (-32768) ⌊(v : ℚ) / 2 ^ scl + 1 / 2⌋) ∧
      (∀ u : Int, u ≤ v → Q u ≤ Q v) ∧ (Q v = 32767 ↔ 32767 * 2 ^ scl - 2 ^ (scl - 1) ≤ v) ∧
      (Q v = -32768 ↔ v < -32767 * 2 ^ scl - 2 ^ (scl - 1)) ∧ (Q v = -32768 ↔ v ≤ -32768 * 2 ^ scl + 2 ^ (scl - 1) - 1)

/-! ## Kernels -/

/-- R145, R180: in Fast mode the kernel output is the rounded linear blend of the two bracketing frames; it never clamps and never
sets the flag. -/
def Obligations.FastKernelBlendsWithoutSaturation : Prop :=
  ∀ (tab : Nat → Coefficient) (act : ActiveConfig) (W : Int → Int) (T : Nat), act.mode = .fast → (∀ w, InSampleRange (W w)) →
    let n : Int := (T / 2 ^ 15 : Nat)
    let frac : Int := (T % 2 ^ 15 : Nat)
    let y := kernelOut Config.pfr tab act W T
    y.v = ⌊((W n * (2 ^ 15 - frac) + W (n + 1) * frac : Int) : ℚ) / 2 ^ 15 + 1 / 2⌋ ∧ y.ovf = false ∧ (frac = 0 → y.v = W n)

/-- R191: the interpolated coefficient, a 17-bit signed value. -/
def Obligations.CoefficientRange : Prop :=
  ∀ (interp : Bool) (e : Coefficient) (a : Nat),
    (interp = true → coef Config.pfr interp e a = e.imp + ⌊((e.impd * a : Int) : ℚ) / 2 ^ 7⌋) ∧
      (interp = false → coef Config.pfr interp e a = e.imp) ∧
      (InSampleRange e.imp → InSampleRange e.impd → a ≤ 127 →
        -65280 ≤ coef Config.pfr interp e a ∧ coef Config.pfr interp e a ≤ 65278)

/-- R192: the product rounding by its rounding bit is round to nearest with ties toward plus infinity, and stays small. -/
def Obligations.ProductRounding : Prop :=
  ∀ cf x : Int, -65280 ≤ cf → cf ≤ 65280 → InSampleRange x →
    roundProd Config.pfr cf x = asr (cf * x + 2 ^ 13) 14 ∧
      roundProd Config.pfr cf x = ⌊((cf * x : Int) : ℚ) / 2 ^ 14 + 1 / 2⌋ ∧ |cf * x| < 2 ^ 31 ∧
      |roundProd Config.pfr cf x| ≤ 130560

/-- R201, R204: an UpOnly wing is the sum of its `max(0, ceil((End - h0) / Npc))` rounded products; it records an overflow exactly
when a partial sum leaves the 32-bit range (R196). -/
def Obligations.UpOnlyWingSumsItsTaps : Prop :=
  ∀ (tab : Nat → Coefficient) (act : ActiveConfig) (W : Int → Int) (side : Wing) (n0 : Int) (ph : Nat),
    let h0 := ph / 128 + (if side = .right ∧ ph = 0 then 256 else 0)
    let a := if act.interpAct then ph % 128 else 0
    let taps := ceilDiv (side.endOf act.nwingAct.toNat - h0) 256
    let partialSum := fun m : Nat =>
      ∑ j ∈ Finset.range m, roundProd Config.pfr (coef Config.pfr act.interpAct (tab (h0 + 256 * j)) a) (W (n0 + side.inc * j))
    let v := wingUp Config.pfr tab act W side n0 ph
    v.v = partialSum taps ∧ (v.ovf = true ↔ ∃ m, 1 ≤ m ∧ m ≤ taps ∧ Leaves32 (partialSum m))

/-- R202, R204: an UpDown wing is the sum of its `max(0, ceil((End * 2^Na - Ho0) / dhb))` rounded products; it records an overflow
exactly when a partial sum leaves the 32-bit range (R196). -/
def Obligations.UpDownWingSumsItsTaps : Prop :=
  ∀ (tab : Nat → Coefficient) (act : ActiveConfig) (W : Int → Int) (side : Wing) (n0 : Int) (ph : Nat), 1 ≤ act.dhb.toNat →
    let ho := fun j : Nat =>
      ph * act.dhb.toNat / 2 ^ 15 + (if side = .right ∧ ph = 0 then act.dhb.toNat else 0) + act.dhb.toNat * j
    let taps := ceilDiv (side.endOf act.nwingAct.toNat * 128 - ho 0) act.dhb.toNat
    let partialSum := fun m : Nat =>
      ∑ j ∈ Finset.range m,
        roundProd Config.pfr
          (coef Config.pfr act.interpAct (tab (ho j / 128)) (if act.interpAct then ho j % 128 else 0)) (W (n0 + side.inc * j))
    let v := wingUD Config.pfr tab act W side n0 ph
    v.v = partialSum taps ∧ (v.ovf = true ↔ ∃ m, 1 ≤ m ∧ m ≤ taps ∧ Leaves32 (partialSum m))

/-- R202: with `dhb = 2^Np` WingUD computes exactly WingUp. -/
def Obligations.FullStepWingsAgree : Prop :=
  ∀ (tab : Nat → Coefficient) (act : ActiveConfig) (W : Int → Int) (side : Wing) (n0 : Int) (ph : Nat),
    act.dhb.toNat = 2 ^ 15 → ph < 2 ^ 15 →
    wingUD Config.pfr tab act W side n0 ph = wingUp Config.pfr tab act W side n0 ph

/-- R190: a kernel reads table entries below NWING_ACT only, and no `ImpD` while INTERP_ACT = 0 (R191, R209). R36, R65: what PROCESS
reads there is the table TSEL names: CTAB as it stood at acceptance (R72 b), or the open contents of LOW_TABLE or MED_TABLE (log entry
4), `Imp` in bits 15:0 and `ImpD` in bits 31:16 of an entry's word, each two's complement. -/
def Obligations.KernelsReadOnlyTheBoundTable : Prop :=
  (∀ (tab tab' : Nat → Coefficient) (act : ActiveConfig) (W : Int → Int) (T : Nat),
    (∀ h, h < act.nwingAct.toNat → (tab h).imp = (tab' h).imp ∧ (act.interpAct = true → (tab h).impd = (tab' h).impd)) →
    kernelOut Config.pfr tab act W T = kernelOut Config.pfr tab' act W T) ∧
  ∀ (s : State) (h : Nat),
    let reads := fun w : Word => (tableEntry s h).imp = (w.extractLsb' 0 16).toInt ∧ (tableEntry s h).impd = (w.extractLsb' 16 16).toInt
    (s.act.tsel = .custom → reads (wordAt s.env.epoch s.latched.mem (0x010000 + 4 * h))) ∧
      (s.act.tsel = .low → reads (Config.lowEntry h)) ∧ (s.act.tsel = .med → reads (Config.medEntry h))

/-- R168: in a configured machine no output of a PROCESS that fits depends on anything outside the window `[0, 2*Xoff + N)`,
and its frame lies where the rule says. R151, R152, R64: the window is XBUF's `2*Xoff` frames and then the block's `N` frames of IN as
it stood at acceptance (R72 b; after a broken duty log entry 9, DEDUCED), the left sample in bits 15:0 of a word and the right in bits
31:16. -/
def Obligations.WindowReadsStayInside : Prop :=
  (∀ (s : State) (n k : Nat) (tab : Nat → Coefficient) (W W' : Int → Int), Inv Config.pfr s → BlockFits s n →
    k < outputCount Config.pfr s n →
    (∀ w : Int, 0 ≤ w → w < 2 * s.act.xoff.toNat + n → W w = W' w) →
    let T := outputTime Config.pfr s k
    kernelOut Config.pfr tab s.act W T = kernelOut Config.pfr tab s.act W' T ∧
      s.pos.ncreep.toNat + s.act.xoff.toNat ≤ T / 2 ^ 15 ∧ T / 2 ^ 15 + 1 ≤ s.act.xoff.toNat + n) ∧
  ∀ (s : State) (n : Nat),
    (∀ (w : Nat) (f : Frame), w < 2 * s.act.xoff.toNat → s.xbuf[w]? = some f →
      windowSample s n .left w = f.left.toInt ∧ windowSample s n .right w = f.right.toInt) ∧
    ∀ j : Nat, j < n →
      let word := wordAt s.env.epoch s.latched.mem (0x100000 + 4 * j)
      windowSample s n .left (2 * s.act.xoff.toNat + j : Nat) = (word.extractLsb' 0 16).toInt ∧
        windowSample s n .right (2 * s.act.xoff.toNat + j : Nat) = (word.extractLsb' 16 16).toInt

/-- R205: in a configured machine the wing sums never leave the 32-bit range, and a 48-bit signed accumulator never wraps. R11,
R196: with any parameter choice the spec admits, every datapath value fits the ACC_W-bit accumulator: the biased product of R192,
the partial sums inside a wing, `vL + vR`, the product with LPSCL_EFF, the Fast blend and the quantizer's bias sums. That `Params.wf`
asks for this bound of ACC_W is log entry 1, that a table's entries have Nh bits log entry 19, and that the positions in table and window are no
datapath values log entry 20. -/
def Obligations.AccumulatorNeverWraps : Prop :=
  (∀ (s : State) (tab : Nat → Coefficient) (W : Int → Int) (T : Nat), Inv Config.pfr s → s.ready = true →
    (∀ w, InSampleRange (W w)) → TableInRange tab →
    let sum := wingSum Config.pfr tab s.act W T
    let v := asr sum.v 2 * s.act.lpsclEff.toNat
    sum.ovf = false ∧ |sum.v| ≤ 2139225600 ∧ |v| < 2 ^ 45 ∧ |biasSum v 13| < 2 ^ 46) ∧
  ∀ (P : Params) (s : State) (tab : Nat → Coefficient) (W : Int → Int) (T : Nat), P.wf = true → ReadyOk P s → RecordOk P s →
    (∀ w, P.sampleMin ≤ W w ∧ W w ≤ P.sampleMax) →
    (∀ h, -2 ^ (P.nh - 1) ≤ (tab h).imp ∧ (tab h).imp < 2 ^ (P.nh - 1) ∧
      -2 ^ (P.nh - 1) ≤ (tab h).impd ∧ (tab h).impd < 2 ^ (P.nh - 1)) →
    let interp := s.act.interpAct
    let sum := wingSum P tab s.act W T
    let product := asr sum.v P.nhg * s.act.lpsclEff.toNat
    let blend := fastBlend P (W (T / 2 ^ P.np : Nat)) (W ((T / 2 ^ P.np : Nat) + 1)) (T % 2 ^ P.np)
    let fits := fun v : Int => |v| < 2 ^ (P.accW - 1)
    (∀ (h a : Nat) (w : Int), a < 2 ^ P.na →
      let t := coef P interp (tab h) a * W w
      fits t ∧ fits (t + 2 ^ (P.nhxn - 1))) ∧
    (∀ (side : Wing) (n0 : Int) (ph m : Nat),
      let h0 := firstEntryUp P side ph
      let ho := fun j : Nat => firstPositionUD P s.act.dhb.toNat side ph + s.act.dhb.toNat * j
      let last := side.endOf s.act.nwingAct.toNat
      (s.act.mode = .upOnly → m ≤ ceilDiv (last - h0) P.npc →
        fits (∑ j ∈ Finset.range m,
          roundProd P (coef P interp (tab (h0 + P.npc * j)) (tapFraction P interp ph)) (W (n0 + side.inc * j)))) ∧
      (s.act.mode = .upDown → m ≤ ceilDiv (last * 2 ^ P.na - ho 0) s.act.dhb.toNat →
        fits (∑ j ∈ Finset.range m,
          roundProd P (coef P interp (tab (ho j / 2 ^ P.na)) (tapFraction P interp (ho j))) (W (n0 + side.inc * j))))) ∧
    fits sum.v ∧ fits product ∧ fits (biasSum product P.nlpscl) ∧ fits blend ∧ fits (biasSum blend P.np)

/-- R115, R203: with LPSCL_EFF = 0 every FIR output is 0. -/
def Obligations.ZeroGainIsSilent : Prop :=
  ∀ (tab : Nat → Coefficient) (act : ActiveConfig) (W : Int → Int) (T : Nat), act.mode ≠ .fast → act.lpsclEff = 0 →
    (kernelOut Config.pfr tab act W T).v = 0

/-! ## PROCESS -/

/-- R163, R166, R153: PROCESS completes; OUT_COUNT, NCREEP, TFRAC and XBUF take the values of the rules. XBUF takes IN as it stood
at acceptance, also after a broken duty (log entry 9, DEDUCED), and its length is the model's (log entry 6). -/
def Obligations.ProcessCarriesPositionAndHistory : Prop :=
  ∀ (s : State) (n k : Nat), Inv Config.pfr s → BlockFits s n →
    let t0 := (s.pos.ncreep.toNat + s.act.xoff.toNat) * 2 ^ 15 + s.pos.tfrac.toNat
    let tend := t0 + k * s.act.dtb.toNat
    LoopCount t0 ((s.act.xoff.toNat + n) * 2 ^ 15) s.act.dtb.toNat k → k ≤ 262144 →
    ∃ t, exec .process s = .next t ∧ t.err = .none ∧ t.busy = false ∧ t.outCount.toNat = k ∧
      t.pos.ncreep.toNat + (s.act.xoff.toNat + n) = tend / 2 ^ 15 ∧ t.pos.tfrac.toNat = tend % 2 ^ 15 ∧
      t.xbuf.length = 2 * s.act.xoff.toNat ∧
      ∀ j, j < 2 * s.act.xoff.toNat → t.xbuf[j]? = some (inFrame s (n - 2 * s.act.xoff.toNat + j))

/-- R69, R64, R163: a successful PROCESS writes OUT frames `0 .. K-1`, each the kernel's pair of outputs at its time, and no
other byte of memory; a failing one writes none. -/
def Obligations.ProcessWritesItsOutputsOnly : Prop :=
  (∀ (s : State) (n k : Nat), Inv Config.pfr s → BlockFits s n → s.env.hazard = false →
    LoopCount (startTime Config.pfr s) (endTime Config.pfr s n) s.act.dtb.toNat k → k ≤ 262144 →
    ∃ t, exec .process s = .next t ∧ t.err = .none ∧
      (∀ j, j < k →
        let y := fun c => (kernelOut Config.pfr (tableEntry s) s.act (windowSample s n c)
          (startTime Config.pfr s + j * s.act.dtb.toNat)).v
        wordAt t.env.epoch t.mem (0x200000 + 4 * j) = BitVec.ofInt 16 (y .right) ++ BitVec.ofInt 16 (y .left)) ∧
      ∀ a, a < 0x200000 ∨ 0x200000 + 4 * k ≤ a → byteAt t.env.epoch t.mem a = byteAt s.env.epoch s.mem a) ∧
  ∀ s t : State, exec .process s = .next t → t.err ≠ .none → t.mem = s.mem

/-- PROCESS's frame, and ACC_OVF (R27, R196): set when a monitor point of an output left the 32-bit range, never cleared. ACC_OVF is
as the IN of the acceptance gives it, also after a broken duty (U5; log entry 9, DEDUCED), and counts the quantizer's bias sum (log
entry 17, DEDUCED); the kept pending OP and host queue are log entries 11 and 2. -/
def Obligations.ProcessFrame : Prop :=
  ∀ (s : State) (n k : Nat), Inv Config.pfr s → BlockFits s n →
    LoopCount (startTime Config.pfr s) (endTime Config.pfr s n) s.act.dtb.toNat k → k ≤ 262144 →
    ∃ t, exec .process s = .next t ∧ t.err = .none ∧ t.regs = s.regs ∧ t.ready = true ∧ t.lastOp = s.lastOp ∧ t.act = s.act ∧
      t.pending = s.pending ∧ t.latched = s.latched ∧ t.sticky.overrun = s.sticky.overrun ∧
      t.sticky.ctabWlock = s.sticky.ctabWlock ∧ t.env.host = s.env.host ∧ t.env.rdata = s.env.rdata ∧
      (t.sticky.accOvf = true ↔ s.sticky.accOvf = true ∨ ∃ j c, j < k ∧
        (kernelOut Config.pfr (tableEntry s) s.act (windowSample s n c)
          (startTime Config.pfr s + j * s.act.dtb.toNat)).ovf = true)

/-- R163, R167: a block that fits gives at least one output, and leaves a creep count within `(dtb-1) >> Np <= 2*Xoff`; the creep is
0 whenever `dtb <= 2^Np`. R172: a fresh stream's first block of `n` frames gives `ceil(n * 2^Np / dtb)` outputs. -/
def Obligations.OutputCountAndCreepBounds : Prop :=
  ∀ (s : State) (n : Nat), Inv Config.pfr s → BlockFits s n →
    1 ≤ outputCount Config.pfr s n ∧ endTime Config.pfr s n ≤ finalTime Config.pfr s n ∧
      finalTime Config.pfr s n < endTime Config.pfr s n + s.act.dtb.toNat ∧
      (nextPosition Config.pfr s n).ncreep.toNat = (finalTime Config.pfr s n - endTime Config.pfr s n) / 2 ^ 15 ∧
      (nextPosition Config.pfr s n).ncreep.toNat ≤ (s.act.dtb.toNat - 1) / 2 ^ 15 ∧
      (nextPosition Config.pfr s n).ncreep.toNat ≤ 2 * s.act.xoff.toNat ∧
      (s.act.dtb.toNat ≤ 2 ^ 15 → (nextPosition Config.pfr s n).ncreep = 0) ∧
      (s.pos.ncreep = 0 → s.pos.tfrac = 0 → (outputCount Config.pfr s n : ℤ) = ⌈((n : ℚ) * 2 ^ 15) / s.act.dtb.toNat⌉)

/-- R171, R181: Basic at `f = 1` on a fresh stream copies the block, delayed by `Xoff` frames, after `Xoff` zero frames. -/
def Obligations.UnityFastIsDelayedIdentity : Prop :=
  ∀ (s : State) (n : Nat), Inv Config.pfr s → BlockFits s n → s.env.hazard = false → s.act.mode = .fast →
    s.act.dtb.toNat = 2 ^ 15 → s.pos.ncreep = 0 → s.pos.tfrac = 0 →
    s.xbuf = List.replicate (2 * s.act.xoff.toNat) { left := 0, right := 0 } →
    ∃ t, exec .process s = .next t ∧ t.err = .none ∧ t.outCount.toNat = n ∧
      ∀ j, j < n → wordAt t.env.epoch t.mem (0x200000 + 4 * j) =
        if j < s.act.xoff.toNat then 0#32
        else wordAt s.env.epoch s.latched.mem (0x100000 + 4 * (j - s.act.xoff.toNat))

/-- R170, R172, R173 c: PROCESS of a block and then of another gives word for word what one PROCESS of the two blocks together
gives, and leaves the same history and position. `sa` runs the first block, `sb` the second on what `sa` left, `sw` both. -/
def Obligations.BlockSplitInvariance : Prop :=
  ∀ (sa sb sw ta tb tw : State) (n m : Nat), Inv Config.pfr sa → BlockFits sa n → BlockFits sb m → BlockFits sw (n + m) →
    sa.env.hazard = false → sb.env.hazard = false → sw.env.hazard = false →
    sw.act = sa.act → sw.pos = sa.pos → sw.xbuf = sa.xbuf →
    (∀ f, f < n → inFrame sw f = inFrame sa f) → (∀ f, f < m → inFrame sw (n + f) = inFrame sb f) →
    (∀ h, h < sa.act.nwingAct.toNat → tableEntry sb h = tableEntry sa h ∧ tableEntry sw h = tableEntry sa h) →
    exec .process sa = .next ta → ta.err = .none → sb.act = ta.act → sb.pos = ta.pos → sb.xbuf = ta.xbuf →
    exec .process sb = .next tb → tb.err = .none → exec .process sw = .next tw → tw.err = .none →
    tw.outCount.toNat = ta.outCount.toNat + tb.outCount.toNat ∧
      (∀ j, j < ta.outCount.toNat →
        wordAt tw.env.epoch tw.mem (outAddr j) = wordAt ta.env.epoch ta.mem (outAddr j)) ∧
      (∀ j, j < tb.outCount.toNat →
        wordAt tw.env.epoch tw.mem (outAddr (ta.outCount.toNat + j)) = wordAt tb.env.epoch tb.mem (outAddr j)) ∧
      tw.pos = tb.pos ∧ tw.xbuf = tb.xbuf

/-- R290 (b), U5: what PROCESS leaves in registers, XBUF, position and flags does not depend on memory as it stands at completion
nor on a broken duty, and it changes no byte outside the OUT words it produces: only OUT words and the model's own fields may differ
(log entries 8, 9). -/
def Obligations.BrokenDutyReachesOutWordsOnly : Prop :=
  ∀ (s : State) (m : Memory) (e : Env), e.epoch = s.env.epoch →
    ∃ t t', exec .process s = .next t ∧ exec .process { s with mem := m, env := e } = .next t' ∧
      t' = { t with mem := t'.mem, env := t'.env } ∧ t'.env = { e with free := t'.env.free } ∧
      ∀ x, x < 0x200000 ∨ 0x200000 + 4 * outputCount Config.pfr s s.latched.inCount.toNat ≤ x →
        byteAt t'.env.epoch t'.mem x = byteAt e.epoch m x

/-! ## FLUSH and DESTROY -/

/-- R240: FLUSH completes: XBUF, NCREEP, TFRAC and OUT_COUNT zeroed, everything else kept. -/
def Obligations.FlushCompletes : Prop :=
  ∀ s : State,
    (s.ready = true → exec .flush s = .next
      { s with
        busy := false, err := .none, xbuf := List.replicate (2 * s.act.xoff.toNat) { left := 0, right := 0 }
        pos := { ncreep := 0, tfrac := 0 }, outCount := 0 }) ∧
    (s.ready = false → exec .flush s = .next { s with busy := false, err := .state })

/-- R243: DESTROY completes: UNCONFIGURED, every derived register 0, TSEL NONE; the sticky flags, the host's registers and every
byte of memory are kept. -/
def Obligations.DestroyCompletes : Prop :=
  ∀ s : State,
    (s.ready = true → ∃ x, exec .destroy s = .next
      { s with
        ready := false, busy := false, err := .none
        act :=
          { mode := .fast, interpAct := false, tsel := .none, lpsclRaw := 0, xoff := 0, dtb := 0, dhb := 0, lpsclEff := 0,
            nwingAct := 0, nmultAct := 0 }
        pos := { ncreep := 0, tfrac := 0 }, outCount := 0, xbuf := x }) ∧
    (s.ready = false → exec .destroy s = .next { s with busy := false, err := .state })

/-- R169, R173 a: after FLUSH the stream state equals the one a successful CREATE of the same configuration leaves. -/
def Obligations.FlushEqualsFreshCreate : Prop :=
  ∀ s c p : State, exec .create s = .next c → c.err = .none → p.ready = true → p.act = c.act →
    ∃ t, exec .flush p = .next t ∧ t.err = .none ∧ t.ready = c.ready ∧ t.act = c.act ∧ t.xbuf = c.xbuf ∧ t.pos = c.pos ∧
      t.outCount = c.outCount

/-! ## Whole-machine rules -/

/-- R27: what sets each sticky flag, and that only hardware reset and a successful CREATE clear one. -/
def Obligations.StickyFlagEvents : Prop :=
  ∀ s t : State, step s = .next t →
    (t.sticky.accOvf = true → s.sticky.accOvf = false →
      nextMove s = .engine ∧ s.pending = 0x2#4 ∧ s.ready = true ∧ t.err = .none) ∧
    (t.sticky.overrun = true → s.sticky.overrun = false → s.busy = true ∧ ∃ d rest, nextMove s = .host (.write 0#22 d) rest) ∧
    (t.sticky.ctabWlock = true → s.sticky.ctabWlock = false →
      (s.ready = true ∨ s.busy = true) ∧ ∃ a d rest, nextMove s = .host (.write a d) rest ∧ a.toNat % 4 = 0 ∧
        0x010000 ≤ a.toNat ∧ a.toNat < 0x010000 + 4 * 16384) ∧
    ((s.sticky.accOvf = true ∧ t.sticky.accOvf = false) ∨ (s.sticky.overrun = true ∧ t.sticky.overrun = false) ∨
      (s.sticky.ctabWlock = true ∧ t.sticky.ctabWlock = false) →
      (∃ rest, nextMove s = .host .reset rest) ∨
        (nextMove s = .engine ∧ s.pending = 0x1#4 ∧ s.ready = false ∧ t.err = .none))

/-- The configuration, the position, OUT_COUNT, XBUF and READY change only when the engine completes a command or at reset: no
bus transaction reaches them (R24, R31 to R33, R38). -/
def Obligations.OnlyCommandsChangeTheConfiguration : Prop :=
  ∀ s t : State, step s = .next t → nextMove s ≠ .engine → (∀ rest, nextMove s ≠ .host .reset rest) →
    t.ready = s.ready ∧ t.act = s.act ∧ t.pos = s.pos ∧ t.outCount = s.outCount ∧ t.xbuf = s.xbuf

/-- The invariant of R40 holds right after reset. -/
def Obligations.ResetMeetsInvariant : Prop := Inv Config.pfr State.reset

/-- Every step keeps the invariant of R40 (with the canonical form of memory, XBUF's length and CREATE's checks), whatever the
host does. -/
def Obligations.StepKeepsInvariant : Prop :=
  ∀ s t : State, Inv Config.pfr s → step s = .next t → Inv Config.pfr t

/-- R250: from a state that meets the invariant no run ever stops. -/
def Obligations.RunsNeverStop : Prop := ∀ s : State, Inv Config.pfr s → SafeFrom s

/-! ## FIR output -/

/-- R200, R203: in UpOnly and UpDown the kernel output is `Q(asr(vL + vR, Nhg) * LPSCL_EFF, NLpScl)`, with `vL` the left wing from
frame `n` at phase `PhL` and `vR` the right wing from frame `n + 1` at phase `PhR`; it records an overflow exactly when a wing does
or `vL + vR`, the product or the quantizer's bias sum leaves the 32-bit range (R196; the bias sum: log entry 17, DEDUCED). -/
def Obligations.FirOutputScalesBothWings : Prop :=
  ∀ (tab : Nat → Coefficient) (act : ActiveConfig) (W : Int → Int) (T : Nat), act.mode ≠ .fast →
    let n : Int := (T / 2 ^ 15 : Nat)
    let phL := T % 2 ^ 15
    let phR := ((-(T : Int)) % 2 ^ 15).toNat
    let wingOf := fun (side : Wing) (n0 : Int) (ph : Nat) =>
      if act.mode = .upOnly then wingUp Config.pfr tab act W side n0 ph else wingUD Config.pfr tab act W side n0 ph
    let vL := wingOf .left n phL
    let vR := wingOf .right (n + 1) phR
    let product := ⌊((vL.v + vR.v : Int) : ℚ) / 2 ^ 2⌋ * (act.lpsclEff.toNat : Int)
    let y := kernelOut Config.pfr tab act W T
    y.v = quantize Config.pfr product 13 ∧
      (y.ovf = true ↔ vL.ovf = true ∨ vR.ovf = true ∨ Leaves32 (vL.v + vR.v) ∨ Leaves32 product ∨ Leaves32 (product + 2 ^ 12))
end

