-- ==== Sys2Proof/Laws/Config.lean ====
section
/-! SUPPORT. Laws/Config.lean: the default parameters as literals (R9, R11), and the built-in tables' headers (R12,
R110). -/

namespace Sys2Proof.Config

@[simp] theorem pfr_np : pfr.np = 15 := rfl
@[simp] theorem pfr_na : pfr.na = 7 := rfl
@[simp] theorem pfr_nhc : pfr.nhc = 8 := rfl
@[simp] theorem pfr_nhxn : pfr.nhxn = 14 := rfl
@[simp] theorem pfr_nhg : pfr.nhg = 2 := rfl
@[simp] theorem pfr_nlpscl : pfr.nlpscl = 13 := rfl
@[simp] theorem pfr_npc : pfr.npc = 256 := rfl
@[simp] theorem pfr_xbufFramesMax : pfr.xbufFramesMax = 16384 := rfl
@[simp] theorem pfr_ctabDepth : pfr.ctabDepth = 16384 := rfl
@[simp] theorem pfr_inFramesMax : pfr.inFramesMax = 65536 := rfl
@[simp] theorem pfr_outFramesMax : pfr.outFramesMax = 262144 := rfl
@[simp] theorem pfr_accW : pfr.accW = 48 := rfl
@[simp] theorem pfr_nb : pfr.nb = 16 := rfl
@[simp] theorem pfr_sampleMax : pfr.sampleMax = 32767 := rfl
@[simp] theorem pfr_sampleMin : pfr.sampleMin = -32768 := rfl

/-- The defaults are a parameter choice the spec admits (R9, R11, R62, R205). -/
theorem pfr_wf : pfr.wf = true := by decide +kernel

end Sys2Proof.Config

namespace Sys2Proof.TableHeader

theorem wf_iff (P : Params) (t : TableHeader) :
    t.wf P = true ↔ 1 ≤ t.nwing.toNat ∧ t.nwing.toNat ≤ P.ctabDepth ∧ t.lpscl ≠ 0 := by
  simp [wf, and_assoc]

/-- A header made legal meets the invariants of R110 and the checks of R117. -/
theorem legal_wf {P : Params} (h : 1 ≤ P.ctabDepth) (raw : TableHeader) : (legal P raw).wf P = true := by
  have hm : raw.nwing.toNat % min P.ctabDepth 65535 < min P.ctabDepth 65535 := Nat.mod_lt _ (by omega)
  rw [wf_iff]
  refine ⟨?_, ?_, ?_⟩
  · simp only [legal, BitVec.toNat_ofNat]
    rw [Nat.mod_eq_of_lt (by omega)]
    omega
  · simp only [legal, BitVec.toNat_ofNat]
    rw [Nat.mod_eq_of_lt (by omega)]
    omega
  · simp only [legal]
    split
    · decide
    · assumption

/-- Making a header legal shuts no legal header out. -/
theorem exists_legal_eq {P : Params} {t : TableHeader} (h : t.wf P = true) : ∃ raw, legal P raw = t := by
  obtain ⟨h1, h2, h3⟩ := (wf_iff P t).1 h
  have ht := t.nwing.isLt
  refine ⟨{ nwing := BitVec.ofNat 16 (t.nwing.toNat - 1), nmult := t.nmult, lpscl := t.lpscl }, ?_⟩
  obtain ⟨nwing, nmult, lpscl⟩ := t
  simp only [legal, mk.injEq, true_and, BitVec.toNat_ofNat]
  simp only at h1 h2 h3 ht
  refine ⟨BitVec.eq_of_toNat_eq ?_, if_neg h3⟩
  rw [Nat.mod_eq_of_lt (by omega : nwing.toNat - 1 < 2 ^ 16), Nat.mod_eq_of_lt (by omega : nwing.toNat - 1 < min P.ctabDepth 65535),
    BitVec.toNat_ofNat, Nat.mod_eq_of_lt (by omega)]
  omega

end Sys2Proof.TableHeader
end

