-- ==== Sys2Proof/Laws/Kernels.lean ====
section
/-! SUPPORT. Laws/Kernels.lean: which window frames and table entries a kernel reads (R190, R204), that a kernel follows its window
when both are shifted by whole frames (R170), and the loops' independence of their fuel. -/

namespace Sys2Proof.Machine

variable {P : Params}

/-! ## Rounding up (R15) -/

theorem lt_ceilDiv_iff {a b j : Nat} (hb : 0 < b) : j < ceilDiv a b ↔ j * b < a := by
  unfold ceilDiv
  rw [Nat.lt_iff_add_one_le, Nat.le_div_iff_mul_le hb, Nat.add_mul, Nat.one_mul]
  omega

theorem ceilDiv_le_iff {a b j : Nat} (hb : 0 < b) : ceilDiv a b ≤ j ↔ a ≤ j * b := by
  have := lt_ceilDiv_iff (a := a) (j := j) hb
  omega

theorem ceilDiv_mono {a a' b : Nat} (hb : 0 < b) (h : a ≤ a') : ceilDiv a b ≤ ceilDiv a' b := by
  rw [ceilDiv_le_iff hb]
  exact h.trans ((ceilDiv_le_iff hb).1 le_rfl)

/-! ## Shifting and clamping (R15, R140) -/

/-- `asr` as the rational floor of R15. -/
theorem asr_eq_floor (x : Int) (k : Nat) : asr x k = ⌊(x : ℚ) / 2 ^ k⌋ := by
  have h : (x : ℚ) / 2 ^ k = (x : ℚ) / ((2 ^ k : ℕ) : ℚ) := by push_cast; rfl
  rw [h, Rat.floor_intCast_div_natCast]
  simp [asr]

/-- The quantizer at the default sample width (R140). -/
theorem quantize_pfr (v : Int) (scl : Nat) :
    quantize Config.pfr v scl = min 32767 (max (-32768) (asr (biasSum v scl) scl)) := rfl

theorem ovf32_iff (x : Int) : ovf32 x = true ↔ x < -2147483648 ∨ 2147483647 < x := by simp [ovf32]

/-! ## What the loops read -/

/-- The UpOnly loop reads entry `h + j*Npc` and frame `w + inc*j` of tap `j`, and only while that entry lies below `End`. -/
theorem wingUpLoop_congr {tab tab' : Nat → Coefficient} {interp : Bool} {W W' : Int → Int} {inc : Int} {last a : Nat}
    (fuel h : Nat) (w : Int) (acc : Monitored)
    (hW : ∀ j : Nat, h + j * P.npc < last → W (w + inc * j) = W' (w + inc * j))
    (ht : ∀ j : Nat, h + j * P.npc < last →
      coef P interp (tab (h + j * P.npc)) a = coef P interp (tab' (h + j * P.npc)) a) :
    wingUpLoop P tab interp W inc last a fuel h w acc = wingUpLoop P tab' interp W' inc last a fuel h w acc := by
  induction fuel generalizing h w acc with
  | zero => rfl
  | succ fuel ih =>
    simp only [wingUpLoop]
    split
    · rename_i hl
      have h0 := hW 0 (by simpa using hl)
      have t0 := ht 0 (by simpa using hl)
      simp only [Nat.cast_zero, mul_zero, add_zero, zero_mul] at h0 t0
      rw [h0, t0]
      refine ih _ _ _ (fun j hj => ?_) (fun j hj => ?_)
      · have := hW (j + 1) (by rw [Nat.add_mul]; omega)
        have e : w + inc * ((j + 1 : ℕ) : ℤ) = w + inc + inc * j := by push_cast; ring
        rwa [e] at this
      · have := ht (j + 1) (by rw [Nat.add_mul]; omega)
        have e : h + (j + 1) * P.npc = h + P.npc + j * P.npc := by ring
        rwa [e] at this
    · rfl

/-- The UpDown loop reads entry `(Ho + j*dhb) >> Na` and frame `w + inc*j` of tap `j`, and only while that entry lies below
`End`. -/
theorem wingUDLoop_congr {tab tab' : Nat → Coefficient} {interp : Bool} {W W' : Int → Int} {inc : Int} {last dhb : Nat}
    (fuel ho : Nat) (w : Int) (acc : Monitored)
    (hW : ∀ j : Nat, (ho + j * dhb) / 2 ^ P.na < last → W (w + inc * j) = W' (w + inc * j))
    (ht : ∀ h : Nat, h < last → ∀ a, coef P interp (tab h) a = coef P interp (tab' h) a) :
    wingUDLoop P tab interp W inc last dhb fuel ho w acc = wingUDLoop P tab' interp W' inc last dhb fuel ho w acc := by
  induction fuel generalizing ho w acc with
  | zero => rfl
  | succ fuel ih =>
    simp only [wingUDLoop]
    split
    · rename_i hl
      have h0 := hW 0 (by simpa using hl)
      simp only [Nat.cast_zero, mul_zero, add_zero] at h0
      rw [h0, ht _ hl]
      refine ih _ _ _ (fun j hj => ?_)
      have := hW (j + 1) (by
        have e : ho + (j + 1) * dhb = ho + dhb + j * dhb := by ring
        rwa [e])
      have e : w + inc * ((j + 1 : ℕ) : ℤ) = w + inc + inc * j := by push_cast; ring
      rwa [e] at this
    · rfl

/-- The two tables give the same coefficients at the entries below `n` (R190). -/
def SameCoefficients (P : Params) (interp : Bool) (n : Nat) (tab tab' : Nat → Coefficient) : Prop :=
  ∀ h : Nat, h < n → ∀ a, coef P interp (tab h) a = coef P interp (tab' h) a

theorem endOf_le (n : Nat) (side : Wing) : side.endOf n ≤ n := by cases side <;> simp [Wing.endOf]

/-- Taps of a wing are counted from its end (R204). -/
theorem wingUp_congr {tab tab' : Nat → Coefficient} {act : ActiveConfig} {W W' : Int → Int} {side : Wing} {n0 : Int} {ph : Nat}
    (hW : ∀ j : Nat, j * P.npc < side.endOf act.nwingAct.toNat → W (n0 + side.inc * j) = W' (n0 + side.inc * j))
    (ht : SameCoefficients P act.interpAct act.nwingAct.toNat tab tab') :
    wingUp P tab act W side n0 ph = wingUp P tab' act W' side n0 ph := by
  refine wingUpLoop_congr _ _ _ _ (fun j hj => hW j ?_) (fun j hj => ht _ ?_ _)
  · omega
  · have := endOf_le act.nwingAct.toNat side
    omega

theorem wingUD_congr {tab tab' : Nat → Coefficient} {act : ActiveConfig} {W W' : Int → Int} {side : Wing} {n0 : Int} {ph : Nat}
    (hW : ∀ j : Nat, j * act.dhb.toNat < side.endOf act.nwingAct.toNat * 2 ^ P.na →
      W (n0 + side.inc * j) = W' (n0 + side.inc * j))
    (ht : SameCoefficients P act.interpAct act.nwingAct.toNat tab tab') :
    wingUD P tab act W side n0 ph = wingUD P tab' act W' side n0 ph := by
  refine wingUDLoop_congr _ _ _ _ (fun j hj => hW j ?_) (fun h hh a => ht h (lt_of_lt_of_le hh (endOf_le _ side)) a)
  have := (Nat.div_lt_iff_lt_mul (Nat.two_pow_pos P.na)).1 hj
  omega

/-- The most taps of one wing in a FIR mode (R118). -/
def maxTaps (P : Params) (act : ActiveConfig) : Wing → Nat
  | .left => lmaxOf P act.mode act.nwingAct.toNat act.dhb.toNat
  | .right => rmaxOf P act.mode act.nwingAct.toNat act.dhb.toNat

/-- A wing reads at most `Lmax` (`Rmax`) frames from its start on (R204), and table entries below `Nwing` (R190). -/
theorem wing_congr {tab tab' : Nat → Coefficient} {act : ActiveConfig} {W W' : Int → Int} {side : Wing} {n0 : Int} {ph : Nat}
    (hd : act.mode = .upDown → 1 ≤ act.dhb.toNat)
    (hW : ∀ j : Nat, j < maxTaps P act side → W (n0 + side.inc * j) = W' (n0 + side.inc * j))
    (ht : SameCoefficients P act.interpAct act.nwingAct.toNat tab tab') :
    wing P tab act W side n0 ph = wing P tab' act W' side n0 ph := by
  unfold wing
  cases hm : act.mode with
  | fast => rfl
  | upOnly =>
    refine wingUp_congr (fun j hj => hW j ?_) ht
    have hn : 0 < P.npc := Nat.two_pow_pos _
    cases side <;> simpa [maxTaps, hm, lmaxOf, rmaxOf, lt_ceilDiv_iff hn, Wing.endOf] using hj
  | upDown =>
    refine wingUD_congr (fun j hj => hW j ?_) ht
    have hn : 0 < act.dhb.toNat := hd hm
    cases side <;> simpa [maxTaps, hm, lmaxOf, rmaxOf, lt_ceilDiv_iff hn, Wing.endOf] using hj

/-- What a kernel reads of its window: at most `Lmax` frames up to the output's frame `n`, and `Rmax` after it. -/
theorem kernelOut_congr {tab tab' : Nat → Coefficient} {act : ActiveConfig} {W W' : Int → Int} {T : Nat}
    (hd : act.mode = .upDown → 1 ≤ act.dhb.toNat)
    (hl : ∀ j : Nat, j < maxTaps P act .left →
      W ((T / 2 ^ P.np : Nat) - j) = W' ((T / 2 ^ P.np : Nat) - j))
    (hr : ∀ j : Nat, j < maxTaps P act .right →
      W ((T / 2 ^ P.np : Nat) + 1 + j) = W' ((T / 2 ^ P.np : Nat) + 1 + j))
    (ht : SameCoefficients P act.interpAct act.nwingAct.toNat tab tab') :
    kernelOut P tab act W T = kernelOut P tab' act W' T := by
  have hfir : firKernel P tab act W T = firKernel P tab' act W' T := by
    have h1 : wing P tab act W .left (T / 2 ^ P.np : Nat) (phaseOf P T .left) =
        wing P tab' act W' .left (T / 2 ^ P.np : Nat) (phaseOf P T .left) :=
      wing_congr hd (fun j hj => by simpa [Wing.inc, sub_eq_add_neg] using hl j hj) ht
    have h2 : wing P tab act W .right ((T / 2 ^ P.np : Nat) + 1) (phaseOf P T .right) =
        wing P tab' act W' .right ((T / 2 ^ P.np : Nat) + 1) (phaseOf P T .right) :=
      wing_congr hd (fun j hj => by simpa [Wing.inc] using hr j hj) ht
    simp only [firKernel, wingSum, h1, h2]
  unfold kernelOut
  cases hm : act.mode with
  | fast =>
    have h1 := hl 0 (by simp [maxTaps, hm, lmaxOf])
    have h2 := hr 0 (by simp [maxTaps, hm, rmaxOf])
    simp only [Nat.cast_zero, sub_zero, add_zero] at h1 h2
    simp only [fastKernel, h1, h2]
  | upOnly => exact hfir
  | upDown => exact hfir

/-! ## Shifting the window -/

theorem wingUpLoop_shift {tab : Nat → Coefficient} {interp : Bool} {W : Int → Int} {inc : Int} {last a : Nat} (d : Int)
    (fuel h : Nat) (w : Int) (acc : Monitored) :
    wingUpLoop P tab interp (fun x => W (x + d)) inc last a fuel h w acc =
      wingUpLoop P tab interp W inc last a fuel h (w + d) acc := by
  induction fuel generalizing h w acc with
  | zero => rfl
  | succ fuel ih =>
    simp only [wingUpLoop]
    split
    · rw [ih]; congr 1; ring
    · rfl

theorem wingUDLoop_shift {tab : Nat → Coefficient} {interp : Bool} {W : Int → Int} {inc : Int} {last dhb : Nat} (d : Int)
    (fuel ho : Nat) (w : Int) (acc : Monitored) :
    wingUDLoop P tab interp (fun x => W (x + d)) inc last dhb fuel ho w acc =
      wingUDLoop P tab interp W inc last dhb fuel ho (w + d) acc := by
  induction fuel generalizing ho w acc with
  | zero => rfl
  | succ fuel ih =>
    simp only [wingUDLoop]
    split
    · rw [ih]; congr 1; ring
    · rfl

theorem wing_shift {tab : Nat → Coefficient} {act : ActiveConfig} {W : Int → Int} (d : Int) (side : Wing) (n0 : Int) (ph : Nat) :
    wing P tab act (fun x => W (x + d)) side n0 ph = wing P tab act W side (n0 + d) ph := by
  unfold wing
  split
  · rfl
  · exact wingUpLoop_shift d _ _ _ _
  · exact wingUDLoop_shift d _ _ _ _

/-- A window shifted by `d` frames, read at `T`, is the window itself read `d` frames later (R170). -/
theorem kernelOut_shift {tab : Nat → Coefficient} {act : ActiveConfig} {W : Int → Int} (d T : Nat) :
    kernelOut P tab act (fun x => W (x + d)) T = kernelOut P tab act W (T + d * 2 ^ P.np) := by
  have hp : 0 < 2 ^ P.np := Nat.two_pow_pos _
  have hq : (T + d * 2 ^ P.np) / 2 ^ P.np = T / 2 ^ P.np + d := Nat.add_mul_div_right _ _ hp
  have hm : (T + d * 2 ^ P.np) % 2 ^ P.np = T % 2 ^ P.np := Nat.add_mul_mod_self_right _ _ _
  have ha : ((T / 2 ^ P.np : ℕ) : ℤ) + 1 + (d : ℤ) = ((T / 2 ^ P.np + d : ℕ) : ℤ) + 1 := by push_cast; ring
  have hb : ((T / 2 ^ P.np : ℕ) : ℤ) + (d : ℤ) = ((T / 2 ^ P.np + d : ℕ) : ℤ) := by push_cast; ring
  have hph : ∀ side, phaseOf P (T + d * 2 ^ P.np) side = phaseOf P T side := by
    intro side; cases side <;> simp only [phaseOf, hm]
  have hfir : firKernel P tab act (fun x => W (x + d)) T = firKernel P tab act W (T + d * 2 ^ P.np) := by
    simp only [firKernel, wingSum, wing_shift, hq, hph, ha, hb]
  unfold kernelOut
  split
  · simp only [fastKernel, hq, hm, ha, hb]
  · exact hfir
  · exact hfir

end Sys2Proof.Machine
end

