-- ==== Sys2Proof/Laws/Derivation.lean ====
section
/-! SUPPORT. Laws/Derivation.lean: CREATE's checks as propositions (R117 to R120), and the rounding of R15. -/

namespace Sys2Proof.Machine

/-! ## The checks -/

theorem customIllegal_iff (P : Params) (t : TableHeader) :
    customIllegal P t = true ↔ t.nwing.toNat < 1 ∨ P.ctabDepth < t.nwing.toNat ∨ t.lpscl = 0 := by
  unfold customIllegal
  rw [Bool.or_eq_true, Bool.or_eq_true, decide_eq_true_eq, decide_eq_true_eq, beq_iff_eq, or_assoc]
  rfl

theorem rangeFails_iff (d : Derived) :
    rangeFails d = true ↔ d.dtb < 1 ∨ 2 ^ 32 - 1 < d.dtb ∨ (d.mode = .upDown ∧ d.dhb < 1) ∨ 65535 < d.xoff := by
  unfold rangeFails
  rw [Bool.or_eq_true, Bool.or_eq_true, Bool.or_eq_true, Bool.and_eq_true, decide_eq_true_eq, decide_eq_true_eq,
    decide_eq_true_eq, decide_eq_true_eq, beq_iff_eq, or_assoc, or_assoc]

theorem allocFails_iff (P : Params) (d : Derived) : allocFails P d = true ↔ P.xbufFramesMax < 2 * d.xoff := by
  unfold allocFails
  rw [decide_eq_true_eq]

theorem reachFails_iff (P : Params) (d : Derived) (nwing : Nat) :
    reachFails P d nwing = true ↔ d.xoff + 1 < lmaxOf P d.mode nwing d.dhb ∨ d.xoff < rmaxOf P d.mode nwing d.dhb := by
  unfold reachFails
  rw [Bool.or_eq_true, decide_eq_true_eq, decide_eq_true_eq]

theorem creepFails_iff (P : Params) (d : Derived) : creepFails P d = true ↔ 2 * d.xoff < (d.dtb - 1) / 2 ^ P.np := by
  unfold creepFails
  rw [decide_eq_true_eq]

/-- A configuration passes when each check of R120, R118 and R119 does. -/
theorem failingCheck_eq_none (P : Params) (d : Derived) (nwing : Nat) :
    failingCheck P d nwing = none ↔
      (1 ≤ d.dtb ∧ d.dtb ≤ 2 ^ 32 - 1 ∧ (d.mode = .upDown → 1 ≤ d.dhb) ∧ d.xoff ≤ 65535) ∧ 2 * d.xoff ≤ P.xbufFramesMax ∧
        (lmaxOf P d.mode nwing d.dhb ≤ d.xoff + 1 ∧ rmaxOf P d.mode nwing d.dhb ≤ d.xoff) ∧
        (d.dtb - 1) / 2 ^ P.np ≤ 2 * d.xoff := by
  unfold failingCheck
  have h1 := rangeFails_iff d
  have h2 := allocFails_iff P d
  have h3 := reachFails_iff P d nwing
  have h4 := creepFails_iff P d
  constructor
  · intro h
    split_ifs at h with c1 c2 c3 c4
    rw [h1] at c1; rw [h2] at c2; rw [h3] at c3; rw [h4] at c4
    push Not at c1 c2 c3 c4
    refine ⟨⟨c1.1, c1.2.1, fun hm => ?_, c1.2.2.2⟩, c2, c3, c4⟩
    exact c1.2.2.1 hm
  · rintro ⟨⟨g1, g2, g3, g4⟩, g5, ⟨g6, g7⟩, g8⟩
    rw [if_neg, if_neg, if_neg, if_neg]
    · rw [h4]; omega
    · rw [h3]; omega
    · rw [h2]; omega
    · rw [h1]; push Not
      exact ⟨g1, g2, g3, g4⟩

/-- A custom descriptor is bound when it is declared and legal (R117). -/
theorem selectTable_custom (P : Params) {l : Latched} (hq : l.quality = 3) (hv : l.ctabValid = true)
    (h : ¬ customIllegal P (customHeader l) = true) : selectTable P l = .ok { tsel := .custom, header := customHeader l } := by
  unfold selectTable
  rw [hq]
  change (if l.ctabValid = false then _ else _) = _
  rw [if_neg (by simp [hv]), if_neg h]

/-- What a successful selection bound: no table for Basic, a table with TSEL otherwise (R117). -/
theorem selectTable_ok {P : Params} {l : Latched} {sel : Selection} (h : selectTable P l = .ok sel) :
    (sel = { tsel := .none, header := { nwing := 0, nmult := 0, lpscl := Config.unboundLpscl } }) ∨ sel.tsel ≠ .none := by
  unfold selectTable at h
  split at h
  · cases h; exact .inl rfl
  · cases h; exact .inr (by simp)
  · cases h; exact .inr (by simp)
  · split at h
    · cases h
    · split at h
      · cases h
      · cases h; exact .inr (by simp)
  · cases h

/-- MODE is Fast exactly when no table is bound (R114, R40). -/
theorem selectMode_fast_iff (sel : Selection) (f : Factor) : selectMode sel f = .fast ↔ sel.tsel = .none := by
  unfold selectMode
  split
  · simp [*]
  · split <;> simp [*]

/-! ## Rounding -/

theorem rnd_nonneg {q : ℚ} (h : 0 ≤ q) : 0 ≤ rnd q := Int.floor_nonneg.2 (by linarith)

theorem rnd_le {q : ℚ} {z : ℤ} (h : q ≤ z) : rnd q ≤ z := by
  unfold rnd
  have h1 : q + 1 / 2 < ((z + 1 : ℤ) : ℚ) := by push_cast; linarith
  have := Int.floor_lt.2 h1
  omega

theorem rnd_le_real (q : ℚ) : (rnd q : ℚ) ≤ q + 1 / 2 := Int.floor_le _

end Sys2Proof.Machine
end

