-- ==== Sys2Proof/Laws/Memory.lean ====
section
/-! SUPPORT. Laws/Memory.lean: reading after writing, and the canonical form every write keeps. -/

namespace Sys2Proof.Machine

theorem cellsFrom_keys {a : Nat} {bs : List Byte} {c : Host.Cell} (h : c ∈ cellsFrom a bs) :
    a ≤ c.1 ∧ c.1 < a + bs.length := by
  induction bs generalizing a with
  | nil => simp [cellsFrom] at h
  | cons b bs ih =>
    simp only [cellsFrom, List.mem_cons] at h
    rcases h with rfl | h
    · simp
    · have := ih h
      simp only [List.length_cons]
      omega

theorem cellsFrom_wf (a : Nat) (bs : List Byte) : Memory.wf (cellsFrom a bs) := by
  induction bs generalizing a with
  | nil => simp [cellsFrom]
  | cons b bs ih =>
    refine List.pairwise_cons.2 ⟨fun c h => ?_, ih _⟩
    have := (cellsFrom_keys h).1
    simp only
    omega

/-- Every write keeps the canonical form. -/
theorem Memory.write_wf {m : Memory} (h : m.wf) (a : Nat) (bs : List Byte) : (m.write a bs).wf := by
  have hf : ∀ p : Host.Cell → Bool, (m.filter p).Pairwise (fun c d => c.1 < d.1) := fun p => List.Pairwise.filter p h
  refine List.pairwise_append.2 ⟨List.pairwise_append.2 ⟨hf _, cellsFrom_wf a bs, ?_⟩, hf _, ?_⟩
  · intro c hc d hd
    have h1 : c.1 < a := by simpa using (List.mem_filter.1 hc).2
    have h2 := (cellsFrom_keys hd).1
    omega
  · intro c hc d hd
    have h2 : a + bs.length ≤ d.1 := by simpa using (List.mem_filter.1 hd).2
    rcases List.mem_append.1 hc with hc | hc
    · have h1 : c.1 < a := by simpa using (List.mem_filter.1 hc).2
      omega
    · have h1 := (cellsFrom_keys hc).2
      omega

/-- The cells a write leaves: old ones, or new ones of the written range. -/
theorem Memory.mem_write {m : Memory} {a : Nat} {bs : List Byte} {c : Host.Cell} (h : c ∈ m.write a bs) :
    c ∈ m ∨ (a ≤ c.1 ∧ c.1 < a + bs.length) := by
  simp only [Memory.write, List.mem_append] at h
  rcases h with (h | h) | h
  · exact .inl (List.mem_filter.1 h).1
  · exact .inr (cellsFrom_keys h)
  · exact .inl (List.mem_filter.1 h).1

theorem Memory.read_append (m m' : Memory) (a : Nat) : Memory.read (m ++ m') a = (m.read a).or (Memory.read m' a) := by
  induction m with
  | nil => simp [Memory.read]
  | cons c m ih =>
    simp only [List.cons_append, Memory.read]
    split <;> simp [ih]

theorem Memory.read_filter_of_true (m : Memory) (p : Nat → Bool) (a : Nat) (h : p a = true) :
    Memory.read (m.filter (fun c => p c.1)) a = m.read a := by
  induction m with
  | nil => rfl
  | cons c m ih =>
    by_cases hc : p c.1 = true
    · simp [hc, Memory.read, ih]
    · have : c.1 ≠ a := fun he => hc (he ▸ h)
      simp [hc, Memory.read, ih, this]

theorem Memory.read_filter_of_false (m : Memory) (p : Nat → Bool) (a : Nat) (h : p a = false) :
    Memory.read (m.filter (fun c => p c.1)) a = none := by
  induction m with
  | nil => rfl
  | cons c m ih =>
    by_cases hc : p c.1 = true
    · have : c.1 ≠ a := fun he => by simp [he, h] at hc
      simp [hc, Memory.read, ih, this]
    · simp [hc, ih]

theorem read_cellsFrom (a : Nat) (bs : List Byte) (x : Nat) :
    Memory.read (cellsFrom a bs) x = if a ≤ x then bs[x - a]? else none := by
  induction bs generalizing a with
  | nil => simp [cellsFrom, Memory.read]
  | cons b bs ih =>
    simp only [cellsFrom, Memory.read, ih]
    by_cases h : a = x
    · simp [h]
    · by_cases h2 : a ≤ x
      · have h3 : a + 1 ≤ x := by omega
        have h4 : x - a = (x - (a + 1)) + 1 := by omega
        simp [h, h2, h3, h4]
      · have h3 : ¬ a + 1 ≤ x := by omega
        simp [h, h2, h3]

/-- Reading after a write: the written byte inside the written range, what was there outside it. -/
theorem Memory.read_write (m : Memory) (a : Nat) (bs : List Byte) (x : Nat) :
    (m.write a bs).read x = if a ≤ x ∧ x < a + bs.length then bs[x - a]? else m.read x := by
  have lo := fun h => Memory.read_filter_of_true m (fun k => decide (k < a)) x h
  have lo' := fun h => Memory.read_filter_of_false m (fun k => decide (k < a)) x h
  have hi := fun h => Memory.read_filter_of_true m (fun k => decide (a + bs.length ≤ k)) x h
  have hi' := fun h => Memory.read_filter_of_false m (fun k => decide (a + bs.length ≤ k)) x h
  simp only [Memory.write, Memory.read_append, read_cellsFrom]
  by_cases h1 : x < a
  · rw [lo (by simpa using h1), hi' (by simp; omega)]
    have : ¬ a ≤ x := by omega
    simp [this]
  · by_cases h2 : x < a + bs.length
    · rw [lo' (by simp; omega), hi' (by simp; omega)]
      have : a ≤ x := by omega
      simp [this, h2]
    · rw [lo' (by simp; omega), hi (by simp; omega)]
      have h3 : a ≤ x := by omega
      have h4 : bs[x - a]? = none := List.getElem?_eq_none (by omega)
      simp [h3, h2, h4]

theorem Memory.read_write_outside (m : Memory) (a : Nat) (bs : List Byte) (x : Nat) (h : x < a ∨ a + bs.length ≤ x) :
    (m.write a bs).read x = m.read x := by
  rw [Memory.read_write, if_neg (by omega)]

/-- One byte outside a write reads as before. -/
theorem byteAt_write_outside (e : Nat) (m : Memory) (a : Nat) (bs : List Byte) (x : Nat) (h : x < a ∨ a + bs.length ≤ x) :
    byteAt e (m.write a bs) x = byteAt e m x := by
  simp [byteAt, Memory.read_write_outside m a bs x h]

/-- One byte inside a write reads as written. -/
theorem byteAt_write_inside (e : Nat) (m : Memory) (a : Nat) (bs : List Byte) (j : Nat) (h : j < bs.length) :
    byteAt e (m.write a bs) (a + j) = bs[j] := by
  have hr : a ≤ a + j ∧ a + j < a + bs.length := by omega
  simp [byteAt, Memory.read_write, hr, h]

/-- A whole word outside a write reads as before. -/
theorem wordAt_write_outside (e : Nat) (m : Memory) (a : Nat) (bs : List Byte) (x : Nat)
    (h : x + 4 ≤ a ∨ a + bs.length ≤ x) : wordAt e (m.write a bs) x = wordAt e m x := by
  simp only [wordAt]
  rw [byteAt_write_outside, byteAt_write_outside, byteAt_write_outside, byteAt_write_outside] <;> omega

/-- The bytes of a word make the word (R67). -/
theorem wordOfBytes_bytesOfWord (w : Word) :
    wordOfBytes (w.extractLsb' 0 8) (w.extractLsb' 8 8) (w.extractLsb' 16 8) (w.extractLsb' 24 8) = w := by
  simp only [wordOfBytes]
  ext i hi
  simp only [BitVec.getElem_append, BitVec.getElem_extractLsb']
  repeat' split
  all_goals (rw [BitVec.getLsbD_eq_getElem (by omega)]; congr 1; omega)

@[simp] theorem length_bytesOfWord (w : Word) : (bytesOfWord w).length = 4 := rfl

@[simp] theorem length_bytesOfWords (ws : List Word) : (bytesOfWords ws).length = 4 * ws.length := by
  induction ws with
  | nil => rfl
  | cons w ws ih =>
    have : bytesOfWords (w :: ws) = bytesOfWord w ++ bytesOfWords ws := by simp [bytesOfWords]
    rw [this, List.length_append, ih]
    simp
    omega

/-- A word written reads back (R71). -/
theorem wordAt_write_word (e : Nat) (m : Memory) (a : Nat) (w : Word) : wordAt e (m.write a (bytesOfWord w)) a = w := by
  have h := fun j hj => byteAt_write_inside e m a (bytesOfWord w) j hj
  have h0 := h 0 (by simp)
  have h1 := h 1 (by simp)
  have h2 := h 2 (by simp)
  have h3 := h 3 (by simp)
  simp only [Nat.add_zero] at h0
  simp only [wordAt, h0, h1, h2, h3]
  exact wordOfBytes_bytesOfWord w

theorem getElem?_bytesOfWords (ws : List Word) (k j : Nat) (hj : j < 4) :
    (bytesOfWords ws)[4 * k + j]? = (ws[k]?).bind (fun w => (bytesOfWord w)[j]?) := by
  induction ws generalizing k with
  | nil => simp [bytesOfWords]
  | cons w ws ih =>
    have hb : bytesOfWords (w :: ws) = bytesOfWord w ++ bytesOfWords ws := by simp [bytesOfWords]
    rw [hb]
    cases k with
    | zero => rw [List.getElem?_append_left (by simp; omega)]; simp
    | succ k =>
      rw [List.getElem?_append_right (by simp; omega)]
      have : 4 * (k + 1) + j - (bytesOfWord w).length = 4 * k + j := by simp; omega
      rw [this, ih]
      simp

/-- Word `k` of a list of words written from address `a` on. -/
theorem wordAt_write_words (e : Nat) (m : Memory) (a : Nat) (ws : List Word) (k : Nat) (hk : k < ws.length) :
    wordAt e (m.write a (bytesOfWords ws)) (a + 4 * k) = ws[k] := by
  have key : ∀ j, j < 4 → byteAt e (m.write a (bytesOfWords ws)) (a + 4 * k + j) = ((bytesOfWord ws[k])[j]?).getD 0 := by
    intro j hj
    have hl : 4 * k + j < (bytesOfWords ws).length := by simp; omega
    have h1 := byteAt_write_inside e m a (bytesOfWords ws) (4 * k + j) hl
    have h2 := getElem?_bytesOfWords ws k j hj
    rw [List.getElem?_eq_getElem hl, List.getElem?_eq_getElem hk, Option.bind_some] at h2
    rw [← h2, Option.getD_some, ← h1]
    congr 1
    omega
  have k0 := key 0 (by omega)
  have k1 := key 1 (by omega)
  have k2 := key 2 (by omega)
  have k3 := key 3 (by omega)
  simp only [Nat.add_zero] at k0
  simp only [wordAt, k0, k1, k2, k3]
  exact wordOfBytes_bytesOfWord ws[k]

end Sys2Proof.Machine
end

