-- ==== Sys2Proof/Laws/HostPort.lean ====
section
/-! SUPPORT. Laws/HostPort.lean: which offset reaches what (R24, R61 to R63), and what bus transactions leave of memory. -/

namespace Sys2Proof.Machine

/-! ## The CSR window -/

theorem regAt_regOffset (r : Reg) : regAt (regOffset r) = some r := by cases r <;> rfl

/-- R24: a register is reached at its offset and nowhere else. -/
theorem regAt_eq_some {a : Nat} {r : Reg} (h : regAt a = some r) : a = regOffset r := by
  unfold regAt at h
  by_cases h0 : a = 0x00; · rw [if_pos h0] at h; cases h; exact h0
  rw [if_neg h0] at h
  by_cases h1 : a = 0x04; · rw [if_pos h1] at h; cases h; exact h1
  rw [if_neg h1] at h
  by_cases h2 : a = 0x08; · rw [if_pos h2] at h; cases h; exact h2
  rw [if_neg h2] at h
  by_cases h3 : a = 0x0C; · rw [if_pos h3] at h; cases h; exact h3
  rw [if_neg h3] at h
  by_cases h4 : a = 0x10; · rw [if_pos h4] at h; cases h; exact h4
  rw [if_neg h4] at h
  by_cases h5 : a = 0x14; · rw [if_pos h5] at h; cases h; exact h5
  rw [if_neg h5] at h
  by_cases h6 : a = 0x18; · rw [if_pos h6] at h; cases h; exact h6
  rw [if_neg h6] at h
  by_cases h7 : a = 0x1C; · rw [if_pos h7] at h; cases h; exact h7
  rw [if_neg h7] at h
  by_cases h8 : a = 0x20; · rw [if_pos h8] at h; cases h; exact h8
  rw [if_neg h8] at h
  by_cases h9 : a = 0x24; · rw [if_pos h9] at h; cases h; exact h9
  rw [if_neg h9] at h
  by_cases h10 : a = 0x28; · rw [if_pos h10] at h; cases h; exact h10
  rw [if_neg h10] at h
  by_cases h11 : a = 0x2C; · rw [if_pos h11] at h; cases h; exact h11
  rw [if_neg h11] at h
  by_cases h12 : a = 0x30; · rw [if_pos h12] at h; cases h; exact h12
  rw [if_neg h12] at h
  by_cases h13 : a = 0x34; · rw [if_pos h13] at h; cases h; exact h13
  rw [if_neg h13] at h
  by_cases h14 : a = 0x38; · rw [if_pos h14] at h; cases h; exact h14
  rw [if_neg h14] at h
  by_cases h15 : a = 0x3C; · rw [if_pos h15] at h; cases h; exact h15
  rw [if_neg h15] at h
  by_cases h16 : a = 0x40; · rw [if_pos h16] at h; cases h; exact h16
  rw [if_neg h16] at h
  by_cases h17 : a = 0x44; · rw [if_pos h17] at h; cases h; exact h17
  rw [if_neg h17] at h
  cases h

theorem regAt_none_of_reserved {a : Nat} (h : 0x48 ≤ a) : regAt a = none := by
  cases hr : regAt a with
  | none => rfl
  | some r =>
    have := regAt_eq_some hr
    cases r <;> simp only [regOffset] at this <;> omega

/-! ## Address decoding -/

/-- The address map of R62 in numbers. -/
theorem targetOf_pfr (a : Nat) :
    targetOf Config.pfr a =
      if a % 4 ≠ 0 then .unmapped
      else if a < 256 then (match regAt a with | some r => .csr r | none => .reserved)
      else if 65536 ≤ a ∧ a < 131072 then .ctab ((a - 65536) / 4)
      else if 1048576 ≤ a ∧ a < 1310720 then .input ((a - 1048576) / 4)
      else if 2097152 ≤ a ∧ a < 3145728 then .output ((a - 2097152) / 4)
      else .unmapped := rfl

/-- The ranges behind each target (R61, R62). -/
theorem targetOf_cases (a : Nat) :
    (∃ r, targetOf Config.pfr a = .csr r ∧ a = regOffset r) ∨
      (targetOf Config.pfr a = .reserved ∧ a < 0x100) ∨
      (∃ i, targetOf Config.pfr a = .ctab i ∧ i < 16384 ∧ a = ctabAddr i) ∨
      (∃ f, targetOf Config.pfr a = .input f ∧ f < 65536 ∧ a = inAddr f) ∨
      (∃ k, targetOf Config.pfr a = .output k ∧ k < 262144 ∧ a = outAddr k) ∨
      targetOf Config.pfr a = .unmapped := by
  rw [targetOf_pfr]
  by_cases h0 : a % 4 ≠ 0
  · rw [if_pos h0]; exact .inr (.inr (.inr (.inr (.inr rfl))))
  rw [if_neg h0]
  by_cases h1 : a < 256
  · rw [if_pos h1]
    cases hr : regAt a with
    | none => exact .inr (.inl ⟨rfl, h1⟩)
    | some r => exact .inl ⟨r, rfl, regAt_eq_some hr⟩
  rw [if_neg h1]
  by_cases h2 : 65536 ≤ a ∧ a < 131072
  · rw [if_pos h2]
    exact .inr (.inr (.inl ⟨_, rfl, by omega, by unfold ctabAddr ctabBase; omega⟩))
  rw [if_neg h2]
  by_cases h3 : 1048576 ≤ a ∧ a < 1310720
  · rw [if_pos h3]
    exact .inr (.inr (.inr (.inl ⟨_, rfl, by omega, by unfold inAddr inBase; omega⟩)))
  rw [if_neg h3]
  by_cases h4 : 2097152 ≤ a ∧ a < 3145728
  · rw [if_pos h4]
    exact .inr (.inr (.inr (.inr (.inl ⟨_, rfl, by omega, by unfold outAddr outBase; omega⟩))))
  rw [if_neg h4]
  exact .inr (.inr (.inr (.inr (.inr rfl))))

theorem targetOf_csr {a : Nat} {r : Reg} (h : targetOf Config.pfr a = .csr r) : a = regOffset r := by
  rcases targetOf_cases a with ⟨_, h', ha⟩ | ⟨h', _⟩ | ⟨_, h', _⟩ | ⟨_, h', _⟩ | ⟨_, h', _⟩ | h' <;> rw [h'] at h <;> cases h
  exact ha

theorem targetOf_ctab {a i : Nat} (h : targetOf Config.pfr a = .ctab i) : i < 16384 ∧ a = ctabAddr i := by
  rcases targetOf_cases a with ⟨_, h', _⟩ | ⟨h', _⟩ | ⟨_, h', hi, ha⟩ | ⟨_, h', _⟩ | ⟨_, h', _⟩ | h' <;> rw [h'] at h <;> cases h
  exact ⟨hi, ha⟩

theorem targetOf_input {a f : Nat} (h : targetOf Config.pfr a = .input f) : f < 65536 ∧ a = inAddr f := by
  rcases targetOf_cases a with ⟨_, h', _⟩ | ⟨h', _⟩ | ⟨_, h', _⟩ | ⟨_, h', hi, ha⟩ | ⟨_, h', _⟩ | h' <;> rw [h'] at h <;> cases h
  exact ⟨hi, ha⟩

theorem targetOf_output {a k : Nat} (h : targetOf Config.pfr a = .output k) : k < 262144 ∧ a = outAddr k := by
  rcases targetOf_cases a with ⟨_, h', _⟩ | ⟨h', _⟩ | ⟨_, h', _⟩ | ⟨_, h', _⟩ | ⟨_, h', hi, ha⟩ | h' <;> rw [h'] at h <;> cases h
  exact ⟨hi, ha⟩

/-- R24: the offset of a register reaches it. -/
theorem targetOf_regOffset (P : Params) (r : Reg) : targetOf P (regOffset r) = .csr r := by cases r <;> rfl

theorem targetOf_ctabAddr {i : Nat} (h : i < 16384) : targetOf Config.pfr (ctabAddr i) = .ctab i := by
  obtain ⟨a, ha⟩ : ∃ a, a = ctabAddr i := ⟨_, rfl⟩
  have hn : a = 65536 + 4 * i := ha
  rw [← ha, targetOf_pfr, if_neg (by omega), if_neg (by omega), if_pos (by omega)]
  congr 1
  omega

theorem targetOf_inAddr {f : Nat} (h : f < 65536) : targetOf Config.pfr (inAddr f) = .input f := by
  obtain ⟨a, ha⟩ : ∃ a, a = inAddr f := ⟨_, rfl⟩
  have hn : a = 1048576 + 4 * f := ha
  rw [← ha, targetOf_pfr, if_neg (by omega), if_neg (by omega), if_neg (by omega), if_pos (by omega)]
  congr 1
  omega

theorem targetOf_outAddr {k : Nat} (h : k < 262144) : targetOf Config.pfr (outAddr k) = .output k := by
  obtain ⟨a, ha⟩ : ∃ a, a = outAddr k := ⟨_, rfl⟩
  have hn : a = 2097152 + 4 * k := ha
  rw [← ha, targetOf_pfr, if_neg (by omega), if_neg (by omega), if_neg (by omega), if_neg (by omega), if_pos (by omega)]
  congr 1
  omega

/-- R62 in numbers: an aligned offset of the IN region's frames. -/
theorem targetOf_input_of_range {a : Nat} (h4 : a % 4 = 0) (h0 : 0x100000 ≤ a) (h1 : a < 0x100000 + 4 * 65536) :
    ∃ f, targetOf Config.pfr a = .input f := by
  have e : a = inAddr ((a - 0x100000) / 4) := by unfold inAddr inBase; omega
  rw [e]
  exact ⟨_, targetOf_inAddr (by omega)⟩

/-- R62 in numbers: an aligned offset of the OUT region's frames. -/
theorem targetOf_output_of_range {a : Nat} (h4 : a % 4 = 0) (h0 : 0x200000 ≤ a) (h1 : a < 0x200000 + 4 * 262144) :
    ∃ k, targetOf Config.pfr a = .output k := by
  have e : a = outAddr ((a - 0x200000) / 4) := by unfold outAddr outBase; omega
  rw [e]
  exact ⟨_, targetOf_outAddr (by omega)⟩

/-- R62 in numbers: an aligned offset of the CTAB region's entries. -/
theorem targetOf_ctab_of_range {a : Nat} (h4 : a % 4 = 0) (h0 : 0x010000 ≤ a) (h1 : a < 0x010000 + 4 * 16384) :
    ∃ i, targetOf Config.pfr a = .ctab i := by
  have e : a = ctabAddr ((a - 0x010000) / 4) := by unfold ctabAddr ctabBase; omega
  rw [e]
  exact ⟨_, targetOf_ctabAddr (by omega)⟩

/-- R61: a misaligned offset, or one in no region, reaches nothing. -/
theorem targetOf_unmapped {a : Nat}
    (h : a % 4 ≠ 0 ∨ ¬ (a < 256 ∨ (65536 ≤ a ∧ a < 131072) ∨ (1048576 ≤ a ∧ a < 1310720) ∨ (2097152 ≤ a ∧ a < 3145728))) :
    targetOf Config.pfr a = .unmapped := by
  rw [targetOf_pfr]
  by_cases h0 : a % 4 ≠ 0
  · rw [if_pos h0]
  · rw [if_neg h0, if_neg (by omega), if_neg (by omega), if_neg (by omega), if_neg (by omega)]

/-- R34: an aligned offset from 0x48 to 0xFC is reserved. -/
theorem targetOf_reserved {a : Nat} (h0 : a % 4 = 0) (h : 0x48 ≤ a) (h1 : a < 0x100) : targetOf Config.pfr a = .reserved := by
  rw [targetOf_pfr, if_neg (by omega), if_pos h1, regAt_none_of_reserved h]

/-! ## Memory under bus transactions -/

/-- What a bus write can leave of memory: what was there, or one stored word in the region its offset names. -/
theorem busWrite_mem (s : State) (a : Offset) (d : Word) :
    (busWrite Config.pfr s a d).mem = s.mem ∨
      ∃ w : Word, (busWrite Config.pfr s a d).mem = s.mem.write a.toNat (bytesOfWord w) ∧
        ((∃ i, targetOf Config.pfr a.toNat = .ctab i ∧ s.ready = false ∧ s.busy = false) ∨
          (∃ f, targetOf Config.pfr a.toNat = .input f) ∨ ∃ k, targetOf Config.pfr a.toNat = .output k) := by
  unfold busWrite
  split
  · rename_i r _
    left
    cases r <;> try rfl
    simp only [csrWrite, commandWrite]
    split
    · rfl
    · split <;> rfl
  · exact .inl rfl
  · rename_i i hi
    have ha := (targetOf_ctab hi).2
    unfold ctabWrite
    split
    · exact .inl rfl
    · rename_i hl
      rw [Bool.or_eq_true, not_or] at hl
      exact .inr ⟨d, by rw [ha]; rfl, .inl ⟨i, hi, by simpa using hl.1, by simpa using hl.2⟩⟩
  · rename_i f hf
    have ha := (targetOf_input hf).2
    unfold inWrite
    refine .inr ⟨d, ?_, .inr (.inl ⟨f, hf⟩)⟩
    rw [ha]
    split <;> rfl
  · rename_i k hk
    have ha := (targetOf_output hk).2
    unfold outWrite
    split
    · exact .inr ⟨_, by rw [ha]; rfl, .inr (.inr ⟨k, hk⟩)⟩
    · exact .inr ⟨d, by rw [ha]; rfl, .inr (.inr ⟨k, hk⟩)⟩
  · exact .inl rfl

/-- A bus write keeps the canonical form of memory. -/
theorem busWrite_wf {s : State} (h : s.mem.wf) (a : Offset) (d : Word) : (busWrite Config.pfr s a d).mem.wf := by
  rcases busWrite_mem s a d with h' | ⟨w, h', -⟩ <;> rw [h']
  · exact h
  · exact Memory.write_wf h _ _

/-- A bus transaction draws no new power-on contents. -/
theorem busWrite_epoch (s : State) (a : Offset) (d : Word) : (busWrite Config.pfr s a d).env.epoch = s.env.epoch := by
  unfold busWrite
  split
  · rename_i r _
    cases r <;> try rfl
    simp only [csrWrite, commandWrite]
    split
    · rfl
    · split <;> rfl
  · rfl
  · unfold ctabWrite; split <;> rfl
  · unfold inWrite; split <;> rfl
  · unfold outWrite; split <;> rfl
  · rfl

/-- The memory after reset has the canonical form. -/
theorem reset_mem_wf : State.reset.mem.wf := List.Pairwise.nil

end Sys2Proof.Machine
end

