-- ==== Sys2Proof/Laws/State.lean ====
section
/-! SUPPORT. Laws/State.lean: for each shared update of the state, what every field is after it: one lemma per field, true by rfl,
so that no later proof unfolds a record update. -/

namespace Sys2Proof.Machine

/-! `raise` -/

@[simp] theorem raise_regs (e : ErrCode) (s : State) : (raise e s).regs = s.regs := rfl
@[simp] theorem raise_ready (e : ErrCode) (s : State) : (raise e s).ready = s.ready := rfl
@[simp] theorem raise_busy (e : ErrCode) (s : State) : (raise e s).busy = false := rfl
@[simp] theorem raise_err (e : ErrCode) (s : State) : (raise e s).err = e := rfl
@[simp] theorem raise_lastOp (e : ErrCode) (s : State) : (raise e s).lastOp = s.lastOp := rfl
@[simp] theorem raise_sticky (e : ErrCode) (s : State) : (raise e s).sticky = s.sticky := rfl
@[simp] theorem raise_act (e : ErrCode) (s : State) : (raise e s).act = s.act := rfl
@[simp] theorem raise_pos (e : ErrCode) (s : State) : (raise e s).pos = s.pos := rfl
@[simp] theorem raise_outCount (e : ErrCode) (s : State) : (raise e s).outCount = s.outCount := rfl
@[simp] theorem raise_pending (e : ErrCode) (s : State) : (raise e s).pending = s.pending := rfl
@[simp] theorem raise_latched (e : ErrCode) (s : State) : (raise e s).latched = s.latched := rfl
@[simp] theorem raise_mem (e : ErrCode) (s : State) : (raise e s).mem = s.mem := rfl
@[simp] theorem raise_xbuf (e : ErrCode) (s : State) : (raise e s).xbuf = s.xbuf := rfl
@[simp] theorem raise_env (e : ErrCode) (s : State) : (raise e s).env = s.env := rfl

/-! `finish` -/

@[simp] theorem finish_regs (s : State) : (finish s).regs = s.regs := rfl
@[simp] theorem finish_ready (s : State) : (finish s).ready = s.ready := rfl
@[simp] theorem finish_busy (s : State) : (finish s).busy = false := rfl
@[simp] theorem finish_err (s : State) : (finish s).err = .none := rfl
@[simp] theorem finish_lastOp (s : State) : (finish s).lastOp = s.lastOp := rfl
@[simp] theorem finish_sticky (s : State) : (finish s).sticky = s.sticky := rfl
@[simp] theorem finish_act (s : State) : (finish s).act = s.act := rfl
@[simp] theorem finish_pos (s : State) : (finish s).pos = s.pos := rfl
@[simp] theorem finish_outCount (s : State) : (finish s).outCount = s.outCount := rfl
@[simp] theorem finish_pending (s : State) : (finish s).pending = s.pending := rfl
@[simp] theorem finish_latched (s : State) : (finish s).latched = s.latched := rfl
@[simp] theorem finish_mem (s : State) : (finish s).mem = s.mem := rfl
@[simp] theorem finish_xbuf (s : State) : (finish s).xbuf = s.xbuf := rfl
@[simp] theorem finish_env (s : State) : (finish s).env = s.env := rfl

/-! `accept` -/

@[simp] theorem accept_regs (i : Instr) (s : State) : (accept i s).regs = s.regs := rfl
@[simp] theorem accept_ready (i : Instr) (s : State) : (accept i s).ready = s.ready := rfl
@[simp] theorem accept_busy (i : Instr) (s : State) : (accept i s).busy = true := rfl
@[simp] theorem accept_err (i : Instr) (s : State) : (accept i s).err = s.err := rfl
@[simp] theorem accept_lastOp (i : Instr) (s : State) : (accept i s).lastOp = opOf i := rfl
@[simp] theorem accept_sticky (i : Instr) (s : State) : (accept i s).sticky = s.sticky := rfl
@[simp] theorem accept_act (i : Instr) (s : State) : (accept i s).act = s.act := rfl
@[simp] theorem accept_pos (i : Instr) (s : State) : (accept i s).pos = s.pos := rfl
@[simp] theorem accept_outCount (i : Instr) (s : State) : (accept i s).outCount = s.outCount := rfl
@[simp] theorem accept_pending (i : Instr) (s : State) : (accept i s).pending = opOf i := rfl
@[simp] theorem accept_latched (i : Instr) (s : State) : (accept i s).latched = latchOperands i s := rfl
@[simp] theorem accept_mem (i : Instr) (s : State) : (accept i s).mem = s.mem := rfl
@[simp] theorem accept_xbuf (i : Instr) (s : State) : (accept i s).xbuf = s.xbuf := rfl
@[simp] theorem accept_env (i : Instr) (s : State) : (accept i s).env = { s.env with wait := Config.latency s.env.accepts, accepts := s.env.accepts + 1, hazard := false } := rfl

/-! `answer` -/

@[simp] theorem answer_regs (s : State) (d : Option Word) : (answer s d).regs = s.regs := rfl
@[simp] theorem answer_ready (s : State) (d : Option Word) : (answer s d).ready = s.ready := rfl
@[simp] theorem answer_busy (s : State) (d : Option Word) : (answer s d).busy = s.busy := rfl
@[simp] theorem answer_err (s : State) (d : Option Word) : (answer s d).err = s.err := rfl
@[simp] theorem answer_lastOp (s : State) (d : Option Word) : (answer s d).lastOp = s.lastOp := rfl
@[simp] theorem answer_sticky (s : State) (d : Option Word) : (answer s d).sticky = s.sticky := rfl
@[simp] theorem answer_act (s : State) (d : Option Word) : (answer s d).act = s.act := rfl
@[simp] theorem answer_pos (s : State) (d : Option Word) : (answer s d).pos = s.pos := rfl
@[simp] theorem answer_outCount (s : State) (d : Option Word) : (answer s d).outCount = s.outCount := rfl
@[simp] theorem answer_pending (s : State) (d : Option Word) : (answer s d).pending = s.pending := rfl
@[simp] theorem answer_latched (s : State) (d : Option Word) : (answer s d).latched = s.latched := rfl
@[simp] theorem answer_mem (s : State) (d : Option Word) : (answer s d).mem = s.mem := rfl
@[simp] theorem answer_xbuf (s : State) (d : Option Word) : (answer s d).xbuf = s.xbuf := rfl
@[simp] theorem answer_env (s : State) (d : Option Word) : (answer s d).env = { s.env with rdata := d } := rfl

/-! `popHost` -/

@[simp] theorem popHost_regs (s : State) (rest : List HostOp) : (popHost s rest).regs = s.regs := rfl
@[simp] theorem popHost_ready (s : State) (rest : List HostOp) : (popHost s rest).ready = s.ready := rfl
@[simp] theorem popHost_busy (s : State) (rest : List HostOp) : (popHost s rest).busy = s.busy := rfl
@[simp] theorem popHost_err (s : State) (rest : List HostOp) : (popHost s rest).err = s.err := rfl
@[simp] theorem popHost_lastOp (s : State) (rest : List HostOp) : (popHost s rest).lastOp = s.lastOp := rfl
@[simp] theorem popHost_sticky (s : State) (rest : List HostOp) : (popHost s rest).sticky = s.sticky := rfl
@[simp] theorem popHost_act (s : State) (rest : List HostOp) : (popHost s rest).act = s.act := rfl
@[simp] theorem popHost_pos (s : State) (rest : List HostOp) : (popHost s rest).pos = s.pos := rfl
@[simp] theorem popHost_outCount (s : State) (rest : List HostOp) : (popHost s rest).outCount = s.outCount := rfl
@[simp] theorem popHost_pending (s : State) (rest : List HostOp) : (popHost s rest).pending = s.pending := rfl
@[simp] theorem popHost_latched (s : State) (rest : List HostOp) : (popHost s rest).latched = s.latched := rfl
@[simp] theorem popHost_mem (s : State) (rest : List HostOp) : (popHost s rest).mem = s.mem := rfl
@[simp] theorem popHost_xbuf (s : State) (rest : List HostOp) : (popHost s rest).xbuf = s.xbuf := rfl
@[simp] theorem popHost_env (s : State) (rest : List HostOp) : (popHost s rest).env = { s.env with host := rest, wait := if s.busy then s.env.wait - 1 else s.env.wait } := rfl

/-! `breakDuty` -/

@[simp] theorem breakDuty_regs (s : State) : (breakDuty s).regs = s.regs := rfl
@[simp] theorem breakDuty_ready (s : State) : (breakDuty s).ready = s.ready := rfl
@[simp] theorem breakDuty_busy (s : State) : (breakDuty s).busy = s.busy := rfl
@[simp] theorem breakDuty_err (s : State) : (breakDuty s).err = s.err := rfl
@[simp] theorem breakDuty_lastOp (s : State) : (breakDuty s).lastOp = s.lastOp := rfl
@[simp] theorem breakDuty_sticky (s : State) : (breakDuty s).sticky = s.sticky := rfl
@[simp] theorem breakDuty_act (s : State) : (breakDuty s).act = s.act := rfl
@[simp] theorem breakDuty_pos (s : State) : (breakDuty s).pos = s.pos := rfl
@[simp] theorem breakDuty_outCount (s : State) : (breakDuty s).outCount = s.outCount := rfl
@[simp] theorem breakDuty_pending (s : State) : (breakDuty s).pending = s.pending := rfl
@[simp] theorem breakDuty_latched (s : State) : (breakDuty s).latched = s.latched := rfl
@[simp] theorem breakDuty_mem (s : State) : (breakDuty s).mem = s.mem := rfl
@[simp] theorem breakDuty_xbuf (s : State) : (breakDuty s).xbuf = s.xbuf := rfl
@[simp] theorem breakDuty_env (s : State) : (breakDuty s).env = { s.env with hazard := true, free := s.env.free + 1 } := rfl

/-! `storeWord` -/

@[simp] theorem storeWord_regs (s : State) (a : Nat) (d : Word) : (storeWord s a d).regs = s.regs := rfl
@[simp] theorem storeWord_ready (s : State) (a : Nat) (d : Word) : (storeWord s a d).ready = s.ready := rfl
@[simp] theorem storeWord_busy (s : State) (a : Nat) (d : Word) : (storeWord s a d).busy = s.busy := rfl
@[simp] theorem storeWord_err (s : State) (a : Nat) (d : Word) : (storeWord s a d).err = s.err := rfl
@[simp] theorem storeWord_lastOp (s : State) (a : Nat) (d : Word) : (storeWord s a d).lastOp = s.lastOp := rfl
@[simp] theorem storeWord_sticky (s : State) (a : Nat) (d : Word) : (storeWord s a d).sticky = s.sticky := rfl
@[simp] theorem storeWord_act (s : State) (a : Nat) (d : Word) : (storeWord s a d).act = s.act := rfl
@[simp] theorem storeWord_pos (s : State) (a : Nat) (d : Word) : (storeWord s a d).pos = s.pos := rfl
@[simp] theorem storeWord_outCount (s : State) (a : Nat) (d : Word) : (storeWord s a d).outCount = s.outCount := rfl
@[simp] theorem storeWord_pending (s : State) (a : Nat) (d : Word) : (storeWord s a d).pending = s.pending := rfl
@[simp] theorem storeWord_latched (s : State) (a : Nat) (d : Word) : (storeWord s a d).latched = s.latched := rfl
@[simp] theorem storeWord_mem (s : State) (a : Nat) (d : Word) : (storeWord s a d).mem = s.mem.write a (bytesOfWord d) := rfl
@[simp] theorem storeWord_xbuf (s : State) (a : Nat) (d : Word) : (storeWord s a d).xbuf = s.xbuf := rfl
@[simp] theorem storeWord_env (s : State) (a : Nat) (d : Word) : (storeWord s a d).env = s.env := rfl

/-! `recordCreate` -/

@[simp] theorem recordCreate_regs (s : State) (d : Derived) (sel : Selection) : (recordCreate s d sel).regs = s.regs := rfl
@[simp] theorem recordCreate_ready (s : State) (d : Derived) (sel : Selection) : (recordCreate s d sel).ready = true := rfl
@[simp] theorem recordCreate_busy (s : State) (d : Derived) (sel : Selection) : (recordCreate s d sel).busy = s.busy := rfl
@[simp] theorem recordCreate_err (s : State) (d : Derived) (sel : Selection) : (recordCreate s d sel).err = s.err := rfl
@[simp] theorem recordCreate_lastOp (s : State) (d : Derived) (sel : Selection) : (recordCreate s d sel).lastOp = s.lastOp := rfl
@[simp] theorem recordCreate_sticky (s : State) (d : Derived) (sel : Selection) : (recordCreate s d sel).sticky = Sticky.clear := rfl
@[simp] theorem recordCreate_act (s : State) (d : Derived) (sel : Selection) : (recordCreate s d sel).act = activeConfigOf d sel s.latched.interp := rfl
@[simp] theorem recordCreate_pos (s : State) (d : Derived) (sel : Selection) : (recordCreate s d sel).pos = Position.fresh := rfl
@[simp] theorem recordCreate_outCount (s : State) (d : Derived) (sel : Selection) : (recordCreate s d sel).outCount = 0 := rfl
@[simp] theorem recordCreate_pending (s : State) (d : Derived) (sel : Selection) : (recordCreate s d sel).pending = s.pending := rfl
@[simp] theorem recordCreate_latched (s : State) (d : Derived) (sel : Selection) : (recordCreate s d sel).latched = s.latched := rfl
@[simp] theorem recordCreate_mem (s : State) (d : Derived) (sel : Selection) : (recordCreate s d sel).mem = s.mem := rfl
@[simp] theorem recordCreate_xbuf (s : State) (d : Derived) (sel : Selection) : (recordCreate s d sel).xbuf = zeroXbuf d.xoff := rfl
@[simp] theorem recordCreate_env (s : State) (d : Derived) (sel : Selection) : (recordCreate s d sel).env = s.env := rfl

/-! `recordFlush` -/

@[simp] theorem recordFlush_regs (s : State) : (recordFlush s).regs = s.regs := rfl
@[simp] theorem recordFlush_ready (s : State) : (recordFlush s).ready = s.ready := rfl
@[simp] theorem recordFlush_busy (s : State) : (recordFlush s).busy = s.busy := rfl
@[simp] theorem recordFlush_err (s : State) : (recordFlush s).err = s.err := rfl
@[simp] theorem recordFlush_lastOp (s : State) : (recordFlush s).lastOp = s.lastOp := rfl
@[simp] theorem recordFlush_sticky (s : State) : (recordFlush s).sticky = s.sticky := rfl
@[simp] theorem recordFlush_act (s : State) : (recordFlush s).act = s.act := rfl
@[simp] theorem recordFlush_pos (s : State) : (recordFlush s).pos = Position.fresh := rfl
@[simp] theorem recordFlush_outCount (s : State) : (recordFlush s).outCount = 0 := rfl
@[simp] theorem recordFlush_pending (s : State) : (recordFlush s).pending = s.pending := rfl
@[simp] theorem recordFlush_latched (s : State) : (recordFlush s).latched = s.latched := rfl
@[simp] theorem recordFlush_mem (s : State) : (recordFlush s).mem = s.mem := rfl
@[simp] theorem recordFlush_xbuf (s : State) : (recordFlush s).xbuf = zeroXbuf s.act.xoff.toNat := rfl
@[simp] theorem recordFlush_env (s : State) : (recordFlush s).env = s.env := rfl

/-! `recordDestroy` -/

@[simp] theorem recordDestroy_regs (s : State) : (recordDestroy s).regs = s.regs := rfl
@[simp] theorem recordDestroy_ready (s : State) : (recordDestroy s).ready = false := rfl
@[simp] theorem recordDestroy_busy (s : State) : (recordDestroy s).busy = s.busy := rfl
@[simp] theorem recordDestroy_err (s : State) : (recordDestroy s).err = s.err := rfl
@[simp] theorem recordDestroy_lastOp (s : State) : (recordDestroy s).lastOp = s.lastOp := rfl
@[simp] theorem recordDestroy_sticky (s : State) : (recordDestroy s).sticky = s.sticky := rfl
@[simp] theorem recordDestroy_act (s : State) : (recordDestroy s).act = ActiveConfig.unconfigured := rfl
@[simp] theorem recordDestroy_pos (s : State) : (recordDestroy s).pos = Position.fresh := rfl
@[simp] theorem recordDestroy_outCount (s : State) : (recordDestroy s).outCount = 0 := rfl
@[simp] theorem recordDestroy_pending (s : State) : (recordDestroy s).pending = s.pending := rfl
@[simp] theorem recordDestroy_latched (s : State) : (recordDestroy s).latched = s.latched := rfl
@[simp] theorem recordDestroy_mem (s : State) : (recordDestroy s).mem = s.mem := rfl
@[simp] theorem recordDestroy_xbuf (s : State) : (recordDestroy s).xbuf = [] := rfl
@[simp] theorem recordDestroy_env (s : State) : (recordDestroy s).env = s.env := rfl

/-! `recordProcess` -/

@[simp] theorem recordProcess_regs (P : Params) (s : State) (n : Nat) : (recordProcess P s n).regs = s.regs := rfl
@[simp] theorem recordProcess_ready (P : Params) (s : State) (n : Nat) : (recordProcess P s n).ready = s.ready := rfl
@[simp] theorem recordProcess_busy (P : Params) (s : State) (n : Nat) : (recordProcess P s n).busy = s.busy := rfl
@[simp] theorem recordProcess_err (P : Params) (s : State) (n : Nat) : (recordProcess P s n).err = s.err := rfl
@[simp] theorem recordProcess_lastOp (P : Params) (s : State) (n : Nat) : (recordProcess P s n).lastOp = s.lastOp := rfl
@[simp] theorem recordProcess_sticky (P : Params) (s : State) (n : Nat) : (recordProcess P s n).sticky = s.sticky.noteOvf (processOvf P s n) := rfl
@[simp] theorem recordProcess_act (P : Params) (s : State) (n : Nat) : (recordProcess P s n).act = s.act := rfl
@[simp] theorem recordProcess_pos (P : Params) (s : State) (n : Nat) : (recordProcess P s n).pos = nextPosition P s n := rfl
@[simp] theorem recordProcess_outCount (P : Params) (s : State) (n : Nat) : (recordProcess P s n).outCount = BitVec.ofNat 24 (outputCount P s n) := rfl
@[simp] theorem recordProcess_pending (P : Params) (s : State) (n : Nat) : (recordProcess P s n).pending = s.pending := rfl
@[simp] theorem recordProcess_latched (P : Params) (s : State) (n : Nat) : (recordProcess P s n).latched = s.latched := rfl
@[simp] theorem recordProcess_mem (P : Params) (s : State) (n : Nat) : (recordProcess P s n).mem = s.mem.write outBase (bytesOfWords (outputWords P s n)) := rfl
@[simp] theorem recordProcess_xbuf (P : Params) (s : State) (n : Nat) : (recordProcess P s n).xbuf = nextXbuf s n := rfl
@[simp] theorem recordProcess_env (P : Params) (s : State) (n : Nat) : (recordProcess P s n).env = drawOutputs P s n := rfl

@[simp] theorem drawOutputs_host (P : Params) (s : State) (n : Nat) : (drawOutputs P s n).host = s.env.host := by
  unfold drawOutputs; split <;> rfl
@[simp] theorem drawOutputs_rdata (P : Params) (s : State) (n : Nat) : (drawOutputs P s n).rdata = s.env.rdata := by
  unfold drawOutputs; split <;> rfl
@[simp] theorem drawOutputs_wait (P : Params) (s : State) (n : Nat) : (drawOutputs P s n).wait = s.env.wait := by
  unfold drawOutputs; split <;> rfl
@[simp] theorem drawOutputs_accepts (P : Params) (s : State) (n : Nat) : (drawOutputs P s n).accepts = s.env.accepts := by
  unfold drawOutputs; split <;> rfl
@[simp] theorem drawOutputs_epoch (P : Params) (s : State) (n : Nat) : (drawOutputs P s n).epoch = s.env.epoch := by
  unfold drawOutputs; split <;> rfl
@[simp] theorem drawOutputs_hazard (P : Params) (s : State) (n : Nat) : (drawOutputs P s n).hazard = s.env.hazard := by
  unfold drawOutputs; split <;> rfl

end Sys2Proof.Machine
end

