-- ==== Sys2Proof/Laws/Ops.lean ====
section
/-! SUPPORT. Laws/Ops.lean: what a completion, a command and a host operation can do, said once: the case lemmas that later proofs
cite instead of unfolding `exec`, `step` and `hostOperation`. -/

namespace Sys2Proof.Machine

/-! ## Decoding -/

@[simp] theorem opField_command (op : BitVec 4) : opField (0#28 ++ op) = op := by
  revert op; decide

@[simp] theorem rsvField_command (op : BitVec 4) : rsvField (0#28 ++ op) = 0#28 := by
  revert op; decide

theorem instrOfOp_opOf (i : Instr) : instrOfOp (opOf i) = some i := by cases i <;> rfl

theorem instrOfOp_eq_some {op : BitVec 4} {i : Instr} (h : instrOfOp op = some i) : op = opOf i := by
  revert op i; decide

/-- While `i` is pending the engine decodes `i`. -/
theorem decode_pending_of_opOf {s : State} {i : Instr} (h : s.pending = opOf i) : decode (pendingWord s) = .ok i := by
  simp [decode, pendingWord, h, instrOfOp_opOf]

theorem pending_of_decode {s : State} {i : Instr} (h : decode (pendingWord s) = .ok i) : s.pending = opOf i := by
  simp only [decode, pendingWord, opField_command, rsvField_command, if_true] at h
  split at h
  · rename_i j hj
    rw [Except.ok.injEq] at h
    exact h ▸ instrOfOp_eq_some hj
  · cases h

/-! ## Completion and the commands -/

/-- A completion never stops: it raises the rule's error or finishes its writes (R221). -/
theorem complete_cases {s t : State} {v : Except ErrCode State} (h : complete s v = .next t) :
    (∃ e, v = .error e ∧ t = raise e s) ∨ (∃ u, v = .ok u ∧ t = finish u) := by
  cases v with
  | error e => exact .inl ⟨e, rfl, by simpa [complete] using h.symm⟩
  | ok u => exact .inr ⟨u, rfl, by simpa [complete] using h.symm⟩

/-- A command's meaning is the completion of its rule, at the default parameters. -/
theorem exec_eq_complete (i : Instr) (s : State) : exec i s = complete s (commandRule Config.pfr i s) := by cases i <;> rfl

/-- The dispatched meanings are those of the machine of any parameters, at the defaults. -/
theorem exec_eq_execAt : exec = execAt Config.pfr := funext fun i => funext fun s => exec_eq_complete i s

/-- The step is that of the machine of any parameters, at the defaults. -/
theorem step_eq_stepAt : step = stepAt Config.pfr := by
  funext s
  unfold step stepAt
  rw [exec_eq_execAt]

/-- No rule raises the code NONE. -/
theorem createRule_cases (s : State) :
    (∃ e, createRule Config.pfr s = .error e ∧ e ≠ .none) ∨
      (∃ f sel, s.ready = false ∧ positiveFactor (fval s.latched.factorBits) = some f ∧
        selectTable Config.pfr s.latched = .ok sel ∧
        failingCheck Config.pfr (derive Config.pfr sel f) sel.header.nwing.toNat = none ∧
        createRule Config.pfr s = .ok (recordCreate s (derive Config.pfr sel f) sel)) := by
  unfold createRule
  by_cases hr : s.ready = true
  · exact .inl ⟨.state, by simp [hr], by simp⟩
  · rw [if_neg hr]
    cases hf : positiveFactor (fval s.latched.factorBits) with
    | none => exact .inl ⟨.configRatio, rfl, by simp⟩
    | some f =>
      cases hs : selectTable Config.pfr s.latched with
      | error e =>
        refine .inl ⟨e, rfl, ?_⟩
        rintro rfl
        revert hs
        unfold selectTable
        split <;> try simp
        split
        · simp
        · split <;> simp
      | ok sel =>
        cases hc : failingCheck Config.pfr (derive Config.pfr sel f) sel.header.nwing.toNat with
        | some e =>
          refine .inl ⟨e, by simp [hc], ?_⟩
          rintro rfl
          revert hc
          unfold failingCheck
          split_ifs <;> simp
        | none => exact .inr ⟨f, sel, by simpa using hr, rfl, rfl, hc, by simp [hc]⟩

theorem processRule_cases (s : State) :
    (∃ e, processRule Config.pfr s = .error e ∧ e ≠ .none) ∨
      (s.ready = true ∧ blockLength s ≤ 65536 ∧ 2 * s.act.xoff.toNat + s.pos.ncreep.toNat ≤ blockLength s ∧
        outputCount Config.pfr s (blockLength s) ≤ 262144 ∧
        processRule Config.pfr s = .ok (recordProcess Config.pfr s (blockLength s))) := by
  unfold processRule
  cases hc : processCheck Config.pfr s (blockLength s) with
  | some e =>
    refine .inl ⟨e, rfl, ?_⟩
    rintro rfl
    revert hc
    unfold processCheck
    split_ifs <;> simp
  | none =>
    unfold processCheck at hc
    split_ifs at hc with h1 h2 h3 h4
    simp only [Config.pfr_inFramesMax, Config.pfr_outFramesMax] at h2 h4
    exact .inr ⟨by simpa using h1, by omega, by omega, by omega, rfl⟩

/-- A successful CREATE, from its four parts (R230). -/
theorem exec_create_of {s : State} {f : Factor} {sel : Selection} (hr : s.ready = false)
    (hf : positiveFactor (fval s.latched.factorBits) = some f) (hs : selectTable Config.pfr s.latched = .ok sel)
    (hc : failingCheck Config.pfr (derive Config.pfr sel f) sel.header.nwing.toNat = none) :
    exec .create s = .next (finish (recordCreate s (derive Config.pfr sel f) sel)) := by
  rw [exec_eq_complete]
  simp [commandRule, createRule, hr, hf, hs, hc, complete]

/-- A table the statements call bound is the one CREATE selects (R117). -/
theorem selectTable_of_bindsTable {l : Latched} {tsel : TableSel} {h : TableHeader} (hb : BindsTable l tsel h) :
    selectTable Config.pfr l = .ok { tsel := tsel, header := h } := by
  rcases hb with ⟨hq, rfl, rfl⟩ | ⟨hq, rfl, rfl⟩ | ⟨hq, hv, h1, h2, h3, rfl, rfl⟩
  · unfold selectTable; rw [hq]; rfl
  · unfold selectTable; rw [hq]; rfl
  · refine selectTable_custom _ hq hv ?_
    rw [customIllegal_iff]
    rintro (h | h | h)
    · exact absurd h (Nat.not_lt.2 h1)
    · exact absurd h (Nat.not_lt.2 h2)
    · exact h3 h

/-- Every command answers a next state (R250: "No error stops the block"): its error raised, or its writes finished. -/
theorem exec_cases {i : Instr} {s t : State} (h : exec i s = .next t) :
    (∃ e, e ≠ .none ∧ commandRule Config.pfr i s = .error e ∧ t = raise e s) ∨ (∃ u, commandRule Config.pfr i s = .ok u ∧ t = finish u) := by
  rw [exec_eq_complete] at h
  rcases complete_cases h with ⟨e, hv, rfl⟩ | ⟨u, hv, rfl⟩
  · refine .inl ⟨e, ?_, hv, rfl⟩
    cases i with
    | create => rcases createRule_cases s with ⟨e', he', hn⟩ | ⟨_, _, _, _, _, _, hok⟩ <;> simp_all [commandRule]
    | process => rcases processRule_cases s with ⟨e', he', hn⟩ | ⟨_, _, _, _, hok⟩ <;> simp_all [commandRule]
    | flush => simp only [commandRule, flushRule] at hv; split at hv <;> simp_all; rw [← hv]; simp
    | destroy => simp only [commandRule, destroyRule] at hv; split at hv <;> simp_all; rw [← hv]; simp
  · exact .inr ⟨u, hv, rfl⟩

/-- A completed command leaves the host-written registers, LAST_OP, the pending OP and the latched operands alone. -/
theorem exec_keeps {i : Instr} {s t : State} (h : exec i s = .next t) :
    t.busy = false ∧ t.regs = s.regs ∧ t.lastOp = s.lastOp ∧ t.pending = s.pending ∧ t.latched = s.latched := by
  rcases exec_cases h with ⟨e, -, -, rfl⟩ | ⟨u, hu, rfl⟩
  · simp
  · cases i with
    | create =>
      rcases createRule_cases s with ⟨e, he, -⟩ | ⟨f, sel, -, -, -, -, hok⟩ <;> simp_all [commandRule]
      subst hu; simp
    | process =>
      rcases processRule_cases s with ⟨e, he, -⟩ | ⟨-, -, -, -, hok⟩ <;> simp_all [commandRule]
      subst hu; simp
    | flush => simp only [commandRule, flushRule] at hu; split at hu <;> simp_all; subst hu; simp
    | destroy => simp only [commandRule, destroyRule] at hu; split at hu <;> simp_all; subst hu; simp

/-! ## Steps -/

/-- Every command answers a next state (R250: "No error stops the block"). -/
theorem exec_next (i : Instr) (s : State) : ∃ t, exec i s = .next t := by
  rw [exec_eq_complete]
  cases commandRule Config.pfr i s <;> exact ⟨_, rfl⟩

/-- At the engine's turn a step is the pending command's meaning. -/
theorem step_engine {s : State} {i : Instr} (hb : s.busy = true) (hw : s.env.host = [] ∨ s.env.wait = 0)
    (hd : decode (pendingWord s) = .ok i) : step s = exec i s := by
  unfold step stepOf nextMove
  rcases hw with hh | hw
  · simp [hh, hb, engineStepOf, hd]
  · cases he : s.env.host <;> simp [hw, hb, engineStepOf, hd]

/-- At the host's turn a step is the host's next operation. -/
theorem step_host {s : State} {op : HostOp} {rest : List HostOp} (hh : s.env.host = op :: rest)
    (hb : s.busy = false ∨ s.env.wait ≠ 0) : step s = .next (hostOperation Config.pfr s op rest) := by
  have hn : ¬ (s.busy = true ∧ s.env.wait = 0) := by
    rintro ⟨h1, h2⟩
    rcases hb with hb | hb
    · simp [hb] at h1
    · exact hb h2
  unfold step stepOf nextMove
  rw [hh]
  simp only [if_neg hn]

/-- An idle block with a silent host stays as it is (R265). -/
theorem step_idle {s : State} (hh : s.env.host = []) (hb : s.busy = false) : step s = .next s := by
  simp [step, stepOf, nextMove, hh, hb]

/-- When the host's next operation is the move (R295). -/
theorem nextMove_host_iff {s : State} {op : HostOp} {rest : List HostOp} :
    nextMove s = .host op rest ↔ s.env.host = op :: rest ∧ (s.busy = false ∨ s.env.wait ≠ 0) := by
  unfold nextMove
  cases s.env.host with
  | nil => cases s.busy <;> simp
  | cons o r => cases s.busy <;> by_cases hw : s.env.wait = 0 <;> simp [hw]

/-- What one step is: an engine completion, one host operation, or nothing. -/
theorem step_cases {s t : State} (h : step s = .next t) :
    (∃ i, nextMove s = .engine ∧ s.busy = true ∧ decode (pendingWord s) = .ok i ∧ exec i s = .next t) ∨
      (∃ op rest, nextMove s = .host op rest ∧ s.env.host = op :: rest ∧ t = hostOperation Config.pfr s op rest) ∨
      (nextMove s = .idle ∧ s.busy = false ∧ s.env.host = [] ∧ t = s) := by
  unfold step stepOf at h
  cases hm : nextMove s with
  | engine =>
    simp only [hm, engineStepOf] at h
    split at h
    · rename_i i hi
      refine .inl ⟨i, rfl, ?_, hi, h⟩
      unfold nextMove at hm
      cases hb : s.busy <;> simp [hb] at hm ⊢
      cases hh : s.env.host <;> simp [hh] at hm
    · cases h
  | host op rest =>
    simp only [hm, Host.Outcome.next.injEq] at h
    exact .inr (.inl ⟨op, rest, rfl, (nextMove_host_iff.1 hm).1, h.symm⟩)
  | idle =>
    simp only [hm, Host.Outcome.next.injEq] at h
    refine .inr (.inr ⟨rfl, ?_, ?_, h.symm⟩) <;> unfold nextMove at hm <;>
      cases hh : s.env.host <;> cases hb : s.busy <;> simp [hh, hb] at hm ⊢
    all_goals (split at hm <;> cases hm)

/-- One step unrolled from a run of any machine of the host's interface. -/
theorem host_run_succ (M : Host.Core) (k : Nat) (s : M.State) : Host.Core.run M (k + 1) s =
    match M.step s with
    | .next s' => Host.Core.run M k s'
    | .fault r => .fault r
    | .refused r => .refused r := rfl

/-- A run of this machine takes its first step and goes on from there. -/
theorem core_run_of_step {s t : State} (h : step s = .next t) (k : Nat) :
    Host.Core.run core (k + 1) s = Host.Core.run core k t := by
  have hr := host_run_succ core k s
  rw [show core.step s = .next t from h] at hr
  exact hr

/-- A run of this machine can be taken one step further. -/
theorem core_run_snoc {s u t : State} {k : Nat} (hk : Host.Core.run core k s = .next u) (h : step u = .next t) :
    Host.Core.run core (k + 1) s = .next t := by
  induction k generalizing s with
  | zero =>
    obtain rfl : s = u := Host.Outcome.next.inj hk
    exact core_run_of_step h 0
  | succ k ih =>
    cases hs : step s with
    | next s' =>
      rw [core_run_of_step hs] at hk
      exact (core_run_of_step hs (k + 1)).trans (ih hk)
    | fault r =>
      have hr := host_run_succ core k s
      rw [show core.step s = .fault r from hs] at hr
      exact absurd (hr.symm.trans hk) (by simp)
    | refused r =>
      have hr := host_run_succ core k s
      rw [show core.step s = .refused r from hs] at hr
      exact absurd (hr.symm.trans hk) (by simp)

/-! ## Host operations -/

/-- A command request while BUSY only sets OVERRUN (R220). -/
theorem commandWrite_busy {s : State} (h : s.busy = true) (d : Word) :
    commandWrite s d = { s with sticky := { s.sticky with overrun := true } } := by simp [commandWrite, h]

/-- What a command request can do (R220). -/
theorem commandWrite_cases (s : State) (d : Word) :
    (s.busy = true ∧ commandWrite s d = { s with sticky := { s.sticky with overrun := true } }) ∨
      (s.busy = false ∧ ∃ i, decode d = .ok i ∧ commandWrite s d = accept i s) ∨
      (s.busy = false ∧ ∃ e, decode d = .error e ∧
        commandWrite s d = { s with lastOp := opField d, err := .cmdIllegal }) := by
  by_cases hb : s.busy = true
  · exact .inl ⟨hb, commandWrite_busy hb d⟩
  · have hf : s.busy = false := by simpa using hb
    cases hd : decode d with
    | ok i => exact .inr (.inl ⟨hf, i, rfl, by simp [commandWrite, hb, hd]⟩)
    | error e => exact .inr (.inr ⟨hf, e, rfl, by simp [commandWrite, hb, hd]⟩)

/-- A bus write touches nothing of what a command computes from: the active configuration, the position, OUT_COUNT, READY and
XBUF. -/
theorem busWrite_keeps (s : State) (a : Offset) (d : Word) :
    (busWrite Config.pfr s a d).ready = s.ready ∧ (busWrite Config.pfr s a d).act = s.act ∧ (busWrite Config.pfr s a d).pos = s.pos ∧
      (busWrite Config.pfr s a d).outCount = s.outCount ∧ (busWrite Config.pfr s a d).xbuf = s.xbuf := by
  unfold busWrite
  split
  · rename_i r _
    cases r <;> try exact ⟨rfl, rfl, rfl, rfl, rfl⟩
    simp only [csrWrite]
    rcases commandWrite_cases s d with ⟨-, h⟩ | ⟨-, i, -, h⟩ | ⟨-, e, -, h⟩ <;> rw [h] <;> exact ⟨rfl, rfl, rfl, rfl, rfl⟩
  · exact ⟨rfl, rfl, rfl, rfl, rfl⟩
  · unfold ctabWrite; split <;> exact ⟨rfl, rfl, rfl, rfl, rfl⟩
  · unfold inWrite; split <;> exact ⟨rfl, rfl, rfl, rfl, rfl⟩
  · unfold outWrite; split <;> exact ⟨rfl, rfl, rfl, rfl, rfl⟩
  · exact ⟨rfl, rfl, rfl, rfl, rfl⟩

/-- While BUSY a bus write keeps the command in flight: BUSY, the pending OP, the latched operands, LAST_OP and ERR. -/
theorem busWrite_keeps_busy {s : State} (hb : s.busy = true) (a : Offset) (d : Word) :
    (busWrite Config.pfr s a d).busy = true ∧ (busWrite Config.pfr s a d).pending = s.pending ∧ (busWrite Config.pfr s a d).latched = s.latched ∧
      (busWrite Config.pfr s a d).lastOp = s.lastOp ∧ (busWrite Config.pfr s a d).err = s.err := by
  unfold busWrite
  split
  · rename_i r _
    cases r <;> try exact ⟨hb, rfl, rfl, rfl, rfl⟩
    simp only [csrWrite]
    rw [commandWrite_busy hb]
    exact ⟨hb, rfl, rfl, rfl, rfl⟩
  · exact ⟨hb, rfl, rfl, rfl, rfl⟩
  · unfold ctabWrite; split <;> exact ⟨hb, rfl, rfl, rfl, rfl⟩
  · unfold inWrite; split <;> exact ⟨hb, rfl, rfl, rfl, rfl⟩
  · unfold outWrite; split <;> exact ⟨hb, rfl, rfl, rfl, rfl⟩
  · exact ⟨hb, rfl, rfl, rfl, rfl⟩

/-- A bus read changes the model's own fields at most (R71). -/
theorem afterBusRead_eq (s : State) (a : Offset) : ∃ e, afterBusRead Config.pfr s a = { s with env := e } := by
  unfold afterBusRead
  split
  · split
    · exact ⟨_, rfl⟩
    · exact ⟨s.env, rfl⟩
  all_goals exact ⟨s.env, rfl⟩

end Sys2Proof.Machine
end

