-- ==== Sys2Proof/Laws/PerInstr.lean ====
section
/-! SUPPORT. Laws/PerInstr.lean: the statements made per instruction, one lemma per constructor. -/

namespace Sys2Proof.Laws

/-- The form of a command's word (R90, R91): RSV is zero, OP is the command's own, and the word passes the checks of R92. -/
def WordForm.Statement (i : Instr) : Prop :=
  rsvField (encode i) = 0#28 ∧ opField (encode i) = opOf i ∧ commandWordWf (encode i) = true ∧ i.wf = true

theorem WordForm.create : WordForm.Statement .create := ⟨by decide, by decide, by decide, rfl⟩

theorem WordForm.process : WordForm.Statement .process := ⟨by decide, by decide, by decide, rfl⟩

theorem WordForm.flush : WordForm.Statement .flush := ⟨by decide, by decide, by decide, rfl⟩

theorem WordForm.destroy : WordForm.Statement .destroy := ⟨by decide, by decide, by decide, rfl⟩

end Sys2Proof.Laws
end

