-- ==== Sys2Proof/Laws/Wings.lean ====
section
/-! SUPPORT. Laws/Wings.lean: a wing as a run of taps (R201, R202, R204): its value is the sum of its rounded products, and it records
an overflow when a partial sum leaves the 32-bit range (R196). For any parameters. -/

namespace Sys2Proof.Machine

variable {P : Params}

/-! ## A run of taps -/

/-- The products `p 0 .. p (n-1)` added to `acc` one after the other. -/
def runTaps (acc : Monitored) (p : Nat → Int) : Nat → Monitored
  | 0 => acc
  | n + 1 => (runTaps acc p n).add (p n)

theorem runTaps_succ' (acc : Monitored) (p : Nat → Int) (n : Nat) :
    runTaps acc p (n + 1) = runTaps (acc.add (p 0)) (fun j => p (j + 1)) n := by
  induction n with
  | zero => rfl
  | succ n ih => rw [runTaps, ih]; rfl

theorem runTaps_v (acc : Monitored) (p : Nat → Int) (n : Nat) :
    (runTaps acc p n).v = acc.v + ∑ j ∈ Finset.range n, p j := by
  induction n with
  | zero => simp [runTaps]
  | succ n ih => rw [Finset.sum_range_succ, runTaps, Monitored.add, ih, add_assoc]

theorem runTaps_ovf (acc : Monitored) (p : Nat → Int) (n : Nat) :
    (runTaps acc p n).ovf = true ↔
      acc.ovf = true ∨ ∃ m, 1 ≤ m ∧ m ≤ n ∧ Leaves32 (acc.v + ∑ j ∈ Finset.range m, p j) := by
  induction n with
  | zero =>
    refine ⟨Or.inl, ?_⟩
    rintro (h | ⟨m, h1, h2, -⟩)
    · exact h
    · omega
  | succ n ih =>
    have hs : (runTaps acc p n).v + p n = acc.v + ∑ j ∈ Finset.range (n + 1), p j := by
      rw [runTaps_v, Finset.sum_range_succ, add_assoc]
    rw [runTaps, Monitored.add, Bool.or_eq_true, ih, hs, ovf32_iff]
    constructor
    · rintro ((h | ⟨m, h1, h2, h⟩) | h)
      · exact .inl h
      · exact .inr ⟨m, h1, h2.trans n.le_succ, h⟩
      · exact .inr ⟨n + 1, by omega, le_rfl, h⟩
    · rintro (h | ⟨m, h1, h2, h⟩)
      · exact .inl (.inl h)
      · rcases Nat.lt_or_ge n m with hm | hm
        · obtain rfl : m = n + 1 := by omega
          exact .inr h
        · exact .inl (.inr ⟨m, h1, hm, h⟩)

/-- A run of `n` products of magnitude at most `B` stays within `n * B`. -/
theorem abs_sum_le {p : Nat → Int} {B : Int} (n : Nat) (h : ∀ j, |p j| ≤ B) : |∑ j ∈ Finset.range n, p j| ≤ n * B := by
  refine (Finset.abs_sum_le_sum_abs _ _).trans ((Finset.sum_le_card_nsmul _ _ B fun j _ => h j).trans ?_)
  simp

/-! ## Rounding up, once more -/

theorem ceilDiv_zero {b : Nat} (hb : 0 < b) : ceilDiv 0 b = 0 := Nat.le_zero.1 ((ceilDiv_le_iff hb).2 (Nat.zero_le _))

theorem ceilDiv_step {n h b : Nat} (hb : 0 < b) (hl : h < n) : ceilDiv (n - h) b = ceilDiv (n - (h + b)) b + 1 := by
  refine le_antisymm ?_ ?_
  · rw [ceilDiv_le_iff hb, Nat.add_mul]
    have := (ceilDiv_le_iff (a := n - (h + b)) hb).1 le_rfl
    omega
  · rw [Nat.succ_le_iff, lt_ceilDiv_iff hb]
    rcases Nat.eq_zero_or_pos (ceilDiv (n - (h + b)) b) with h0 | h0
    · rw [h0]; omega
    · have := (lt_ceilDiv_iff (a := n - (h + b)) (j := ceilDiv (n - (h + b)) b - 1) hb).1 (by omega)
      obtain ⟨c, hc⟩ : ∃ c, ceilDiv (n - (h + b)) b = c + 1 := ⟨_, (Nat.succ_pred_eq_of_pos h0).symm⟩
      rw [hc] at this ⊢
      simp only [Nat.add_sub_cancel] at this
      rw [Nat.add_mul]
      omega

/-! ## The two loops as runs of taps (R204) -/

/-- The product of tap `j` of an UpOnly wing that starts at entry `h` and frame `w`. -/
def tapUp (P : Params) (tab : Nat → Coefficient) (interp : Bool) (W : Int → Int) (inc : Int) (a h : Nat) (w : Int) (j : Nat) : Int :=
  roundProd P (coef P interp (tab (h + P.npc * j)) a) (W (w + inc * j))

theorem wingUpLoop_eq (tab : Nat → Coefficient) (interp : Bool) (W : Int → Int) (inc : Int) (last a fuel h : Nat) (w : Int)
    (acc : Monitored) (hf : last ≤ h + fuel) :
    wingUpLoop P tab interp W inc last a fuel h w acc =
      runTaps acc (tapUp P tab interp W inc a h w) (ceilDiv (last - h) P.npc) := by
  have hn : 0 < P.npc := Nat.two_pow_pos _
  induction fuel generalizing h w acc with
  | zero => rw [show last - h = 0 by omega, ceilDiv_zero hn]; rfl
  | succ fuel ih =>
    rw [wingUpLoop]
    split
    · rename_i hl
      rw [ih _ _ _ (by omega), ceilDiv_step hn hl, runTaps_succ']
      congr 1
      · simp [tapUp]
      · funext j
        have e1 : h + P.npc * (j + 1) = h + P.npc + P.npc * j := by ring
        have e2 : w + inc * ((j + 1 : ℕ) : ℤ) = w + inc + inc * j := by push_cast; ring
        rw [tapUp, tapUp, e1, e2]
    · rw [show last - h = 0 by omega, ceilDiv_zero hn]; rfl

/-- The product of tap `j` of an UpDown wing that starts at table position `ho` and frame `w`. -/
def tapUD (P : Params) (tab : Nat → Coefficient) (interp : Bool) (W : Int → Int) (inc : Int) (dhb ho : Nat) (w : Int) (j : Nat) : Int :=
  roundProd P (coef P interp (tab ((ho + dhb * j) / 2 ^ P.na)) (tapFraction P interp (ho + dhb * j))) (W (w + inc * j))

theorem wingUDLoop_eq (tab : Nat → Coefficient) (interp : Bool) (W : Int → Int) (inc : Int) (last dhb fuel ho : Nat) (w : Int)
    (acc : Monitored) (hd : 1 ≤ dhb) (hf : last * 2 ^ P.na ≤ ho + fuel) :
    wingUDLoop P tab interp W inc last dhb fuel ho w acc =
      runTaps acc (tapUD P tab interp W inc dhb ho w) (ceilDiv (last * 2 ^ P.na - ho) dhb) := by
  have ha : 0 < 2 ^ P.na := Nat.two_pow_pos _
  induction fuel generalizing ho w acc with
  | zero => rw [show last * 2 ^ P.na - ho = 0 by omega, ceilDiv_zero hd]; rfl
  | succ fuel ih =>
    rw [wingUDLoop]
    split
    · rename_i hl
      have hl' : ho < last * 2 ^ P.na := (Nat.div_lt_iff_lt_mul ha).1 hl
      rw [ih _ _ _ (by omega), ceilDiv_step hd hl', runTaps_succ']
      congr 1
      · simp [tapUD]
      · funext j
        have e1 : ho + dhb * (j + 1) = ho + dhb + dhb * j := by ring
        have e2 : w + inc * ((j + 1 : ℕ) : ℤ) = w + inc + inc * j := by push_cast; ring
        rw [tapUD, tapUD, e1, e2]
    · rename_i hl
      have hl' : last * 2 ^ P.na ≤ ho := by
        rw [Nat.div_lt_iff_lt_mul ha] at hl
        omega
      rw [show last * 2 ^ P.na - ho = 0 by omega, ceilDiv_zero hd]; rfl

/-- An UpOnly wing is a run of its taps. -/
theorem wingUp_eq (tab : Nat → Coefficient) (act : ActiveConfig) (W : Int → Int) (side : Wing) (n0 : Int) (ph : Nat) :
    wingUp P tab act W side n0 ph =
      runTaps Monitored.zero
        (tapUp P tab act.interpAct W side.inc (tapFraction P act.interpAct ph) (firstEntryUp P side ph) n0)
        (ceilDiv (side.endOf act.nwingAct.toNat - firstEntryUp P side ph) P.npc) :=
  wingUpLoop_eq _ _ _ _ _ _ _ _ _ _ (by omega)

/-- An UpDown wing is a run of its taps. -/
theorem wingUD_eq (tab : Nat → Coefficient) (act : ActiveConfig) (W : Int → Int) (side : Wing) (n0 : Int) (ph : Nat)
    (hd : 1 ≤ act.dhb.toNat) :
    wingUD P tab act W side n0 ph =
      runTaps Monitored.zero
        (tapUD P tab act.interpAct W side.inc act.dhb.toNat (firstPositionUD P act.dhb.toNat side ph) n0)
        (ceilDiv (side.endOf act.nwingAct.toNat * 2 ^ P.na - firstPositionUD P act.dhb.toNat side ph) act.dhb.toNat) :=
  wingUDLoop_eq _ _ _ _ _ _ _ _ _ _ hd (by omega)

end Sys2Proof.Machine
end

