-- ==== Sys2Proof/Tests/Slice0.lean ====
section
/-! SUPPORT. Tests/Slice0.lean: the smoke test of the well-formedness checks, decoding on words written out from R90 and R91, the
spec's own worked numbers (R146, R147, R182, R191, R192, R206, R207, R230, R232, R236 and 95_test_vectors.md) on single steps,
and a witness for the hypotheses of every statement. -/

namespace Sys2Proof.Tests

open Sys2Proof Sys2Proof.Machine

/-! ## Well-formedness: an ill-formed term for each check -/

/-- R92: RSV bit 4 set. -/
theorem test_wf_refuses_reserved_bit : commandRsvZero 0x00000012#32 = false ∧ commandWordWf 0x00000012#32 = false := by decide

/-- R92: OP 0 and OP 5. -/
theorem test_wf_refuses_reserved_op : commandOpLegal 0x00000000#32 = false ∧ commandWordWf 0x00000005#32 = false := by decide

theorem test_wf_accepts_commands : commandWordWf (encode .create) = true ∧ commandWordWf (encode .destroy) = true := by decide

/-- R9: `Np = Nhc + Na` broken, `Nhg = Nh - Nhxn` broken. -/
theorem test_wf_refuses_relations :
    ({ Config.pfr with na := 8 } : Params).wf = false ∧ ({ Config.pfr with nhg := 3 } : Params).wf = false := by decide

/-- R62: a capacity that does not fit its region. -/
theorem test_wf_refuses_capacity :
    ({ Config.pfr with ctabDepth := 245761 } : Params).wf = false ∧ ({ Config.pfr with inFramesMax := 262145 } : Params).wf = false ∧
      ({ Config.pfr with outFramesMax := 524289 } : Params).wf = false := by decide

/-- R10, R31: a sample width other than 16, an XBUF whose creep NCREEP could not hold; R11, R205: an accumulator too narrow. -/
theorem test_wf_refuses_widths :
    ({ Config.pfr with nb := 15 } : Params).widthsWf = false ∧ ({ Config.pfr with xbufFramesMax := 65536 } : Params).widthsWf = false ∧
      ({ Config.pfr with ctabDepth := 0 } : Params).capacitiesWf = false ∧ ({ Config.pfr with accW := 32 } : Params).accWide = false := by
  decide

theorem test_wf_accepts_defaults : Config.pfr.wf = true := by decide

/-- R110, R117: no entry, too many entries, LpScl 0. -/
theorem test_wf_refuses_tables :
    TableHeader.wf Config.pfr { nwing := 0, nmult := 3, lpscl := 1 } = false ∧
      TableHeader.wf Config.pfr { nwing := 16385, nmult := 3, lpscl := 1 } = false ∧
      TableHeader.wf Config.pfr { nwing := 1, nmult := 3, lpscl := 0 } = false := by decide

/-! ## Decoding: words written out bit by bit from R90 and R91 -/

theorem test_decode_create : decode 0b0000000000000000000000000000_0001#32 = .ok .create := by decide
theorem test_decode_process : decode 0b0000000000000000000000000000_0010#32 = .ok .process := by decide
theorem test_decode_flush : decode 0b0000000000000000000000000000_0011#32 = .ok .flush := by decide
theorem test_decode_destroy : decode 0b0000000000000000000000000000_0100#32 = .ok .destroy := by decide

/-- R92: reserved OPs and a set RSV bit are refused by name. -/
theorem test_decode_refuses :
    decode 0x0000000F#32 = .error (.reservedOp 15#4) ∧ decode 0x80000001#32 = .error .reservedBits ∧
      decodeBytes [1#8, 0#8, 0#8] = .error .truncated := by decide

/-- R67: the low byte of the word comes first. -/
theorem test_decode_bytes : decodeBytes [2#8, 0#8, 0#8, 0#8, 7#8] = .ok (.process, [7#8]) := by decide

theorem test_table_word : decodeTableWord 32 3 = some .flush ∧ decodeTableWord 8 4 = some .destroy := by decide

/-! ## Arithmetic -/

/-- Rows of R146 and of 95_test_vectors.md 2.1: ties, the clamp, and the row a wrapping add would get wrong. -/
theorem test_quantize_fir :
    quantize Config.pfr 4095 13 = 0 ∧ quantize Config.pfr 4096 13 = 1 ∧ quantize Config.pfr (-4096) 13 = 0 ∧ quantize Config.pfr (-4097) 13 = -1 ∧
      quantize Config.pfr (-12288) 13 = -1 ∧ quantize Config.pfr 268431360 13 = 32767 ∧ quantize Config.pfr (-268439553) 13 = -32768 ∧
      quantize Config.pfr 2147483647 13 = 32767 ∧ quantizeOvf 2147479551 13 = false ∧ quantizeOvf 2147479552 13 = true ∧
      quantizeOvf (-2147483648) 13 = false := by decide

/-- Rows of R182. -/
theorem test_fast_blend :
    quantize Config.pfr (fastBlend Config.pfr 1 2 16384) 15 = 2 ∧ quantize Config.pfr (fastBlend Config.pfr (-1) (-2) 16384) 15 = -1 ∧
      quantize Config.pfr (fastBlend Config.pfr (-32768) 32767 16384) 15 = 0 ∧
      quantize Config.pfr (fastBlend Config.pfr 32767 (-32768) 32767) 15 = -32766 := by decide

/-- R191's examples and the corners of 95_test_vectors.md 2.8. -/
theorem test_coef :
    coef Config.pfr true { imp := 13664, impd := -32 } 36 = 13655 ∧
      coef Config.pfr true { imp := -32768, impd := -32768 } 127 = -65280 ∧
      coef Config.pfr true { imp := 32767, impd := 32767 } 127 = 65278 ∧
      coef Config.pfr false { imp := 13664, impd := -32 } 36 = 13664 := by decide

/-- R192's examples and the corners of 95_test_vectors.md 2.8. -/
theorem test_round_prod :
    roundProd Config.pfr 13655 2000 = 1667 ∧ roundProd Config.pfr 1 8192 = 1 ∧ roundProd Config.pfr 1 (-8192) = 0 ∧
      roundProd Config.pfr 3 (-8192) = -1 ∧ roundProd Config.pfr (-65280) (-32768) = 130560 ∧
      roundProd Config.pfr (-65280) 32767 = -130556 := by decide

/-- The test table TT1 of 95_test_vectors.md. -/
def tt1 (h : Nat) : Coefficient := { imp := 16384 - 32 * h, impd := -32 }

/-- The ramp of R206 as a window whose first IN frame is `first`. -/
def rampWindow (first : Int) (sign : Int) (w : Int) : Int := if w < first then 0 else sign * 1000 * (w - first + 1)

/-- The configuration of R206. -/
def upAct : ActiveConfig :=
  { mode := .upOnly, interpAct := true, tsel := .custom, lpsclRaw := 17246, xoff := 12, dtb := 21845, dhb := 32768,
    lpsclEff := 16384, nwingAct := 512, nmultAct := 3 }

/-- The configuration of R207. -/
def downAct : ActiveConfig :=
  { mode := .upDown, interpAct := true, tsel := .custom, lpsclRaw := 17246, xoff := 13, dtb := 43691, dhb := 24576,
    lpsclEff := 12288, nwingAct := 512, nmultAct := 3 }

/-- R206, output 20, both channels; R209 without interpolation. -/
theorem test_up_only_output :
    (kernelOut Config.pfr tt1 upAct (rampWindow 24 1) 830116).v = 2332 ∧
      (kernelOut Config.pfr tt1 upAct (rampWindow 24 (-1)) 830116).v = -2334 ∧
      (kernelOut Config.pfr tt1 { upAct with interpAct := false } (rampWindow 24 1) 830116).v = 2338 := by decide +kernel

/-- R208 (a): the centre tap is not read twice. -/
theorem test_up_only_centre :
    (kernelOut Config.pfr tt1 { upAct with dtb := 32768 } (rampWindow 24 1) 1048576).v = 9000 := by decide +kernel

/-- R207, output 15, both channels. -/
theorem test_up_down_output :
    (kernelOut Config.pfr tt1 downAct (rampWindow 26 1) 1081349).v = 8250 ∧
      (kernelOut Config.pfr tt1 downAct (rampWindow 26 (-1)) 1081349).v = -8251 := by decide +kernel

/-- R94 (G2): 1.0, 0.5, the smallest subnormal, -0, infinity, NaN. -/
theorem test_fval :
    fval 0x3FF0000000000000#64 = .finite 1 ∧ fval 0x3FE0000000000000#64 = .finite (1 / 2) ∧
      fval 0xBFF0000000000000#64 = .finite (-1) ∧ fval 0x8000000000000000#64 = .zero true ∧
      fval 0x7FF0000000000000#64 = .infinity false ∧ fval 0x7FF8000000000000#64 = .nan := by decide +kernel

/-! ## Small states -/

/-- What a step's outcome leaves, for reading one field of it. -/
def outcomeState (s : State) (r : Result) : State :=
  match r with
  | .next t => t
  | .fault _ => s
  | .refused _ => s

/-- A state whose pending command is `i`, with the given factor and selector latched. -/
def pendingCreate (bits : BitVec 64) (quality : BitVec 4) (interp valid : Bool) (nwing nmult lpscl : BitVec 16) : State :=
  { State.reset with
    busy := true, pending := opOf .create, lastOp := opOf .create
    latched :=
      { Latched.none with
        factorBits := bits, quality := quality, interp := interp, ctabValid := valid, nwing := nwing, nmult := nmult,
        lpscl := lpscl } }

/-- Fast at `f = 1` on a fresh stream (the first CREATE of R232). -/
def fastAct : ActiveConfig := { ActiveConfig.unconfigured with xoff := 10, dtb := 32768 }

/-- A configured Fast machine. -/
def readyFast : State :=
  { State.reset with ready := true, act := fastAct, xbuf := List.replicate 20 Frame.zero }

/-- The IN frames `(i+1, -(i+1))`, `i < n`, of the example of R235. -/
def rampMemory (n : Nat) : Memory :=
  Memory.write [] inBase (bytesOfWords ((List.range n).map fun i =>
    wordOfFrame { left := BitVec.ofNat 16 (i + 1), right := BitVec.ofInt 16 (-((i : Int) + 1)) }))

/-- The Fast machine with a PROCESS of `n` frames pending. -/
def pendingFast (n : Nat) : State :=
  { readyFast with
    busy := true, pending := opOf .process, lastOp := opOf .process, mem := rampMemory n
    latched := { Latched.none with inCount := BitVec.ofNat 24 n, mem := rampMemory n } }

/-! ## One step of each command -/

/-- R230's example and R232's first row: STATUS, XOFF, DTB after CREATE Basic at 1.0. -/
theorem test_create_basic :
    let t := outcomeState State.reset (step (pendingCreate 0x3FF0000000000000#64 0 false false 0 0 0))
    csrRead t .status = 0x00001002#32 ∧ csrRead t .xoff = 10#32 ∧ csrRead t .dtb = 32768#32 := by decide +kernel

/-- R232's third row: CREATE with TT1's descriptor at 0.5. -/
theorem test_create_up_down :
    let t := outcomeState State.reset (step (pendingCreate 0x3FE0000000000000#64 3 true true 512 3 17246))
    csrRead t .status = 0x0000180A#32 ∧ csrRead t .xoff = 14#32 ∧ csrRead t .dtb = 65536#32 ∧ csrRead t .dhb = 16384#32 ∧
      csrRead t .lpsclEff = 8192#32 := by decide +kernel

/-- R235's example: the delayed identity of 20 frames. -/
theorem test_process_identity :
    let t := outcomeState State.reset (step (pendingFast 20))
    csrRead t .status = 0x00002002#32 ∧ csrRead t .outCount = 20#32 ∧ wordAt 0 t.mem (outAddr 9) = 0#32 ∧
      wordAt 0 t.mem (outAddr 10) = 0xFFFF0001#32 ∧ wordAt 0 t.mem (outAddr 19) = 0xFFF6000A#32 ∧
      t.xbuf[19]? = some (frameOfWord 0xFFEC0014#32) := by decide +kernel

/-- R236's second row: 19 frames are too short, and nothing but ERR and BUSY changes. -/
theorem test_process_short :
    step (pendingFast 19) = .next { pendingFast 19 with err := .precondShort, busy := false } := by rfl

/-- R240's pseudocode on a machine with a position and a count. -/
theorem test_flush :
    let s := { readyFast with
      busy := true, pending := opOf .flush, pos := { ncreep := 1, tfrac := 21848 }, outCount := 8,
      xbuf := List.replicate 20 (frameOfWord 0xFFFF0001#32) }
    let t := outcomeState s (step s)
    t.pos = Position.fresh ∧ t.outCount = 0 ∧ t.xbuf = List.replicate 20 Frame.zero ∧ t.err = .none := by decide +kernel

/-- R243's example: DESTROY gives STATUS 0x00004000 when no sticky flag was set, and 2.9 (c): 0x00004100 keeps ACC_OVF. -/
theorem test_destroy :
    let s := { readyFast with busy := true, pending := opOf .destroy, lastOp := opOf .destroy }
    let t := outcomeState s (step s)
    let u := outcomeState s (step { s with sticky := { accOvf := true, overrun := false, ctabWlock := false } })
    csrRead t .status = 0x00004000#32 ∧ csrRead t .xoff = 0#32 ∧ csrRead u .status = 0x00004100#32 := by decide +kernel

/-- 95_test_vectors.md 2.2: FLUSH after reset raises STATE; an illegal word gives CMD_ILLEGAL at the write. -/
theorem test_status_of_errors :
    csrRead (outcomeState State.reset (step (State.reset.withFetchWord 32 3))) .status = 0x000030C0#32 ∧
      csrRead (busWrite Config.pfr State.reset 0#22 0x00000012#32) .status = 0x000020D0#32 := by decide +kernel

/-- Program P2: a CTAB write while READY is dropped and sets CTAB_WLOCK. -/
theorem test_ctab_lock :
    (busWrite Config.pfr readyFast 0x010000#22 0#32).sticky.ctabWlock = true ∧ (busWrite Config.pfr readyFast 0x010000#22 0#32).mem = [] := by
  decide +kernel

/-! ## States for the witnesses -/

theorem memoryOk_nil : MemoryOk Config.pfr [] := ⟨by simp, by simp⟩

theorem memoryOk_ramp {n : Nat} (h : n ≤ 65536) : MemoryOk Config.pfr (rampMemory n) := by
  refine ⟨Memory.write_wf (by simp) _ _, fun c hc => ?_⟩
  rcases Memory.mem_write hc with hc | hc
  · cases hc
  · have h1 : c.1 < inBase + 4 * n := by simpa using hc.2
    refine .inr (.inl ⟨hc.1, lt_of_lt_of_le h1 ?_⟩)
    change inBase + 4 * n ≤ inBase + 4 * 65536
    omega

theorem inv_reset : Inv Config.pfr State.reset :=
  ⟨memoryOk_nil, memoryOk_nil, by simp [State.reset], by simp [State.reset], fun _ => ⟨⟨rfl, rfl⟩, rfl, rfl⟩⟩

/-- What R40 and the records say of READY depends on the configuration, the position and XBUF alone. -/
theorem readyOk_congr {s s' : State} (ha : s.act = s'.act) (hp : s.pos = s'.pos) (hx : s.xbuf = s'.xbuf)
    (h : ReadyOk Config.pfr s' ∧ RecordOk Config.pfr s') : ReadyOk Config.pfr s ∧ RecordOk Config.pfr s := by
  obtain ⟨⟨h1, h2, h3, h4, h5, h6, h7, h8⟩, g1, g2, g3, g4, g5, g6⟩ := h
  rw [← ha] at h1 h3 h4 h5 h6 h7 h8 g1 g2 g3 g4 g5 g6
  rw [← hp] at h1 h2
  rw [← hx] at g6
  exact ⟨⟨h1, h2, h3, h4, h5, h6, h7, h8⟩, g1, g2, g3, g4, g5, g6⟩

theorem readyOk_fast : ReadyOk Config.pfr readyFast ∧ RecordOk Config.pfr readyFast :=
  ⟨⟨by decide, by decide, by decide, by decide, by decide, by decide, by decide, by decide⟩,
    ⟨by decide, by decide, by decide, by decide, by decide, rfl⟩⟩

theorem inv_pendingFast {n : Nat} (h : n ≤ 65536) : Inv Config.pfr (pendingFast n) :=
  ⟨memoryOk_ramp h, memoryOk_ramp h, fun _ => ⟨.process, decode_pending_of_opOf rfl⟩,
    fun _ => readyOk_congr (s' := readyFast) rfl rfl rfl readyOk_fast, by simp [pendingFast, readyFast]⟩

/-- A configured UpOnly machine with TT1's descriptor (R206). -/
def readyUp : State := { State.reset with ready := true, act := upAct, xbuf := List.replicate 24 Frame.zero }

theorem inv_readyUp : Inv Config.pfr readyUp :=
  ⟨memoryOk_nil, memoryOk_nil, by simp [readyUp, State.reset],
    fun _ => ⟨⟨by decide, by decide, by decide, by decide, by decide, by decide, by decide, by decide⟩,
      ⟨by decide, by decide, by decide, by decide, by decide, rfl⟩⟩,
    by simp [readyUp]⟩

theorem blockFits_pendingFast : BlockFits (pendingFast 20) 20 := ⟨rfl, rfl, by decide, by decide⟩

theorem loopCount_pendingFast :
    LoopCount (startTime Config.pfr (pendingFast 20)) (endTime Config.pfr (pendingFast 20) 20) (pendingFast 20).act.dtb.toNat 20 := by
  constructor
  · intro j hj
    change (0 + 10) * 2 ^ 15 + 0 + j * 32768 < (10 + 20) * 2 ^ 15
    omega
  · change (10 + 20) * 2 ^ 15 ≤ (0 + 10) * 2 ^ 15 + 0 + 20 * 32768
    omega

/-- A Fast machine at `f = 65536` (DTB 1), 20 frames pending: 655360 outputs would not fit OUT (95_test_vectors.md 2.4 d). -/
def pendingDense : State := { pendingFast 20 with act := { fastAct with dtb := 1 } }

/-- An UpOnly machine with a flat full-scale table of 258 entries and the gain of 95_test_vectors.md 2.9, 24 frames pending. -/
def pendingFlat : State :=
  let mem := Memory.write (Memory.write (Memory.write [] (ctabAddr 0) (bytesOfWord 0x00007FFF#32))
    (ctabAddr 256) (bytesOfWord 0x00007FFF#32)) inBase (bytesOfWords (List.replicate 24 0x80007FFF#32))
  { readyUp with
    busy := true, pending := opOf .process, mem := mem
    act := { upAct with dtb := 32768, lpsclEff := 62258, nwingAct := 258, interpAct := false }
    latched := { Latched.none with inCount := 24, mem := mem } }

/-! ## Witnesses: a concrete state and operands for the hypotheses of every statement -/

theorem wit_StepRunsPendingCommand :
    (pendingFast 20).busy = true ∧ ((pendingFast 20).env.host = [] ∨ (pendingFast 20).env.wait = 0) ∧
      decode (0#28 ++ (pendingFast 20).pending) = .ok .process := ⟨rfl, .inl rfl, by decide⟩

theorem wit_HostMovesOrBlockIdles :
    (let s := { State.reset with env := { Env.start with host := [.poll] } };
      s.env.host = .poll :: [] ∧ (s.busy = false ∨ s.env.wait ≠ 0)) ∧
    (let s := { pendingFast 20 with env := { Env.start with host := [.poll], wait := 1 } };
      s.env.host = .poll :: [] ∧ (s.busy = false ∨ s.env.wait ≠ 0)) ∧
    State.reset.env.host = [] ∧ State.reset.busy = false := by decide

theorem wit_AcceptedCommandCompletes :
    Inv Config.pfr (pendingFast 20) ∧ (pendingFast 20).busy = true ∧ decode (0#28 ++ (pendingFast 20).pending) = .ok .process ∧
      HostOp.reset ∉ (pendingFast 20).env.host :=
  ⟨inv_pendingFast (by decide), rfl, by decide, by decide⟩

theorem wit_CommandAcceptance :
    (pendingFast 20).busy = true ∧
      (State.reset.busy = false ∧ (0x00000012#32).extractLsb' 4 28 ≠ 0#28) ∧
      (State.reset.busy = false ∧ ∀ i, (0x00000005#32).extractLsb' 0 4 ≠ opOf i) ∧
      (State.reset.busy = false ∧ (0x00000004#32).extractLsb' 4 28 = 0#28 ∧ (0x00000004#32).extractLsb' 0 4 = opOf .destroy) :=
  ⟨rfl, by decide, ⟨rfl, fun i => by cases i <;> decide⟩, by decide⟩

theorem wit_RunningCommandKeepsItsOperands :
    (pendingFast 20).busy = true ∧ HostOp.write 0x20#22 7#32 ≠ .reset := ⟨rfl, by decide⟩

theorem wit_LastOpFollowsCommandWrites :
    let s := { State.reset with env := { Env.start with host := [.write 0#22 0x00000003#32] } }
    (∃ t, step s = .next t) ∧ s.busy = false ∧ nextMove s = .host (.write 0#22 0x00000003#32) [] ∧
      (outcomeState s (step s)).lastOp ≠ s.lastOp := ⟨⟨_, rfl⟩, rfl, rfl, by decide +kernel⟩

theorem wit_HostRegistersReadBack : (0x20#22 : Offset) ≠ 0x24#22 ∧ (0x20#22 : Offset) ≠ 0x00#22 ∧ (0x20#22 : Offset).toNat < 0x100 := by
  decide

theorem wit_ReadbackRegistersReadTheirFields :
    (0x04#22 : Offset).toNat = 0x04 ∧ 0x24 ≤ (0x24#22 : Offset).toNat ∧ (0x44#22 : Offset).toNat ≤ 0x44 := by decide

theorem wit_UnmappedAndReservedAreIgnored :
    (0x101#22 : Offset).toNat % 4 ≠ 0 ∧ (0x48 ≤ (0x48#22 : Offset).toNat ∧ (0xFC#22 : Offset).toNat ≤ 0xFC) ∧
      ∀ a ∈ [0x100#22, 0x020000#22, 0x140000#22, 0x300000#22],
        ¬ (a.toNat < 0x100 ∨ (0x010000 ≤ a.toNat ∧ a.toNat < 0x010000 + 4 * 16384) ∨
          (0x100000 ≤ a.toNat ∧ a.toNat < 0x100000 + 4 * 65536) ∨ (0x200000 ≤ a.toNat ∧ a.toNat < 0x200000 + 4 * 262144)) := by
  refine ⟨by decide, by decide, ?_⟩
  simp

theorem wit_HostMemoryReadsBack :
    State.reset.busy = false ∧ State.reset.ready = false ∧
      (let a := (0x13FFFC#22 : Offset).toNat; a % 4 = 0 ∧ 0x100000 ≤ a ∧ a < 0x100000 + 4 * 65536) ∧
      (let a := (0x2FFFFC#22 : Offset).toNat; a % 4 = 0 ∧ 0x200000 ≤ a ∧ a < 0x200000 + 4 * 262144) ∧
      (let a := (0x01FFFC#22 : Offset).toNat; a % 4 = 0 ∧ 0x010000 ≤ a ∧ a < 0x010000 + 4 * 16384) := by decide

theorem wit_WordsAreLittleEndian : (3 : Nat) < 4 := by decide

theorem wit_CtabWriteLock :
    (16383 : Nat) < 16384 ∧ readyFast.ready = true ∧ (pendingFast 20).busy = true ∧ State.reset.ready = false ∧
      State.reset.busy = false ∧ (0x00FFFF : Nat) < 0x010000 + 4 * 0 ∧ 0x010000 + 4 * 0 + 4 ≤ 0x010004 := by decide

theorem wit_CtabFixedWhileConfigured :
    let s := { readyFast with env := { Env.start with host := [.write 0x010000#22 5#32] } }
    (∃ t, step s = .next t) ∧ (∀ rest, nextMove s ≠ .host .reset rest) ∧ s.ready = true ∧ 0x010000 ≤ 0x010000 ∧
      0x0FFFFF < 0x100000 := ⟨⟨_, rfl⟩, (fun _ h => nomatch h), rfl, by decide, by decide⟩

theorem wit_HostAccessWhileBusyIsContained :
    (pendingFast 20).busy = true ∧
      (let a := (0x100000#22 : Offset).toNat; a % 4 = 0 ∧ 0x100000 ≤ a ∧ a < 0x100000 + 4 * 65536) ∧
      (let a := (0x2FFFFC#22 : Offset).toNat; a % 4 = 0 ∧ 0x200000 ≤ a ∧ a < 0x200000 + 4 * 262144) := by decide

theorem wit_FailingCommandChangesOnlyErrAndBusy :
    (∃ t, exec .flush State.reset = .next t ∧ t.err ≠ .none) ∧ State.reset.busy = false ∧
      decode 0x00000012#32 = .error .reservedBits := ⟨⟨_, rfl, by decide⟩, rfl, by decide⟩

theorem wit_RatioCheck :
    let s := pendingCreate 0x7FF0000000000000#64 0 false false 0 0 0
    State.reset.ready = false ∧ RefusedRatio (fval State.reset.latched.factorBits) ∧ s.ready = false ∧
      fval s.latched.factorBits = .infinity false ∧ s.latched.quality = 0 :=
  ⟨rfl, .inr (.inl (by decide +kernel)), rfl, by decide +kernel, rfl⟩

/-- One state for each clause of CREATE's error order: R232's error rows. -/
theorem wit_CreateErrorsInOrder_selection :
    readyFast.ready = true ∧ RefusedRatio (fval State.reset.latched.factorBits) ∧
      positiveFactor (fval 0x3FF0000000000000#64) = some (.finite 1) ∧
      4 ≤ (pendingCreate 0x3FF0000000000000#64 4 false false 0 0 0).latched.quality.toNat ∧
      (pendingCreate 0x3FF0000000000000#64 3 false false 512 3 17246).latched.ctabValid = false ∧
      (pendingCreate 0x3FF0000000000000#64 3 false true 0 3 17246).latched.nwing = 0 ∧
      16384 < (pendingCreate 0x3FF0000000000000#64 3 false true 16385 3 17246).latched.nwing.toNat ∧
      (pendingCreate 0x3FF0000000000000#64 3 false true 512 3 0).latched.lpscl = 0 :=
  ⟨rfl, .inr (.inl (by decide +kernel)), by decide +kernel, by decide, rfl, rfl, by decide, rfl⟩

/-- A custom selection with the given header. -/
def customSel (nwing nmult lpscl : BitVec 16) : Selection := { tsel := .custom, header := { nwing, nmult, lpscl } }

/-- The Basic selection. -/
def basicSel : Selection := { tsel := .none, header := { nwing := 0, nmult := 0, lpscl := 0 } }

/-- The four derived checks of R231 fail first on R232's rows 65537.0, 0.0005, 1.0 and 0.04. -/
theorem wit_CreateErrorsInOrder_derived :
    positiveFactor (fval 0x40F0001000000000#64) = some (.finite 65537) ∧
      (derive Config.pfr basicSel (.finite 65537)).dtb < 1 ∧
      selectTable Config.pfr (pendingCreate 0 3 false true 512 13 17246).latched = .ok (customSel 512 13 17246) ∧
      (let d := derive Config.pfr (customSel 512 13 17246) (.finite (1 / 2000));
        rangeFails d = false ∧ 16384 < 2 * d.xoff) ∧
      (let d := derive Config.pfr (customSel 8192 13 17246) (.finite 1);
        rangeFails d = false ∧ allocFails Config.pfr d = false ∧ d.xoff + 1 < lmaxOf Config.pfr d.mode 8192 d.dhb) ∧
      (let d := derive Config.pfr basicSel (.finite (1 / 25));
        rangeFails d = false ∧ allocFails Config.pfr d = false ∧ reachFails Config.pfr d 0 = false ∧
          2 * d.xoff < (d.dtb - 1) / 2 ^ 15) := by decide +kernel

theorem wit_ProcessErrorsInOrder :
    State.reset.ready = false ∧ 65536 < (pendingFast 65537).latched.inCount.toNat ∧
      (pendingFast 19).latched.inCount.toNat < 2 * (pendingFast 19).act.xoff.toNat + (pendingFast 19).pos.ncreep.toNat ∧
      BlockFits pendingDense 20 ∧ Inv Config.pfr pendingDense ∧
      LoopCount (startTime Config.pfr pendingDense) (endTime Config.pfr pendingDense 20) pendingDense.act.dtb.toNat 655360 := by
  refine ⟨rfl, by decide +kernel, by decide +kernel, ⟨rfl, rfl, by decide, by decide⟩, ⟨memoryOk_ramp (by decide), memoryOk_ramp (by decide),
    fun _ => ⟨.process, decode_pending_of_opOf rfl⟩,
    fun _ => ⟨⟨by decide, by decide, by decide, by decide, by decide, by decide, by decide, by decide⟩,
      ⟨by decide, by decide, by decide, by decide, by decide, rfl⟩⟩,
    by simp [pendingDense, pendingFast, readyFast]⟩, ?_, ?_⟩
  · intro j hj
    change (0 + 10) * 2 ^ 15 + 0 + j * 1 < (10 + 20) * 2 ^ 15
    omega
  · change (10 + 20) * 2 ^ 15 ≤ (0 + 10) * 2 ^ 15 + 0 + 655360 * 1
    omega

theorem wit_Binary64Decoding : (2047 : Nat) < 2048 ∧ (2 ^ 52 - 1 : Nat) < 2 ^ 52 ∧ (1 : Nat) ≤ 2046 := by decide

theorem wit_CreateBasicCompletes :
    let s := pendingCreate 0x3FF0000000000000#64 0 true false 0 0 0
    s.ready = false ∧ fval s.latched.factorBits = .finite 1 ∧ (0 : ℚ) < 1 ∧ s.latched.quality = 0 ∧
      1 ≤ ⌊(2 : ℚ) ^ 15 / 1 + 1 / 2⌋ ∧ (⌊(2 : ℚ) ^ 15 / 1 + 1 / 2⌋ - 1) / 2 ^ 15 ≤ 20 := by decide +kernel

theorem wit_CreateUpOnlyCompletes :
    let s := pendingCreate 0x3FF0000000000000#64 3 true true 512 3 17246
    let h : TableHeader := { nwing := 512, nmult := 3, lpscl := 17246 }
    let x := ⌈((h.nmult.toNat : ℚ) + 1) / 2⌉ + 10
    s.ready = false ∧ fval s.latched.factorBits = .finite 1 ∧ (1 : ℚ) ≤ 1 ∧ BindsTable s.latched .custom h ∧
      1 ≤ ⌊(2 : ℚ) ^ 15 / 1 + 1 / 2⌋ ∧ 2 * x ≤ 16384 ∧ ⌈(h.nwing.toNat : ℚ) / 256⌉ ≤ x + 1 ∧
      ⌈((h.nwing.toNat : ℚ) - 1) / 256⌉ ≤ x :=
  ⟨rfl, by decide +kernel, le_rfl, .inr (.inr (by decide)), by decide +kernel, by decide +kernel, by decide +kernel,
    by decide +kernel⟩

theorem wit_CreateUpDownCompletes :
    let s := pendingCreate 0x3FE0000000000000#64 3 true true 512 3 17246
    let h : TableHeader := { nwing := 512, nmult := 3, lpscl := 17246 }
    let q : ℚ := 1 / 2
    let x := ⌈((h.nmult.toNat : ℚ) + 1) / (2 * q)⌉ + 10
    let b := ⌊q * 2 ^ 15 + 1 / 2⌋
    s.ready = false ∧ fval s.latched.factorBits = .finite q ∧ 0 < q ∧ q < 1 ∧ BindsTable s.latched .custom h ∧
      2 * x ≤ 16384 ∧ ⌈(h.nwing.toNat : ℚ) * 128 / b⌉ ≤ x + 1 ∧ ⌈((h.nwing.toNat : ℚ) - 1) * 128 / b⌉ ≤ x :=
  ⟨rfl, by decide +kernel, by norm_num, by norm_num, .inr (.inr (by decide)), by decide +kernel, by decide +kernel,
    by decide +kernel⟩

theorem wit_DerivedConfigurationBounds :
    (0 : ℚ) < 1 / 2 ∧ (derive Config.pfr (customSel 512 3 17246) (.finite (1 / 2))).mode = .upDown := by decide +kernel

theorem wit_BuiltInTablesAreLegalAndShortTablesPassReach :
    (let h : TableHeader := { nwing := 16384, nmult := 0, lpscl := 1 };
      1 ≤ h.nwing.toNat ∧ h.nwing.toNat ≤ 16384 ∧ 1 ≤ h.lpscl.toNat) ∧
    (derive Config.pfr (customSel 512 3 17246) (.finite 1)).mode = .upOnly ∧
      2 * (customSel 512 3 17246).header.nwing.toNat ≤ 256 * ((customSel 512 3 17246).header.nmult.toNat + 1) := by
  decide +kernel

theorem wit_QuantizerStaysInRange : (1 : Nat) ≤ 1 := by decide

theorem wit_QuantizerRoundsHalfUp : (1 : Nat) ≤ 13 ∧ (-4097 : Int) ≤ -4096 := by decide

theorem wit_FastKernelBlendsWithoutSaturation :
    readyFast.act.mode = .fast ∧ (∀ w, InSampleRange ((fun _ : Int => (32767 : Int)) w)) ∧ ((0 % 2 ^ 15 : Nat) : Int) = 0 :=
  ⟨rfl, by simp [InSampleRange], rfl⟩

theorem wit_CoefficientRange : InSampleRange (-32768) ∧ InSampleRange 32767 ∧ (127 : Nat) ≤ 127 := by
  unfold InSampleRange; decide

theorem wit_ProductRounding : (-65280 : Int) ≤ -65280 ∧ (-65280 : Int) ≤ 65280 ∧ InSampleRange (-32768) := by
  unfold InSampleRange; decide

theorem wit_UpDownWingSumsItsTaps : 1 ≤ downAct.dhb.toNat ∧ 1 ≤ ({ downAct with dhb := 1 } : ActiveConfig).dhb.toNat := by decide

theorem wit_FullStepWingsAgree :
    ({ downAct with dhb := 32768 } : ActiveConfig).dhb.toNat = 2 ^ 15 ∧ (32767 : Nat) < 2 ^ 15 := by decide

theorem wit_KernelsReadOnlyTheBoundTable :
    let tab' := fun h => if h < 512 then { tt1 h with impd := 7 } else { imp := 1, impd := 1 }
    let act := { upAct with interpAct := false }
    (tab' ≠ tt1 ∧ ∀ h, h < act.nwingAct.toNat → (tt1 h).imp = (tab' h).imp ∧ (act.interpAct = true → (tt1 h).impd = (tab' h).impd)) ∧
      pendingFlat.act.tsel = .custom ∧ ({ upAct with tsel := .low } : ActiveConfig).tsel = .low ∧
      ({ upAct with tsel := .med } : ActiveConfig).tsel = .med := by
  refine ⟨⟨fun h => ?_, fun h hh => ?_⟩, rfl, rfl, rfl⟩
  · have := congrFun h 600
    revert this
    decide
  · have h2 : h < 512 := hh
    simp [h2]

theorem wit_WindowReadsStayInside :
    let W : Int → Int := fun _ => 5
    let W' : Int → Int := fun w => if 0 ≤ w ∧ w < 40 then 5 else 9
    Inv Config.pfr (pendingFast 20) ∧ BlockFits (pendingFast 20) 20 ∧ 19 < outputCount Config.pfr (pendingFast 20) 20 ∧
      (∀ w : Int, 0 ≤ w → w < 2 * (pendingFast 20).act.xoff.toNat + 20 → W w = W' w) ∧
      19 < 2 * (pendingFast 20).act.xoff.toNat ∧ (pendingFast 20).xbuf[19]? = some Frame.zero := by
  refine ⟨inv_pendingFast (by decide), blockFits_pendingFast, by decide +kernel, fun w h0 h1 => ?_, by decide, by decide⟩
  have h2 : w < 40 := h1
  simp [h0, h2]

/-- A configured UpDown machine. -/
def readyDown : State := { State.reset with ready := true, act := downAct, xbuf := List.replicate 26 Frame.zero }

/-- For both clauses, at the extreme samples and coefficients, with a whole wing of each FIR mode. -/
theorem wit_AccumulatorNeverWraps :
    (Inv Config.pfr readyUp ∧ readyUp.ready = true ∧ (∀ w, InSampleRange ((fun _ : Int => (-32768 : Int)) w)) ∧
      TableInRange (fun _ => { imp := 32767, impd := 0 })) ∧
    Config.pfr.wf = true ∧ ReadyOk Config.pfr readyUp ∧ RecordOk Config.pfr readyUp ∧
      (Config.pfr.sampleMin ≤ -32768 ∧ (-32768 : Int) ≤ Config.pfr.sampleMax) ∧
      (-2 ^ (Config.pfr.nh - 1) ≤ (-32768 : Int) ∧ (32767 : Int) < 2 ^ (Config.pfr.nh - 1)) ∧
      (readyUp.act.mode = .upOnly ∧ 2 ≤ ceilDiv (Wing.left.endOf readyUp.act.nwingAct.toNat - firstEntryUp Config.pfr .left 0) 256) ∧
      (readyDown.act.mode = .upDown ∧ ReadyOk Config.pfr readyDown ∧ RecordOk Config.pfr readyDown ∧
        2 ≤ ceilDiv (Wing.left.endOf readyDown.act.nwingAct.toNat * 128 - firstPositionUD Config.pfr 24576 .left 0) 24576) :=
  ⟨⟨inv_readyUp, rfl, by simp [InSampleRange], by simp [TableInRange, InSampleRange]⟩,
    by decide, (inv_readyUp.ready rfl).1, (inv_readyUp.ready rfl).2, by decide, by decide, by decide, rfl,
    ⟨by decide, by decide, by decide, by decide, by decide, by decide, by decide, by decide⟩,
    ⟨by decide, by decide, by decide, by decide, by decide, rfl⟩, by decide⟩

theorem wit_ZeroGainIsSilent :
    ({ upAct with lpsclEff := 0 } : ActiveConfig).mode ≠ .fast ∧ ({ upAct with lpsclEff := 0 } : ActiveConfig).lpsclEff = 0 := by
  decide

/-- The hypotheses shared by the statements about a PROCESS that completes. -/
theorem wit_ProcessCompletes :
    Inv Config.pfr (pendingFast 20) ∧ BlockFits (pendingFast 20) 20 ∧ (pendingFast 20).env.hazard = false ∧
      LoopCount (startTime Config.pfr (pendingFast 20)) (endTime Config.pfr (pendingFast 20) 20) (pendingFast 20).act.dtb.toNat 20 ∧
      (20 : Nat) ≤ 262144 := ⟨inv_pendingFast (by decide), blockFits_pendingFast, rfl, loopCount_pendingFast, by decide⟩

theorem wit_ProcessCarriesPositionAndHistory :
    Inv Config.pfr (pendingFast 20) ∧ BlockFits (pendingFast 20) 20 ∧
      LoopCount ((0 + 10) * 2 ^ 15 + 0) ((10 + 20) * 2 ^ 15) 32768 20 ∧ (19 : Nat) < 2 * 10 :=
  ⟨inv_pendingFast (by decide), blockFits_pendingFast, loopCount_pendingFast, by decide⟩

theorem wit_ProcessWritesItsOutputsOnly :
    (Inv Config.pfr (pendingFast 20) ∧ BlockFits (pendingFast 20) 20 ∧ (pendingFast 20).env.hazard = false ∧
      LoopCount (startTime Config.pfr (pendingFast 20)) (endTime Config.pfr (pendingFast 20) 20) (pendingFast 20).act.dtb.toNat 20) ∧
    ∃ t, exec .process (pendingFast 19) = .next t ∧ t.err ≠ .none :=
  ⟨⟨inv_pendingFast (by decide), blockFits_pendingFast, rfl, loopCount_pendingFast⟩, ⟨_, rfl, by decide⟩⟩

theorem wit_ProcessFrame :
    Inv Config.pfr (pendingFast 20) ∧ BlockFits (pendingFast 20) 20 ∧
      LoopCount (startTime Config.pfr (pendingFast 20)) (endTime Config.pfr (pendingFast 20) 20) (pendingFast 20).act.dtb.toNat 20 :=
  ⟨inv_pendingFast (by decide), blockFits_pendingFast, loopCount_pendingFast⟩

theorem wit_OutputCountAndCreepBounds :
    Inv Config.pfr (pendingFast 20) ∧ BlockFits (pendingFast 20) 20 ∧ (pendingFast 20).act.dtb.toNat ≤ 2 ^ 15 ∧
      (pendingFast 20).pos.ncreep = 0 ∧ (pendingFast 20).pos.tfrac = 0 :=
  ⟨inv_pendingFast (by decide), blockFits_pendingFast, by decide, rfl, rfl⟩

theorem wit_UnityFastIsDelayedIdentity :
    let s := pendingFast 20
    Inv Config.pfr s ∧ BlockFits s 20 ∧ s.env.hazard = false ∧ s.act.mode = .fast ∧ s.act.dtb.toNat = 2 ^ 15 ∧
      s.pos.ncreep = 0 ∧ s.pos.tfrac = 0 ∧ s.xbuf = List.replicate (2 * s.act.xoff.toNat) { left := 0, right := 0 } :=
  ⟨inv_pendingFast (by decide), blockFits_pendingFast, rfl, rfl, by decide, rfl, rfl, rfl⟩

/-- A memory of `n` zero IN frames. -/
def zeroMemory (n : Nat) : Memory := Memory.write [] inBase (bytesOfWords (List.replicate n 0#32))

/-- The Fast machine with a PROCESS of `n` zero frames pending. -/
def pendingZero (n : Nat) : State :=
  { pendingFast n with mem := zeroMemory n, latched := { Latched.none with inCount := BitVec.ofNat 24 n, mem := zeroMemory n } }

/-- What the first of two blocks leaves, with the second pending. -/
def secondZero : State :=
  { outcomeState State.reset (exec .process (pendingZero 20)) with
    busy := true, latched := { Latched.none with inCount := 20, mem := zeroMemory 20 } }

theorem memoryOk_zero {n : Nat} (h : n ≤ 65536) : MemoryOk Config.pfr (zeroMemory n) := by
  refine ⟨Memory.write_wf (by simp) _ _, fun c hc => ?_⟩
  rcases Memory.mem_write hc with hc | hc
  · cases hc
  · have h1 : c.1 < inBase + 4 * n := by simpa using hc.2
    refine .inr (.inl ⟨hc.1, lt_of_lt_of_le h1 ?_⟩)
    change inBase + 4 * n ≤ inBase + 4 * 65536
    omega

/-- Every IN frame of the zero block is `(0, 0)`. -/
theorem inFrame_zero {s : State} {n f : Nat} (hm : s.latched.mem = zeroMemory n) (hf : f < n) : inFrame s f = Frame.zero := by
  have h := wordAt_write_words s.env.epoch [] inBase (List.replicate n 0#32) f (by simpa using hf)
  simp only [inFrame, hm, inAddr, zeroMemory, h, List.getElem_replicate]
  decide

theorem wit_BlockSplitInvariance :
    let sa := pendingZero 20
    let sb := secondZero
    let sw := pendingZero 40
    let ta := outcomeState State.reset (exec .process sa)
    (Inv Config.pfr sa ∧ BlockFits sa 20 ∧ BlockFits sb 20 ∧ BlockFits sw (20 + 20)) ∧
      (sa.env.hazard = false ∧ sb.env.hazard = false ∧ sw.env.hazard = false) ∧
      (sw.act = sa.act ∧ sw.pos = sa.pos ∧ sw.xbuf = sa.xbuf) ∧
      ((∀ f, f < 20 → inFrame sw f = inFrame sa f) ∧ (∀ f, f < 20 → inFrame sw (20 + f) = inFrame sb f)) ∧
      (∀ h, h < sa.act.nwingAct.toNat → tableEntry sb h = tableEntry sa h ∧ tableEntry sw h = tableEntry sa h) ∧
      (exec .process sa = .next ta ∧ ta.err = .none ∧ sb.act = ta.act ∧ sb.pos = ta.pos ∧ sb.xbuf = ta.xbuf) ∧
      (∃ tb, exec .process sb = .next tb ∧ tb.err = .none) ∧ ∃ tw, exec .process sw = .next tw ∧ tw.err = .none := by
  refine ⟨⟨⟨memoryOk_zero (by decide), memoryOk_zero (by decide), fun _ => ⟨.process, decode_pending_of_opOf rfl⟩,
      fun _ => ⟨⟨by decide, by decide, by decide, by decide, by decide, by decide, by decide, by decide⟩,
        ⟨by decide, by decide, by decide, by decide, by decide, rfl⟩⟩,
      by simp [pendingZero, pendingFast, readyFast]⟩,
    ⟨rfl, rfl, by decide, by decide⟩, ⟨by decide +kernel, rfl, by decide, by decide +kernel⟩, ⟨rfl, rfl, by decide, by decide⟩⟩,
    ⟨rfl, by decide +kernel, rfl⟩, ⟨rfl, rfl, rfl⟩,
    ⟨fun f hf => ?_, fun f hf => ?_⟩, fun h hh => ?_, ⟨rfl, by decide +kernel, rfl, rfl, rfl⟩, ⟨_, rfl, by decide +kernel⟩,
    ⟨_, rfl, by decide +kernel⟩⟩
  · rw [inFrame_zero (n := 40) rfl (by omega), inFrame_zero (n := 20) rfl hf]
  · rw [inFrame_zero (n := 40) rfl (by omega), inFrame_zero (n := 20) rfl hf]
  · exact absurd hh (by change ¬ h < 0; omega)

theorem wit_BrokenDutyReachesOutWordsOnly :
    ({ Env.start with hazard := true } : Env).epoch = (pendingFast 20).env.epoch := rfl

theorem wit_FlushCompletes : readyFast.ready = true ∧ State.reset.ready = false := ⟨rfl, rfl⟩

theorem wit_DestroyCompletes : readyFast.ready = true ∧ State.reset.ready = false := ⟨rfl, rfl⟩

theorem wit_FlushEqualsFreshCreate :
    let s := pendingCreate 0x3FF0000000000000#64 0 false false 0 0 0
    let c := outcomeState s (exec .create s)
    let p := { c with pos := { ncreep := 1, tfrac := 21848 }, outCount := 8 }
    exec .create s = .next c ∧ c.err = .none ∧ p.ready = true ∧ p.act = c.act :=
  ⟨by unfold outcomeState exec execCreate complete; split <;> simp_all; split at * <;> simp_all,
    by decide +kernel, by decide +kernel, rfl⟩

/-- One step for each clause: ACC_OVF set, OVERRUN set, CTAB_WLOCK set, flags cleared by reset. -/
theorem wit_StickyFlagEvents :
    (∃ t, step pendingFlat = .next t ∧ t.sticky.accOvf = true ∧ pendingFlat.sticky.accOvf = false) ∧
      (let s := { pendingFast 20 with env := { Env.start with host := [.write 0#22 2#32], wait := 1 } };
        ∃ t, step s = .next t ∧ t.sticky.overrun = true ∧ s.sticky.overrun = false) ∧
      (let s := { readyFast with env := { Env.start with host := [.write 0x010000#22 2#32] } };
        ∃ t, step s = .next t ∧ t.sticky.ctabWlock = true ∧ s.sticky.ctabWlock = false) ∧
      (let s := { readyFast with
          sticky := { accOvf := true, overrun := true, ctabWlock := true }, env := { Env.start with host := [.reset] } };
        ∃ t, step s = .next t ∧ s.sticky.accOvf = true ∧ t.sticky.accOvf = false) :=
  ⟨⟨_, rfl, by decide +kernel, rfl⟩, ⟨_, rfl, by decide +kernel, rfl⟩, ⟨_, rfl, by decide +kernel, rfl⟩, ⟨_, rfl, rfl, rfl⟩⟩

theorem wit_FirOutputScalesBothWings : upAct.mode ≠ .fast ∧ downAct.mode ≠ .fast := by decide

theorem wit_OnlyCommandsChangeTheConfiguration :
    let s := { readyFast with env := { Env.start with host := [.write 0x08#22 2#32] } }
    (∃ t, step s = .next t) ∧ nextMove s ≠ .engine ∧ ∀ rest, nextMove s ≠ .host .reset rest :=
  ⟨⟨_, rfl⟩, by decide, fun _ h => nomatch h⟩

theorem wit_StepKeepsInvariant : Inv Config.pfr (pendingFast 20) ∧ ∃ t, step (pendingFast 20) = .next t :=
  ⟨inv_pendingFast (by decide), ⟨_, rfl⟩⟩

theorem wit_RunsNeverStop : Inv Config.pfr (pendingFast 20) := inv_pendingFast (by decide)

end Sys2Proof.Tests
end

section
/-! PROOFS. Memory: what PROCESS writes (R69), the offsets that reach nothing (R34, R61), and the CTAB write lock (R66). -/

namespace Sys2Proof.Machine

/-! ## PROCESS and the OUT words (R69) -/

/-- The rounded-up quotient of R163 is the number of times its loop runs. -/
theorem outputCount_eq_of_loopCount {P : Params} {s : State} {n k : Nat} (hd : 0 < s.act.dtb.toNat)
    (h : LoopCount (startTime P s) (endTime P s n) s.act.dtb.toNat k) : outputCount P s n = k := by
  obtain ⟨below, top⟩ := h
  refine Nat.le_antisymm ((ceilDiv_le_iff hd).2 (by omega)) (Nat.le_of_not_lt fun hlt => ?_)
  have last_below := below _ hlt
  have count_covers : endTime P s n - startTime P s ≤ outputCount P s n * s.act.dtb.toNat := (ceilDiv_le_iff hd).1 le_rfl
  omega

/-- A block that fits passes PROCESS's checks (R235) when its outputs fit OUT. -/
theorem processCheck_of_blockFits {s : State} {n : Nat} (hf : BlockFits s n) (hk : outputCount Config.pfr s n ≤ 262144) :
    processCheck Config.pfr s n = none := by
  obtain ⟨hr, -, hin, hlen⟩ := hf
  simp [processCheck, hr, Nat.not_lt.2 hin, Nat.not_lt.2 hlen, Nat.not_lt.2 hk]

/-- A PROCESS that passes its checks makes its writes (R221, R235). -/
theorem exec_process_of_check {s : State} (hc : processCheck Config.pfr s (blockLength s) = none) :
    exec .process s = .next (finish (recordProcess Config.pfr s (blockLength s))) := by
  rw [exec_eq_complete]
  simp [commandRule, processRule, hc, complete]

/-- Under the invariant, a PROCESS whose loop makes `k` outputs completes with its writes, and `k` is its output count. -/
theorem exec_process_of_loopCount {s : State} {n k : Nat} (hi : Inv Config.pfr s) (hf : BlockFits s n)
    (hl : LoopCount (startTime Config.pfr s) (endTime Config.pfr s n) s.act.dtb.toNat k) (hk : k ≤ 262144) :
    outputCount Config.pfr s n = k ∧ exec .process s = .next (finish (recordProcess Config.pfr s n)) := by
  have hcount := outputCount_eq_of_loopCount (hi.ready hf.1).1.period hl
  obtain rfl : n = blockLength s := hf.2.1
  exact ⟨hcount, exec_process_of_check (processCheck_of_blockFits hf (hcount ▸ hk))⟩

@[simp] theorem length_outputWords (P : Params) (s : State) (n : Nat) : (outputWords P s n).length = outputCount P s n := by
  simp [outputWords]

/-- R69: with no broken duty OUT word `j` takes output frame `j`. -/
theorem wordAt_recordProcess {P : Params} {s : State} {n j : Nat} (hz : s.env.hazard = false) (hj : j < outputCount P s n)
    (e : Nat) : wordAt e (recordProcess P s n).mem (outAddr j) = wordOfFrame (outputFrame P s n j) := by
  have hw := wordAt_write_words e s.mem outBase (outputWords P s n) j (by simpa using hj)
  simpa [outputWords, hz, outAddr] using hw

/-- R69: PROCESS writes no byte outside its OUT words. -/
theorem byteAt_recordProcess_outside {P : Params} {s : State} {n x : Nat}
    (hx : x < outBase ∨ outAddr (outputCount P s n) ≤ x) (e : Nat) :
    byteAt e (recordProcess P s n).mem x = byteAt e s.mem x :=
  byteAt_write_outside e s.mem outBase _ x (by simpa [outAddr] using hx)

/-- A command that ends with an error leaves memory as it is (R250). -/
theorem exec_error_mem {i : Instr} {s t : State} (h : exec i s = .next t) (he : t.err ≠ .none) : t.mem = s.mem := by
  rcases exec_cases h with ⟨e, -, -, rfl⟩ | ⟨u, -, rfl⟩
  · rfl
  · exact absurd rfl he

/-- Settles O46: the writes of a PROCESS that passes its checks, word by word inside its OUT words and byte by byte outside. -/
theorem processWritesItsOutputsOnly : Obligations.ProcessWritesItsOutputsOnly := by
  refine ⟨fun s n k hi hf hz hl hk => ?_, fun s t => exec_error_mem⟩
  obtain ⟨rfl, hexec⟩ := exec_process_of_loopCount hi hf hl hk
  refine ⟨_, hexec, rfl, fun j hj => ?_, fun a ha => ?_⟩
  · exact wordAt_recordProcess hz hj _
  · rw [finish_env, recordProcess_env, drawOutputs_epoch]
    exact byteAt_recordProcess_outside ha _

/-! ## Offsets that reach nothing (R34, R61) -/

/-- A transaction whose offset is reserved or unmapped reads 0 and changes no state. -/
theorem bus_ignores {P : Params} {a : Offset} (h : targetOf P a.toNat = .reserved ∨ targetOf P a.toNat = .unmapped)
    (s : State) (d : Word) : busRead P s a = 0#32 ∧ afterBusRead P s a = s ∧ busWrite P s a d = s := by
  rcases h with h | h <;> simp [busRead, afterBusRead, busWrite, h]

/-- Settles O14, from the target of each kind of offset: a misaligned one or one in no region is unmapped, the rest are reserved. -/
theorem unmappedAndReservedAreIgnored : Obligations.UnmappedAndReservedAreIgnored := by
  intro s a d h
  refine bus_ignores ?_ s d
  by_cases misaligned : a.toNat % 4 ≠ 0
  · exact .inr (targetOf_unmapped (.inl misaligned))
  rcases h with h | ⟨h48, hFC⟩ | outside
  · exact absurd h misaligned
  · exact .inl (targetOf_reserved (by omega) h48 (by omega))
  · exact .inr (targetOf_unmapped (.inr outside))

/-! ## CTAB (R66) -/

/-- The bus offset of a CTAB entry does not wrap. -/
theorem toNat_ctabOffset {i : Nat} (h : i < 16384) : (BitVec.ofNat 22 (0x010000 + 4 * i)).toNat = ctabAddr i := by
  rw [BitVec.toNat_ofNat, Nat.mod_eq_of_lt (by omega)]
  rfl

/-- A read of a CTAB entry returns its word in every state (R66). -/
theorem busRead_of_ctab {P : Params} {a : Offset} {i : Nat} (h : targetOf P a.toNat = .ctab i) (s : State) :
    busRead P s a = wordAt s.env.epoch s.mem (ctabAddr i) := by
  simp [busRead, h]

theorem busWrite_of_ctab {P : Params} {a : Offset} {i : Nat} (h : targetOf P a.toNat = .ctab i) (s : State) (d : Word) :
    busWrite P s a d = ctabWrite s i d := by
  simp [busWrite, h]

/-- While READY or BUSY a CTAB write only sets CTAB_WLOCK. -/
theorem ctabWrite_locked {s : State} (h : s.ready = true ∨ s.busy = true) (i : Nat) (d : Word) :
    ctabWrite s i d = { s with sticky := { s.sticky with ctabWlock := true } } :=
  if_pos (Bool.or_eq_true _ _ ▸ h)

/-- With READY and BUSY both 0 a CTAB write stores its word. -/
theorem ctabWrite_unlocked {s : State} (hr : s.ready = false) (hb : s.busy = false) (i : Nat) (d : Word) :
    ctabWrite s i d = storeWord s (ctabAddr i) d := by
  simp [ctabWrite, hr, hb]

/-- Settles O17: the lock decides between the flag alone and the store of one word, and a read does not look at it. -/
theorem ctabWriteLock : Obligations.CtabWriteLock := by
  intro s i d hi a
  have target : targetOf Config.pfr a.toNat = .ctab i := by rw [toNat_ctabOffset hi, targetOf_ctabAddr hi]
  have read := busRead_of_ctab target
  have write := busWrite_of_ctab target s d
  refine ⟨fun locked => write.trans (ctabWrite_locked locked i d), fun hr hb => ?_, read s⟩
  rw [write, ctabWrite_unlocked hr hb]
  exact ⟨(read _).trans (wordAt_write_word ..), rfl, fun x hx => byteAt_write_outside _ _ _ _ x hx⟩

end Sys2Proof.Machine
end

section
/-! PROOFS. Encoding: which words select a command (R91), and the binary64 reading of FACTOR_BITS (R94). -/

namespace Sys2Proof.Machine

/-! ## The decoder (R91) -/

theorem instrOfOp_eq_some_iff {op : BitVec 4} {i : Instr} : instrOfOp op = some i ↔ op = opOf i :=
  ⟨instrOfOp_eq_some, fun h => h ▸ instrOfOp_opOf i⟩

/-- R91, field by field: RSV is zero and OP is the command's own. -/
theorem decode_eq_ok_iff {d : Word} {i : Instr} : decode d = .ok i ↔ rsvField d = 0#28 ∧ opField d = opOf i := by
  rw [← instrOfOp_eq_some_iff]
  by_cases hrsv : rsvField d = 0#28
  · cases hop : instrOfOp (opField d) <;> simp [decode, hrsv, hop]
  · simp [decode, hrsv]

/-- The OP column of R91's table, as a choice between its four rows. -/
theorem eq_opOf_iff {op : BitVec 4} {i : Instr} :
    op = opOf i ↔
      (i = .create ∧ op = 0x1#4) ∨ (i = .process ∧ op = 0x2#4) ∨ (i = .flush ∧ op = 0x3#4) ∨ (i = .destroy ∧ op = 0x4#4) := by
  cases i <;> simp [opOf]

/-- Settles O1: the decoder compares the two fields of the word, and each command has the one OP of R91's table. -/
theorem decodeSelectsByOpcodeMap : Obligations.DecodeSelectsByOpcodeMap :=
  fun _ _ => decode_eq_ok_iff.trans (and_congr_right' eq_opOf_iff)

/-! ## FACTOR_BITS (R94) -/

/-- The binary64 word with sign `s`, exponent field `e` and fraction field `m` of R94. -/
def binary64Word (sign : Bool) (e m : Nat) : BitVec 64 := BitVec.ofBool sign ++ BitVec.ofNat 11 e ++ BitVec.ofNat 52 m

theorem binary64Word_sign (sign : Bool) (e m : Nat) :
    (binary64Word sign e m).extractLsb' 63 1 = BitVec.ofBool sign := by
  rw [binary64Word, BitVec.extractLsb'_append_eq_of_le (by decide)]
  exact BitVec.extractLsb'_append_eq_left

theorem binary64Word_exponent (sign : Bool) {e : Nat} (he : e < 2048) (m : Nat) :
    ((binary64Word sign e m).extractLsb' 52 11).toNat = e := by
  rw [binary64Word, BitVec.extractLsb'_append_eq_of_le (by decide), Nat.sub_self, BitVec.extractLsb'_append_eq_right]
  exact Nat.mod_eq_of_lt he

theorem binary64Word_fraction (sign : Bool) (e : Nat) {m : Nat} (hm : m < 2 ^ 52) :
    ((binary64Word sign e m).extractLsb' 0 52).toNat = m := by
  rw [binary64Word, BitVec.extractLsb'_append_eq_right]
  exact Nat.mod_eq_of_lt hm

/-- The exponent 0 carries no hidden bit. -/
theorem binary64Magnitude_subnormal (m : Nat) : binary64Magnitude 0 m = m * (2 : ℚ) ^ (-1074 : ℤ) := by
  rw [binary64Magnitude, if_pos rfl, div_eq_mul_inv, zpow_neg]
  norm_cast

/-- The model scales by a power of two up or down according to the exponent; both are the one power of R94. -/
theorem binary64Magnitude_normal {e : Nat} (he : 1 ≤ e) (m : Nat) :
    binary64Magnitude e m = (2 ^ 52 + m) * (2 : ℚ) ^ ((e : ℤ) - 1075) := by
  rw [binary64Magnitude, if_neg (by omega)]
  split
  · next up =>
    obtain ⟨k, rfl⟩ := Nat.exists_eq_add_of_le up
    norm_num
  · next down =>
    obtain ⟨k, hk⟩ := Nat.exists_eq_add_of_le (Nat.le_of_not_le down)
    rw [show (e : ℤ) - 1075 = -(k : ℤ) by omega, hk, Nat.add_sub_cancel_left, zpow_neg, zpow_natCast, div_eq_mul_inv]
    push_cast
    rfl

/-- `fval` on a word given by its fields, with R94's cases in the order `fval` asks them. -/
theorem fval_binary64Word (sign : Bool) {e m : Nat} (he : e < 2048) (hm : m < 2 ^ 52) :
    fval (binary64Word sign e m) =
      if e = 2047 then if m = 0 then .infinity sign else .nan
      else if e = 0 ∧ m = 0 then .zero sign
      else .finite ((if sign then -1 else 1) * binary64Magnitude e m) := by
  simp only [fval, binary64Word_sign, binary64Word_exponent sign he, binary64Word_fraction sign e hm]
  cases sign <;> simp

/-- Settles O27: the fields of the word pick the case, and the magnitude of a finite value is R94's for its exponent. -/
theorem binary64Decoding : Obligations.Binary64Decoding := by
  intro sign e m he hm v unit
  have hv : v = _ := fval_binary64Word sign he hm
  refine ⟨fun h2047 hm0 => ?_, fun h2047 hm0 => ?_, fun h0 hm0 => ?_, fun h0 hm0 => ?_, fun h1 h2046 => ?_⟩
  · rw [hv, if_pos h2047, if_neg hm0]
  · rw [hv, if_pos h2047, if_pos hm0]
  · rw [hv, if_neg (by omega), if_pos ⟨h0, hm0⟩]
  · subst h0
    rw [hv, if_neg (by decide), if_neg (by simp [hm0]), binary64Magnitude_subnormal, ← mul_assoc]
  · rw [hv, if_neg (by omega), if_neg (by omega), binary64Magnitude_normal h1, ← mul_assoc]

end Sys2Proof.Machine
end

section
/-! PROOFS. Configuration: which factors CREATE refuses (R111), and the `+infinity` that R120 refuses after them. -/

namespace Sys2Proof.Machine

/-! ## The factor check (R111) -/

/-- Only the pattern with exponent and fraction 0 has magnitude 0 (R94). -/
theorem binary64Magnitude_pos {e m : Nat} (h : ¬ (e = 0 ∧ m = 0)) : 0 < binary64Magnitude e m := by
  unfold binary64Magnitude
  split_ifs with h0
  · have : 0 < m := Nat.pos_of_ne_zero fun hm => h ⟨h0, hm⟩
    positivity
  · positivity
  · positivity

/-- A zero pattern reads as a signed zero, so a finite value is never 0 (R17). -/
theorem fval_ne_finite_zero (b : BitVec 64) : fval b ≠ .finite 0 := by
  intro h
  dsimp only [fval] at h
  split_ifs at h with he hm hz hs
  · exact (binary64Magnitude_pos hz).ne' (neg_eq_zero.1 (FVal.finite.inj h))
  · exact (binary64Magnitude_pos hz).ne' (FVal.finite.inj h)

/-- R111's check and its list of refused patterns agree on every value a pattern can have. -/
theorem positiveFactor_eq_none_iff {v : FVal} (hv : v ≠ .finite 0) : positiveFactor v = none ↔ RefusedRatio v := by
  cases v with
  | nan => simp [positiveFactor, RefusedRatio]
  | infinity negative => cases negative <;> simp [positiveFactor, RefusedRatio]
  | zero negative => cases negative <;> simp [positiveFactor, RefusedRatio]
  | finite q =>
    have hq : q ≠ 0 := fun h => hv (h ▸ rfl)
    simp [positiveFactor, RefusedRatio, le_iff_lt_or_eq, hq]

/-! ## Where CREATE's error codes come from (R231) -/

theorem selectTable_ne_configRatio (P : Params) (l : Latched) : selectTable P l ≠ .error .configRatio := by
  unfold selectTable
  split
  case h_4 => split_ifs <;> simp
  all_goals simp

theorem failingCheck_ne_configRatio (P : Params) (d : Derived) (nwing : Nat) :
    failingCheck P d nwing ≠ some .configRatio := by
  unfold failingCheck
  split_ifs <;> simp

/-- A command ends with the error `e` exactly when its rule raises `e`. -/
theorem exec_eq_raise_iff {i : Instr} {s : State} {e : ErrCode} (he : e ≠ .none) :
    exec i s = .next (raise e s) ↔ commandRule Config.pfr i s = .error e := by
  constructor
  · intro h
    rcases exec_cases h with ⟨e', -, hrule, heq⟩ | ⟨u, -, heq⟩
    · have : e = e' := congrArg State.err heq
      rw [hrule, this]
    · exact absurd (congrArg State.err heq) he
  · intro h
    rw [exec_eq_complete, h]
    rfl

/-- While UNCONFIGURED, CREATE raises CONFIG_RATIO at the factor check and at no later one. -/
theorem createRule_eq_configRatio_iff {P : Params} {s : State} (hr : s.ready = false) :
    createRule P s = .error .configRatio ↔ positiveFactor (fval s.latched.factorBits) = none := by
  cases hf : positiveFactor (fval s.latched.factorBits) with
  | none => simp [createRule, hr, hf]
  | some f =>
    cases hs : selectTable P s.latched with
    | error e =>
      have : e ≠ .configRatio := fun h => selectTable_ne_configRatio P s.latched (h ▸ hs)
      simpa [createRule, hr, hf, hs] using this
    | ok sel =>
      cases hc : failingCheck P (derive P sel f) sel.header.nwing.toNat with
      | none => simp [createRule, hr, hf, hs, hc]
      | some e =>
        have : e ≠ .configRatio := fun h => failingCheck_ne_configRatio P _ _ (h ▸ hc)
        simpa [createRule, hr, hf, hs, hc] using this

/-- A CREATE that passes the factor check and the selection reports the first failing check of its derived configuration. -/
theorem createRule_of_failingCheck {P : Params} {s : State} {f : Factor} {sel : Selection} {e : ErrCode}
    (hr : s.ready = false) (hf : positiveFactor (fval s.latched.factorBits) = some f)
    (hs : selectTable P s.latched = .ok sel)
    (hc : failingCheck P (derive P sel f) sel.header.nwing.toNat = some e) : createRule P s = .error e := by
  simp [createRule, hr, hf, hs, hc]

theorem selectTable_basic (P : Params) {l : Latched} (hq : l.quality = 0) :
    selectTable P l = .ok { tsel := .none, header := { nwing := 0, nmult := 0, lpscl := Config.unboundLpscl } } := by
  unfold selectTable
  rw [hq]
  rfl

/-- The selectors that select (R117): Basic, or one that binds a table. -/
theorem selectTable_of_selects {l : Latched} (hl : l.quality = 0 ∨ ∃ tsel h, BindsTable l tsel h) :
    ∃ sel, selectTable Config.pfr l = .ok sel := by
  rcases hl with basic | ⟨tsel, h, bound⟩
  · exact ⟨_, selectTable_basic _ basic⟩
  · exact ⟨_, selectTable_of_bindsTable bound⟩

/-- The period of `+infinity` is 0 (R112), which R120 refuses before any other check. -/
theorem failingCheck_infinite (P : Params) (sel : Selection) (nwing : Nat) :
    failingCheck P (derive P sel .infinite) nwing = some .configRange := by
  have dtb_zero : (derive P sel .infinite).dtb < 1 := Nat.zero_lt_one
  exact if_pos ((rangeFails_iff _).2 (.inl dtb_zero))

/-- Settles O24: no check after R111's raises CONFIG_RATIO, and `+infinity`, which R111 passes, has the period 0. -/
theorem ratioCheck : Obligations.RatioCheck := by
  intro s hr
  refine ⟨?_, fun hinf hsel => ?_⟩
  · calc exec .create s = .next (raise .configRatio s)
      _ ↔ createRule Config.pfr s = .error .configRatio := exec_eq_raise_iff (by decide)
      _ ↔ positiveFactor (fval s.latched.factorBits) = none := createRule_eq_configRatio_iff hr
      _ ↔ RefusedRatio (fval s.latched.factorBits) := positiveFactor_eq_none_iff (fval_ne_finite_zero _)
  · obtain ⟨sel, hs⟩ := selectTable_of_selects hsel
    have hf : positiveFactor (fval s.latched.factorBits) = some .infinite := by rw [hinf]; rfl
    exact (exec_eq_raise_iff (by decide)).2 (createRule_of_failingCheck hr hf hs (failingCheck_infinite _ _ _))

end Sys2Proof.Machine
end

section
/-! PROOFS. Quantizer: the bias, shift and clamp of R140 as round half up (R144), and its range (R143). -/

namespace Sys2Proof.Machine

/-! ## Comparing a shifted value (R15) -/

theorem le_asr_iff {c x : Int} {k : Nat} : c ≤ asr x k ↔ c * 2 ^ k ≤ x :=
  Int.le_ediv_iff_mul_le (by positivity)

theorem asr_lt_iff {c x : Int} {k : Nat} : asr x k < c ↔ x < c * 2 ^ k :=
  Int.ediv_lt_iff_lt_mul (by positivity)

theorem asr_mono {x y : Int} (k : Nat) (h : x ≤ y) : asr x k ≤ asr y k :=
  Int.ediv_le_ediv (by positivity) h

/-! ## The rounding and the extremes of `Q` (R143, R144) -/

/-- The bias is half the divisor, so shifting the bias sum rounds to nearest with ties toward plus infinity (R144). -/
theorem asr_biasSum_eq_floor (v : Int) {scl : Nat} (h : 1 ≤ scl) :
    asr (biasSum v scl) scl = ⌊(v : ℚ) / 2 ^ scl + 1 / 2⌋ := by
  have half : (2 : ℚ) ^ (scl - 1) / 2 ^ scl = 1 / 2 := by
    rw [← mul_pow_sub_one (by omega : scl ≠ 0) (2 : ℚ)]
    field_simp
  rw [asr_eq_floor, biasSum]
  push_cast
  rw [add_div, half]

theorem quantize_pfr_mem_range (v : Int) (scl : Nat) :
    -32768 ≤ quantize Config.pfr v scl ∧ quantize Config.pfr v scl ≤ 32767 := by
  rw [quantize_pfr]
  omega

theorem quantize_pfr_mono {u v : Int} (scl : Nat) (h : u ≤ v) : quantize Config.pfr u scl ≤ quantize Config.pfr v scl := by
  rw [quantize_pfr, quantize_pfr]
  have shifted : asr (biasSum u scl) scl ≤ asr (biasSum v scl) scl := asr_mono scl (Int.add_le_add_right h _)
  omega

/-- The upper clamp holds from the least value that rounds to 32767 (R144). -/
theorem quantize_pfr_eq_max_iff (v : Int) (scl : Nat) :
    quantize Config.pfr v scl = 32767 ↔ 32767 * 2 ^ scl - 2 ^ (scl - 1) ≤ v := by
  have clamped : quantize Config.pfr v scl = 32767 ↔ 32767 ≤ asr (biasSum v scl) scl := by
    rw [quantize_pfr]
    omega
  rw [clamped, le_asr_iff, biasSum, sub_le_iff_le_add]

/-- The lower clamp holds below the least value that rounds to -32767 (R144). -/
theorem quantize_pfr_eq_min_iff (v : Int) (scl : Nat) :
    quantize Config.pfr v scl = -32768 ↔ v < -32767 * 2 ^ scl - 2 ^ (scl - 1) := by
  have clamped : quantize Config.pfr v scl = -32768 ↔ asr (biasSum v scl) scl < -32767 := by
    rw [quantize_pfr]
    omega
  rw [clamped, asr_lt_iff, biasSum, lt_sub_iff_add_lt]

/-- R144's two forms of the lower threshold: the least value that rounds to -32767, and the greatest that rounds to -32768. -/
theorem lt_min_threshold_iff (v : Int) {scl : Nat} (h : 1 ≤ scl) :
    v < -32767 * 2 ^ scl - 2 ^ (scl - 1) ↔ v ≤ -32768 * 2 ^ scl + 2 ^ (scl - 1) - 1 := by
  rw [← mul_pow_sub_one (by omega : scl ≠ 0) (2 : Int)]
  omega

/-- Settles O33: the clamp bounds `Q` whatever the shifted value is. -/
theorem quantizerStaysInRange : Obligations.QuantizerStaysInRange :=
  fun v scl _ => quantize_pfr_mem_range v scl

/-- Settles O34: rounding is the floor of the bias sum, and each extreme is a threshold on it. -/
theorem quantizerRoundsHalfUp : Obligations.QuantizerRoundsHalfUp := by
  intro v scl h
  have rounds := asr_biasSum_eq_floor v h
  have atMin := quantize_pfr_eq_min_iff v scl
  refine ⟨rounds, ?_, fun u hu => quantize_pfr_mono scl hu, quantize_pfr_eq_max_iff v scl, atMin, ?_⟩
  · exact rounds ▸ quantize_pfr v scl
  · exact atMin.trans (lt_min_threshold_iff v h)

end Sys2Proof.Machine
end

section
/-! PROOFS. Commands: how a rule's verdict becomes the next state (R221), which rule raises STATE (R223), FLUSH and DESTROY whole
(R240, R243), and CREATE's error order (R231). -/

namespace Sys2Proof.Machine

/-! ## From a rule's verdict to the next state (R221) -/

theorem exec_of_error {i : Instr} {s : State} {e : ErrCode} (h : commandRule Config.pfr i s = .error e) :
    exec i s = .next (raise e s) := by
  rw [exec_eq_complete, h]
  rfl

theorem exec_of_ok {i : Instr} {s u : State} (h : commandRule Config.pfr i s = .ok u) : exec i s = .next (finish u) := by
  rw [exec_eq_complete, h]
  rfl

/-! ## FLUSH and DESTROY by command state (R240, R243) -/

theorem flushRule_of_ready {s : State} (h : s.ready = true) : flushRule s = .ok (recordFlush s) := if_pos h

theorem flushRule_of_unconfigured {s : State} (h : s.ready = false) : flushRule s = .error .state :=
  if_neg (Bool.eq_false_iff.1 h)

theorem destroyRule_of_ready {s : State} (h : s.ready = true) : destroyRule s = .ok (recordDestroy s) := if_pos h

theorem destroyRule_of_unconfigured {s : State} (h : s.ready = false) : destroyRule s = .error .state :=
  if_neg (Bool.eq_false_iff.1 h)

/-- Settles O52: FLUSH's one check is READY, and its writes are XBUF, the position and OUT_COUNT. -/
theorem flushCompletes : Obligations.FlushCompletes :=
  fun _ => ⟨fun hr => exec_of_ok (i := .flush) (flushRule_of_ready hr),
    fun hr => exec_of_error (i := .flush) (flushRule_of_unconfigured hr)⟩

/-- Settles O53: DESTROY's one check is READY; the XBUF it leaves, unspecified by R243, is the model's own. -/
theorem destroyCompletes : Obligations.DestroyCompletes :=
  fun s => ⟨fun hr => ⟨(recordDestroy s).xbuf, exec_of_ok (i := .destroy) (destroyRule_of_ready hr)⟩,
    fun hr => exec_of_error (i := .destroy) (destroyRule_of_unconfigured hr)⟩

/-! ## Which rule raises STATE, and the READY it leaves (R223) -/

/-- The codes table selection can raise (R117). -/
theorem selectTable_error_cases {P : Params} {l : Latched} {e : ErrCode} (h : selectTable P l = .error e) :
    e = .configQuality ∨ e = .configNoTable ∨ e = .configTable := by
  unfold selectTable at h
  split at h
  case h_4 => split_ifs at h <;> cases h <;> simp
  all_goals cases h
  exact .inl rfl

/-- The codes the derived checks can raise (R118 to R120). -/
theorem failingCheck_some_cases {P : Params} {d : Derived} {nwing : Nat} {e : ErrCode}
    (h : failingCheck P d nwing = some e) : e = .configRange ∨ e = .alloc ∨ e = .configReach ∨ e = .configCreep := by
  unfold failingCheck at h
  split_ifs at h <;> cases h <;> simp

theorem createRule_of_ready {P : Params} {s : State} (h : s.ready = true) : createRule P s = .error .state := if_pos h

/-- CREATE raises a selection error when the factor check passes (R231). -/
theorem createRule_of_selectTable {P : Params} {s : State} {f : Factor} {e : ErrCode} (hr : s.ready = false)
    (hf : positiveFactor (fval s.latched.factorBits) = some f) (hs : selectTable P s.latched = .error e) :
    createRule P s = .error e := by
  simp [createRule, hr, hf, hs]

/-- Past its first check CREATE never raises STATE. -/
theorem createRule_eq_state_iff {P : Params} {s : State} : createRule P s = .error .state ↔ s.ready = true := by
  refine ⟨fun h => ?_, createRule_of_ready⟩
  by_contra hr
  rw [createRule, if_neg hr] at h
  cases hf : positiveFactor (fval s.latched.factorBits) with
  | none => simp [hf] at h
  | some f =>
    cases hs : selectTable P s.latched with
    | error e =>
      obtain rfl : e = .state := by simpa [hf, hs] using h
      simpa using selectTable_error_cases hs
    | ok sel =>
      cases hc : failingCheck P (derive P sel f) sel.header.nwing.toNat with
      | none => simp [hf, hs, hc] at h
      | some e =>
        obtain rfl : e = .state := by simpa [hf, hs, hc] using h
        simpa using failingCheck_some_cases hc

theorem processCheck_eq_state_iff {P : Params} {s : State} {n : Nat} :
    processCheck P s n = some .state ↔ s.ready = false := by
  refine ⟨fun h => ?_, fun hr => if_pos hr⟩
  by_contra hr
  rw [processCheck, if_neg hr] at h
  split_ifs at h <;> cases h

theorem processRule_eq_state_iff {P : Params} {s : State} : processRule P s = .error .state ↔ s.ready = false := by
  rw [← processCheck_eq_state_iff (P := P) (n := blockLength s), processRule]
  cases processCheck P s (blockLength s) <;> simp

/-- R223's table of illegal commands. -/
theorem commandRule_eq_state_iff (i : Instr) (s : State) :
    commandRule Config.pfr i s = .error .state ↔ (i = .create ∧ s.ready = true) ∨ (i ≠ .create ∧ s.ready = false) := by
  cases i with
  | create => simp [commandRule, createRule_eq_state_iff]
  | process => simp [commandRule, processRule_eq_state_iff]
  | flush => simp [commandRule, flushRule]
  | destroy => simp [commandRule, destroyRule]

/-- R223's table of the command states that successful commands leave. -/
theorem ready_of_commandRule_ok {i : Instr} {s u : State} (h : commandRule Config.pfr i s = .ok u) :
    u.ready = true ↔ i ≠ .destroy := by
  cases i with
  | create =>
    rcases createRule_cases s with ⟨e, he, -⟩ | ⟨f, sel, -, -, -, -, hok⟩
    · cases he.symm.trans h
    · cases hok.symm.trans h
      simp
  | process =>
    rcases processRule_cases s with ⟨e, he, -⟩ | ⟨hr, -, -, -, hok⟩
    · cases he.symm.trans h
    · cases hok.symm.trans h
      simpa using hr
  | flush =>
    cases hr : s.ready with
    | false => cases (flushRule_of_unconfigured hr).symm.trans h
    | true =>
      cases (flushRule_of_ready hr).symm.trans h
      simpa using hr
  | destroy =>
    cases hr : s.ready with
    | false => cases (destroyRule_of_unconfigured hr).symm.trans h
    | true =>
      cases (destroyRule_of_ready hr).symm.trans h
      simp

/-- Settles O23: the rule's verdict is an error, which leaves READY, or the writes of the command, which set it. -/
theorem commandLegalityByState : Obligations.CommandLegalityByState := by
  intro i s
  obtain ⟨t, ht⟩ := exec_next i s
  refine ⟨t, ht, ?_⟩
  rw [← commandRule_eq_state_iff]
  rcases exec_cases ht with ⟨e, hne, hrule, rfl⟩ | ⟨u, hrule, rfl⟩
  · simp [hrule, hne]
  · simp [hrule, ready_of_commandRule_ok hrule]

/-! ## The selection errors (R95, R117) -/

theorem qualityOf_of_four_le {q : BitVec 4} (h : 4 ≤ q.toNat) : qualityOf q = .unrecognized := by
  revert q
  decide

theorem selectTable_unrecognized (P : Params) {l : Latched} (h : 4 ≤ l.quality.toNat) :
    selectTable P l = .error .configQuality := by
  rw [selectTable, qualityOf_of_four_le h]

theorem selectTable_undeclared (P : Params) {l : Latched} (hq : l.quality = 3) (hv : l.ctabValid = false) :
    selectTable P l = .error .configNoTable := by
  rw [selectTable, hq]
  exact if_pos hv

theorem selectTable_illegal {P : Params} {l : Latched} (hq : l.quality = 3) (hv : l.ctabValid = true)
    (h : customIllegal P (customHeader l) = true) : selectTable P l = .error .configTable := by
  rw [selectTable, hq]
  exact (if_neg (by simp [hv])).trans (if_pos h)

/-- A descriptor with no entries, too many, or a zero scale is illegal (R117). -/
theorem customIllegal_customHeader {l : Latched} (h : l.nwing = 0 ∨ 16384 < l.nwing.toNat ∨ l.lpscl = 0) :
    customIllegal Config.pfr (customHeader l) = true := by
  refine (customIllegal_iff _ _).2 (h.imp_left fun empty => ?_)
  simp [customHeader, empty]

/-! ## CREATE's error order (R231) -/

/-- CREATE ends with the first failing check of the configuration it derives. -/
theorem exec_create_of_failingCheck {s : State} {f : Factor} {sel : Selection} {e : ErrCode} (hr : s.ready = false)
    (hf : positiveFactor (fval s.latched.factorBits) = some f) (hs : selectTable Config.pfr s.latched = .ok sel)
    (hc : failingCheck Config.pfr (derive Config.pfr sel f) sel.header.nwing.toNat = some e) :
    exec .create s = .next (raise e s) :=
  exec_of_error (createRule_of_failingCheck hr hf hs hc)

section DerivedChecks
variable {P : Params} {d : Derived} {nwing : Nat}

theorem failingCheck_eq_configRange (range : rangeFails d = true) : failingCheck P d nwing = some .configRange :=
  if_pos range

theorem failingCheck_eq_alloc (range : ¬ rangeFails d = true) (alloc : allocFails P d = true) :
    failingCheck P d nwing = some .alloc := by
  rw [failingCheck, if_neg range, if_pos alloc]

theorem failingCheck_eq_configReach (range : ¬ rangeFails d = true) (alloc : ¬ allocFails P d = true)
    (reach : reachFails P d nwing = true) : failingCheck P d nwing = some .configReach := by
  rw [failingCheck, if_neg range, if_neg alloc, if_pos reach]

theorem failingCheck_eq_configCreep (range : ¬ rangeFails d = true) (alloc : ¬ allocFails P d = true)
    (reach : ¬ reachFails P d nwing = true) (creep : creepFails P d = true) :
    failingCheck P d nwing = some .configCreep := by
  rw [failingCheck, if_neg range, if_neg alloc, if_neg reach, if_pos creep]

end DerivedChecks

/-- Settles O25: each clause is one check of CREATE's rule, reached because the checks before it pass. -/
theorem createErrorsInOrder : Obligations.CreateErrorsInOrder := by
  intro s
  refine ⟨fun hr => exec_of_error (createRule_of_ready hr), fun hr refused => ?_, fun f hr hf => ⟨?_, ?_, ?_, ?_⟩⟩
  · have hf := (positiveFactor_eq_none_iff (fval_ne_finite_zero _)).2 refused
    exact exec_of_error ((createRule_eq_configRatio_iff hr).2 hf)
  · intro hq
    exact exec_of_error (createRule_of_selectTable hr hf (selectTable_unrecognized _ hq))
  · intro hq hv
    exact exec_of_error (createRule_of_selectTable hr hf (selectTable_undeclared _ hq hv))
  · intro hq hv illegal
    exact exec_of_error (createRule_of_selectTable hr hf (selectTable_illegal hq hv (customIllegal_customHeader illegal)))
  · intro sel hs d range alloc reach creep
    have range_iff : rangeFails d = true ↔ range := rangeFails_iff d
    have alloc_iff : allocFails Config.pfr d = true ↔ alloc := allocFails_iff Config.pfr d
    have reach_iff : reachFails Config.pfr d sel.header.nwing.toNat = true ↔ reach := reachFails_iff Config.pfr d _
    have creep_iff : creepFails Config.pfr d = true ↔ creep := creepFails_iff Config.pfr d
    rw [← range_iff, ← alloc_iff, ← reach_iff, ← creep_iff]
    have reports {e} := exec_create_of_failingCheck (e := e) hr hf hs
    exact ⟨fun h1 => reports (failingCheck_eq_configRange h1),
      fun h1 h2 => reports (failingCheck_eq_alloc h1 h2),
      fun h1 h2 h3 => reports (failingCheck_eq_configReach h1 h2 h3),
      fun h1 h2 h3 h4 => reports (failingCheck_eq_configCreep h1 h2 h3 h4)⟩

end Sys2Proof.Machine
end

section
/-! PROOFS. Exceptions: what an error changes (R250), at a command's completion (R221) and at the refused write to CMD (R220). -/

namespace Sys2Proof.Machine

/-! ## A command that ends with an error (R250) -/

/-- A command that ends with an error only raised its code. -/
theorem eq_raise_of_exec_error {i : Instr} {s t : State} (h : exec i s = .next t) (he : t.err ≠ .none) : t = raise t.err s := by
  rcases exec_cases h with ⟨e, -, -, rfl⟩ | ⟨u, -, rfl⟩
  · rfl
  · exact absurd (finish_err u) he

/-! ## A word that is no command, written to CMD (R92, R220) -/

/-- Offset 0 is CMD (R24). -/
theorem busWrite_cmd (P : Params) (s : State) (d : Word) : busWrite P s 0#22 d = commandWrite s d := by
  have target : targetOf P (0#22 : Offset).toNat = .csr .cmd := targetOf_regOffset P .cmd
  simp only [busWrite, target, csrWrite]

theorem commandWrite_illegal {s : State} {d : Word} {e : DecodeError} (hb : s.busy = false) (hd : decode d = .error e) :
    commandWrite s d = { s with lastOp := opField d, err := .cmdIllegal } := by
  simp [commandWrite, hb, hd]

/-- Settles O22: an error completes by `raise` alone, and a word that is no command reaches no engine step. -/
theorem failingCommandChangesOnlyErrAndBusy : Obligations.FailingCommandChangesOnlyErrAndBusy := by
  refine ⟨fun i s => ?_, fun s d e hb hd => ?_⟩
  · obtain ⟨t, ht⟩ := exec_next i s
    obtain ⟨hbusy, -⟩ := exec_keeps ht
    exact ⟨t, ht, hbusy, eq_raise_of_exec_error ht⟩
  · exact (busWrite_cmd Config.pfr s d).trans (commandWrite_illegal hb hd)

end Sys2Proof.Machine
end

section
/-! PROOFS. Derivation: the configuration CREATE derives, mode by mode (R112 to R116), its bounds, and the tables' legality
(R110, R117, R118). -/

namespace Sys2Proof.Machine

/-! ## Rounding (R15) -/

theorem rnd_le_iff {q : ℚ} {z : ℤ} : rnd q ≤ z ↔ q < z + 1 / 2 := by
  rw [rnd, ← Int.lt_add_one_iff, Int.floor_lt]
  push_cast
  constructor <;> intro h <;> linarith

theorem toNat_rnd_le {q : ℚ} {m : ℕ} (h : q < m + 1 / 2) : (rnd q).toNat ≤ m :=
  Int.toNat_le.2 (rnd_le_iff.2 (by exact_mod_cast h))

theorem le_toNat_ceil (q : ℚ) : q ≤ (⌈q⌉.toNat : ℚ) :=
  (Int.le_ceil q).trans (by exact_mod_cast Int.self_le_toNat ⌈q⌉)

theorem one_le_toNat_ceil {q : ℚ} (h : 0 < q) : 1 ≤ ⌈q⌉.toNat := by
  have := Int.ceil_pos.2 h
  omega

/-! ## The derived configuration by mode (R112 to R116) -/

theorem selectMode_fast {sel : Selection} (h : sel.tsel = .none) (f : Factor) : selectMode sel f = .fast := if_pos h

theorem selectMode_upOnly {sel : Selection} (h : sel.tsel ≠ .none) {f : Factor} (hf : f.atLeastOne = true) :
    selectMode sel f = .upOnly := by
  rw [selectMode, if_neg h, if_pos hf]

theorem selectMode_upDown {sel : Selection} (h : sel.tsel ≠ .none) {f : Factor} (hf : ¬ f.atLeastOne = true) :
    selectMode sel f = .upDown := by
  rw [selectMode, if_neg h, if_neg hf]

theorem derive_fast (P : Params) {sel : Selection} (h : sel.tsel = .none) (f : Factor) :
    derive P sel f = { mode := .fast, dtb := dtbOf P f, dhb := 0, lpsclEff := 0, xoff := 10 } := by
  rw [derive, selectMode_fast h]
  rfl

theorem derive_upOnly (P : Params) {sel : Selection} (h : sel.tsel ≠ .none) {f : Factor} (hf : f.atLeastOne = true) :
    derive P sel f =
      { mode := .upOnly, dtb := dtbOf P f, dhb := 2 ^ P.np
        lpsclEff := (rnd ((sel.header.lpscl.toNat : ℚ) * (19 / 20))).toNat
        xoff := ⌈((sel.header.nmult.toNat : ℚ) + 1) / 2⌉.toNat + 10 } := by
  rw [derive, selectMode_upOnly h hf]
  rfl

theorem derive_upDown (P : Params) {sel : Selection} (h : sel.tsel ≠ .none) {q : ℚ} (hq : q < 1) :
    derive P sel (.finite q) =
      { mode := .upDown, dtb := dtbOf P (.finite q), dhb := dhbUpDown P (.finite q)
        lpsclEff := (rnd ((sel.header.lpscl.toNat : ℚ) * (19 / 20) * q)).toNat
        xoff := ⌈((sel.header.nmult.toNat : ℚ) + 1) / (2 * q)⌉.toNat + 10 } := by
  rw [derive, selectMode_upDown h (by simpa [Factor.atLeastOne] using hq)]
  rfl

/-- The three ways to derive a configuration from a finite factor (R114). -/
theorem derive_finite_cases (sel : Selection) (q : ℚ) :
    sel.tsel = .none ∨ (sel.tsel ≠ .none ∧ 1 ≤ q ∧ (Factor.finite q).atLeastOne = true) ∨ (sel.tsel ≠ .none ∧ q < 1) := by
  by_cases h : sel.tsel = .none
  · exact .inl h
  · rcases le_or_gt 1 q with hq | hq
    · exact .inr (.inl ⟨h, hq, by simpa [Factor.atLeastOne] using hq⟩)
    · exact .inr (.inr ⟨h, hq⟩)

@[simp] theorem derive_mode (P : Params) (sel : Selection) (f : Factor) : (derive P sel f).mode = selectMode sel f := rfl

/-- R115's rounding of a 16-bit gain, scaled by a factor of at most 1. -/
theorem gain_le (lpscl : BitVec 16) {r : ℚ} (h0 : 0 ≤ r) (h1 : r ≤ 1) :
    (rnd ((lpscl.toNat : ℚ) * (19 / 20) * r)).toNat ≤ 62258 := by
  have hl : (lpscl.toNat : ℚ) ≤ 65535 := by exact_mod_cast Nat.le_of_lt_succ lpscl.isLt
  have hs : (lpscl.toNat : ℚ) * (19 / 20) * r ≤ 65535 * (19 / 20) * 1 := by gcongr
  exact toNat_rnd_le (by push_cast; linarith)

/-- In UpDown the step `q * 2^15` is below the full step (R113). -/
theorem dhbUpDown_pfr {q : ℚ} (hq : q < 1) : dhbUpDown Config.pfr (.finite q) = (rnd (q * 2 ^ 15)).toNat := by
  have below : q * 256 ≤ 256 := by linarith
  have scaled : q * 256 * 2 ^ 7 = q * 2 ^ 15 := by ring
  simp only [dhbUpDown, Config.pfr_npc, Config.pfr_na, Nat.cast_ofNat, min_eq_right below, scaled]

theorem dhbUpDown_le {q : ℚ} (hq : q < 1) : dhbUpDown Config.pfr (.finite q) ≤ 2 ^ 15 := by
  rw [dhbUpDown_pfr hq]
  exact toNat_rnd_le (by push_cast; linarith)

/-- No mode steps further than the full step (R113). -/
theorem derive_dhb_le (sel : Selection) (q : ℚ) : (derive Config.pfr sel (.finite q)).dhb ≤ 2 ^ 15 := by
  rcases derive_finite_cases sel q with hs | ⟨hs, -, hf⟩ | ⟨hs, h1⟩
  · simp [derive_fast _ hs]
  · simp [derive_upOnly _ hs hf]
  · simpa [derive_upDown _ hs h1] using dhbUpDown_le h1

section
variable {sel : Selection} {q : ℚ} (hq : 0 < q)
include hq

theorem derive_lpsclEff_le : (derive Config.pfr sel (.finite q)).lpsclEff ≤ 62258 := by
  rcases derive_finite_cases sel q with hs | ⟨hs, -, hf⟩ | ⟨hs, h1⟩
  · simp [derive_fast _ hs]
  · simpa [derive_upOnly _ hs hf] using gain_le sel.header.lpscl zero_le_one le_rfl
  · simpa [derive_upDown _ hs h1] using gain_le sel.header.lpscl hq.le h1.le

/-- In a FIR mode the reach covers the period: `2^15 / q <= 2^15 * 2 * Xoff` (R119). -/
theorem inv_le_two_mul_xoff (hs : sel.tsel ≠ .none) : 1 / q ≤ 2 * (derive Config.pfr sel (.finite q)).xoff := by
  rcases derive_finite_cases sel q with h | ⟨-, h1, hf⟩ | ⟨-, h1⟩
  · exact absurd h hs
  · have below : 1 / q ≤ 1 := (div_le_one hq).2 h1
    rw [derive_upOnly _ hs hf]
    push_cast
    linarith [(Nat.cast_nonneg ⌈((sel.header.nmult.toNat : ℚ) + 1) / 2⌉.toNat : (0 : ℚ) ≤ _)]
  · rw [derive_upDown _ hs h1]
    have reach := le_toNat_ceil (((sel.header.nmult.toNat : ℚ) + 1) / (2 * q))
    have smallest : 1 / (2 * q) ≤ ((sel.header.nmult.toNat : ℚ) + 1) / (2 * q) := by
      gcongr
      linarith [(Nat.cast_nonneg sel.header.nmult.toNat : (0 : ℚ) ≤ _)]
    have half : 1 / q = 2 * (1 / (2 * q)) := by field_simp
    push_cast
    linarith

theorem derive_creep_le (hs : sel.tsel ≠ .none) :
    ((derive Config.pfr sel (.finite q)).dtb - 1) / 2 ^ 15 ≤ 2 * (derive Config.pfr sel (.finite q)).xoff := by
  have period : (derive Config.pfr sel (.finite q)).dtb ≤ 2 ^ 15 * (2 * (derive Config.pfr sel (.finite q)).xoff) := by
    refine toNat_rnd_le ?_
    have := inv_le_two_mul_xoff hq hs
    rw [Config.pfr_np, show (2 : ℚ) ^ 15 / q = 2 ^ 15 * (1 / q) by ring]
    push_cast
    linarith
  exact Nat.div_le_of_le_mul (by omega)

theorem eleven_le_xoff (hs : sel.tsel ≠ .none) : 11 ≤ (derive Config.pfr sel (.finite q)).xoff := by
  have taps : (0 : ℚ) < (sel.header.nmult.toNat : ℚ) + 1 := by positivity
  rcases derive_finite_cases sel q with h | ⟨-, -, hf⟩ | ⟨-, h1⟩
  · exact absurd h hs
  · simpa [derive_upOnly _ hs hf] using one_le_toNat_ceil (div_pos taps two_pos)
  · simpa [derive_upDown _ hs h1] using one_le_toNat_ceil (div_pos taps (mul_pos two_pos hq))

end

theorem ten_le_xoff (P : Params) (sel : Selection) (f : Factor) : 10 ≤ (derive P sel f).xoff := by
  change 10 ≤ xoffOf _ _ _
  unfold xoffOf
  split <;> omega

/-- Settles O31: each bound in the mode that the selection and the factor decide. -/
theorem derivedConfigurationBounds : Obligations.DerivedConfigurationBounds := by
  intro sel q hq d
  refine ⟨derive_lpsclEff_le hq, ten_le_xoff _ _ _, fun _ => derive_dhb_le _ _, fun hm => ?_⟩
  have hs : sel.tsel ≠ .none := fun h => hm (selectMode_fast h _)
  exact ⟨eleven_le_xoff hq hs, derive_creep_le hq hs⟩

/-! ## Legal tables (R110, R117) and the reach of short ones (R118) -/

theorem wf_pfr_iff (h : TableHeader) :
    h.wf Config.pfr = true ↔ 1 ≤ h.nwing.toNat ∧ h.nwing.toNat ≤ 16384 ∧ 1 ≤ h.lpscl.toNat := by
  have nonzero : h.lpscl ≠ 0 ↔ 1 ≤ h.lpscl.toNat := by
    rw [Nat.one_le_iff_ne_zero, ne_eq, ne_eq, ← BitVec.toNat_inj]
    rfl
  rw [TableHeader.wf_iff, nonzero, Config.pfr_ctabDepth]

theorem upOnly_of_mode {P : Params} {sel : Selection} {f : Factor} (h : (derive P sel f).mode = .upOnly) :
    sel.tsel ≠ .none ∧ f.atLeastOne = true := by
  rw [derive_mode, selectMode] at h
  split_ifs at h with hs hf
  exact ⟨hs, hf⟩

/-- R118: in UpOnly a table of at most `Npc * (Nmult + 1) / 2` entries stays within the reach. -/
theorem reachFails_of_short {sel : Selection} {f : Factor} (hm : (derive Config.pfr sel f).mode = .upOnly)
    (hn : 2 * sel.header.nwing.toNat ≤ 256 * (sel.header.nmult.toNat + 1)) :
    reachFails Config.pfr (derive Config.pfr sel f) sel.header.nwing.toNat = false := by
  obtain ⟨hs, hf⟩ := upOnly_of_mode hm
  have reach : sel.header.nmult.toNat + 1 ≤ 2 * ⌈((sel.header.nmult.toNat : ℚ) + 1) / 2⌉.toNat := by
    have := le_toNat_ceil (((sel.header.nmult.toNat : ℚ) + 1) / 2)
    exact_mod_cast (div_le_iff₀' two_pos).1 this
  rw [Bool.eq_false_iff, ne_eq, reachFails_iff, derive_upOnly _ hs hf]
  simp only [lmaxOf, rmaxOf, Config.pfr_npc, not_or, not_lt, ceilDiv_le_iff (show 0 < 256 by decide)]
  omega

/-- Settles O32: built-in headers are made legal, making legal reaches every legal header, and a short table fits UpOnly's reach. -/
theorem builtInTablesAreLegalAndShortTablesPassReach : Obligations.BuiltInTablesAreLegalAndShortTablesPassReach := by
  refine ⟨?_, fun h h1 h2 h3 => ?_, fun sel f hm hn => reachFails_of_short hm hn⟩
  · rintro h (rfl | rfl) <;> exact (wf_pfr_iff _).1 (TableHeader.legal_wf (by decide) _)
  · exact TableHeader.exists_legal_eq ((wf_pfr_iff h).2 ⟨h1, h2, h3⟩)

end Sys2Proof.Machine
end

section
/-! PROOFS. Create: a CREATE that passes its checks, with the whole next state of each mode (R121, R230). -/

namespace Sys2Proof.Machine

/-! ## From the derived integers to the recorded words (R121) -/

theorem ofNat_toNat_eq_ofInt (w : Nat) {z : Int} (h : 0 ≤ z) : BitVec.ofNat w z.toNat = BitVec.ofInt w z := by
  conv_rhs => rw [← Int.toNat_of_nonneg h]
  rw [BitVec.ofInt_natCast]

/-- The ceiling of R118, as the rounded-up quotient of naturals. -/
theorem ceilDiv_le_of_ceil_le {a b m : Nat} (hb : 0 < b) (h : ⌈(a : ℚ) / b⌉ ≤ m) : ceilDiv a b ≤ m := by
  have hq : (a : ℚ) / b ≤ m := by exact_mod_cast Int.ceil_le.1 h
  rw [ceilDiv_le_iff hb]
  exact_mod_cast (div_le_iff₀ (by exact_mod_cast hb)).1 hq

theorem one_le_toNat_rnd {q : ℚ} (h : 1 / 2 ≤ q) : 1 ≤ (rnd q).toNat := by
  have : 1 ≤ rnd q := Int.le_floor.2 (by push_cast; linarith)
  omega

/-! ## CREATE's checks and writes -/

theorem positiveFactor_finite {v : FVal} {q : ℚ} (hv : v = .finite q) (hq : 0 < q) :
    positiveFactor v = some (.finite q) := by
  rw [hv]
  exact if_pos hq

theorem bindsTable_tsel_ne {l : Latched} {tsel : TableSel} {h : TableHeader} (hb : BindsTable l tsel h) : tsel ≠ .none := by
  rcases hb with ⟨-, rfl, -⟩ | ⟨-, rfl, -⟩ | ⟨-, -, -, -, -, rfl, -⟩ <;> simp

/-- A bound table has an entry (R110, R117). -/
theorem bindsTable_nwing_pos {l : Latched} {tsel : TableSel} {h : TableHeader} (hb : BindsTable l tsel h) :
    1 ≤ h.nwing.toNat := by
  rcases hb with ⟨-, -, rfl⟩ | ⟨-, -, rfl⟩ | ⟨-, -, entry, -, -, -, rfl⟩
  · exact ((wf_pfr_iff _).1 (TableHeader.legal_wf (by decide) _)).1
  · exact ((wf_pfr_iff _).1 (TableHeader.legal_wf (by decide) _)).1
  · exact entry

/-- In a FIR mode a reach that fits XBUF keeps the period and the creep within their checks (R119, R120). -/
theorem failingCheck_of_fir {sel : Selection} {q : ℚ} {nwing : Nat} (hq : 0 < q) (hs : sel.tsel ≠ .none) :
    let d := derive Config.pfr sel (.finite q)
    1 ≤ d.dtb → (d.mode = .upDown → 1 ≤ d.dhb) → 2 * d.xoff ≤ 16384 → lmaxOf Config.pfr d.mode nwing d.dhb ≤ d.xoff + 1 →
      rmaxOf Config.pfr d.mode nwing d.dhb ≤ d.xoff → failingCheck Config.pfr d nwing = none := by
  intro d period step alloc left right
  have creep : (d.dtb - 1) / 2 ^ 15 ≤ 2 * d.xoff := derive_creep_le hq hs
  exact (failingCheck_eq_none _ _ _).2 ⟨⟨period, by omega, step, by omega⟩, alloc, ⟨left, right⟩, creep⟩

/-- What a CREATE that passes its checks leaves, with the configuration and XBUF named (R121, R230). -/
theorem exec_create_eq {s : State} {f : Factor} {sel : Selection} {act : ActiveConfig} {xbuf : List Frame}
    (hr : s.ready = false) (hf : positiveFactor (fval s.latched.factorBits) = some f)
    (hs : selectTable Config.pfr s.latched = .ok sel)
    (hc : failingCheck Config.pfr (derive Config.pfr sel f) sel.header.nwing.toNat = none)
    (hact : activeConfigOf (derive Config.pfr sel f) sel s.latched.interp = act)
    (hx : zeroXbuf (derive Config.pfr sel f).xoff = xbuf) :
    exec .create s = .next
      { s with
        ready := true, busy := false, err := .none, act := act, pos := { ncreep := 0, tfrac := 0 }, outCount := 0
        xbuf := xbuf, sticky := { accOvf := false, overrun := false, ctabWlock := false } } := by
  rw [exec_create_of hr hf hs hc, ← hact, ← hx]
  rfl

theorem zeroXbuf_ceil (z : Int) (hz : 0 ≤ z) :
    zeroXbuf (z.toNat + 10) = List.replicate (2 * (z + 10)).toNat { left := 0, right := 0 } := by
  rw [zeroXbuf, show (2 * (z + 10)).toNat = 2 * (z.toNat + 10) by omega]
  rfl

theorem ofNat_xoff (z : Int) (hz : 0 ≤ z) : BitVec.ofNat 16 (z.toNat + 10) = BitVec.ofInt 16 (z + 10) := by
  rw [← ofNat_toNat_eq_ofInt 16 (by omega : 0 ≤ z + 10), Int.toNat_add hz (by decide)]
  rfl

/-- R112's period, as the word DTB. -/
theorem ofNat_dtbOf {q : ℚ} (hq : 0 < q) :
    BitVec.ofNat 32 (dtbOf Config.pfr (.finite q)) = BitVec.ofInt 32 ⌊(2 : ℚ) ^ 15 / q + 1 / 2⌋ :=
  ofNat_toNat_eq_ofInt 32 (rnd_nonneg (by positivity) : 0 ≤ rnd ((2 : ℚ) ^ 15 / q))

/-- Settles O28: in Fast the reach is fixed, so the creep check alone bounds the period. -/
theorem createBasicCompletes : Obligations.CreateBasicCompletes := by
  intro s q hr hv hq hb period creep
  refine exec_create_eq hr (positiveFactor_finite hv hq) (selectTable_basic _ hb) ?_ ?_ ?_ <;> rw [derive_fast _ rfl]
  · have dtb : dtbOf Config.pfr (.finite q) = ⌊(2 : ℚ) ^ 15 / q + 1 / 2⌋.toNat := rfl
    rw [failingCheck_eq_none, dtb]
    refine ⟨⟨?_, ?_, by simp, ?_⟩, ?_, ⟨?_, ?_⟩, ?_⟩ <;>
      dsimp only [Config.pfr_np, Config.pfr_xbufFramesMax, lmaxOf, rmaxOf] <;> omega
  · rw [activeConfigOf, ofNat_dtbOf hq]
    rfl
  · rfl

/-- Settles O29: the bound table and a factor of at least 1 select UpOnly, whose step is the full one. -/
theorem createUpOnlyCompletes : Obligations.CreateUpOnlyCompletes := by
  intro s q tsel h hr hv h1 hb x period alloc left right
  have hq : 0 < q := by linarith
  have hs : tsel ≠ .none := bindsTable_tsel_ne hb
  have hd := derive_upOnly Config.pfr (sel := { tsel := tsel, header := h }) hs (f := .finite q)
    (by simpa [Factor.atLeastOne] using h1)
  have reach : 0 ≤ ⌈((h.nmult.toNat : ℚ) + 1) / 2⌉ := Int.ceil_nonneg (by positivity)
  have gain : 0 ≤ rnd ((h.lpscl.toNat : ℚ) * (19 / 20)) := rnd_nonneg (by positivity)
  refine exec_create_eq hr (positiveFactor_finite hv hq) (selectTable_of_bindsTable hb)
    (failingCheck_of_fir hq hs ?_ ?_ ?_ ?_ ?_) ?_ ?_ <;> rw [hd] <;> dsimp only
  · exact (Int.le_toNat (zero_le_one.trans period)).2 period
  · intro hm
    cases hm
  · omega
  · exact ceilDiv_le_of_ceil_le (b := 256) (by decide) (by push_cast; omega)
  · refine ceilDiv_le_of_ceil_le (b := 256) (by decide) ?_
    rw [Nat.cast_pred (bindsTable_nwing_pos hb)]
    push_cast
    omega
  · rw [activeConfigOf, ofNat_xoff _ reach, ofNat_toNat_eq_ofInt _ gain,
      ofNat_dtbOf hq,
      show (h.lpscl.toNat : ℚ) * 19 / 20 = h.lpscl.toNat * (19 / 20) by ring]
    rfl
  · exact zeroXbuf_ceil _ reach

/-- In UpDown a reach that fits XBUF keeps the step away from 0 (R113, R116). -/
theorem one_le_step_of_reach {q : ℚ} (hq : 0 < q) (nmult : Nat)
    (hx : 2 * (⌈((nmult : ℚ) + 1) / (2 * q)⌉ + 10) ≤ 16384) : 1 ≤ (rnd (q * 2 ^ 15)).toNat := by
  have reach : ((nmult : ℚ) + 1) / (2 * q) ≤ (8182 : ℤ) := Int.ceil_le.1 (by omega)
  have taps : (nmult : ℚ) + 1 ≤ 8182 * (2 * q) := (div_le_iff₀ (by positivity)).1 (by exact_mod_cast reach)
  exact one_le_toNat_rnd (by linarith [(Nat.cast_nonneg nmult : (0 : ℚ) ≤ nmult)])

/-- Settles O30: the bound table and a factor below 1 select UpDown; the reach bounds the step and the period. -/
theorem createUpDownCompletes : Obligations.CreateUpDownCompletes := by
  intro s q tsel h hr hv hq h1 hb x b alloc left right
  have hs : tsel ≠ .none := bindsTable_tsel_ne hb
  have hd := derive_upDown Config.pfr (sel := { tsel := tsel, header := h }) hs h1
  rw [dhbUpDown_pfr h1] at hd
  have reach : 0 ≤ ⌈((h.nmult.toNat : ℚ) + 1) / (2 * q)⌉ := Int.ceil_nonneg (by positivity)
  have gain : 0 ≤ rnd ((h.lpscl.toNat : ℚ) * (19 / 20) * q) := rnd_nonneg (by positivity)
  have step : 1 ≤ (rnd (q * 2 ^ 15)).toNat := one_le_step_of_reach hq _ alloc
  have step_eq : ((rnd (q * 2 ^ 15)).toNat : ℤ) = b := Int.toNat_of_nonneg (by omega)
  have period : 1 ≤ (rnd (2 ^ 15 / q)).toNat := one_le_toNat_rnd ((le_div_iff₀ hq).2 (by linarith))
  rw [← step_eq] at left right
  refine exec_create_eq hr (positiveFactor_finite hv hq) (selectTable_of_bindsTable hb)
    (failingCheck_of_fir hq hs ?_ ?_ ?_ ?_ ?_) ?_ ?_ <;> rw [hd] <;> dsimp only
  · exact period
  · exact fun _ => step
  · omega
  · refine ceilDiv_le_of_ceil_le (a := h.nwing.toNat * 128) step ?_
    push_cast at left ⊢
    omega
  · refine ceilDiv_le_of_ceil_le (a := (h.nwing.toNat - 1) * 128) step ?_
    push_cast [Nat.cast_pred (bindsTable_nwing_pos hb)] at right ⊢
    omega
  · rw [activeConfigOf, ofNat_xoff _ reach, ofNat_toNat_eq_ofInt _ gain,
      ofNat_dtbOf hq,
      ofNat_toNat_eq_ofInt 32 (by omega : 0 ≤ rnd (q * 2 ^ 15)),
      show (h.lpscl.toNat : ℚ) * 19 / 20 * q = h.lpscl.toNat * (19 / 20) * q by ring]
    rfl
  · exact zeroXbuf_ceil _ reach

end Sys2Proof.Machine
end

section
/-! PROOFS. Process: the window (R151 to R153), the times of a block that fits (R161 to R167), and what PROCESS does to the state
(R235). -/

namespace Sys2Proof.Machine

/-! ## The window (R152) and the history it leaves (R153) -/

/-- The window starts with XBUF's frames. -/
theorem windowFrame_xbuf (s : State) (n : Nat) {w : Nat} (h : w < 2 * s.act.xoff.toNat) :
    windowFrame s n w = xbufFrame s w := by
  rw [windowFrame, if_pos (by omega), Int.toNat_natCast]

/-- After XBUF's frames the window has the block's. -/
theorem windowFrame_in (s : State) {n j : Nat} (h : j < n) :
    windowFrame s n (2 * s.act.xoff.toNat + j : Nat) = inFrame s j := by
  rw [windowFrame, if_neg (by omega), if_pos (by omega)]
  congr 1
  omega

/-- A block at least as long as the history leaves its own last frames in XBUF. -/
theorem getElem?_nextXbuf (s : State) {n j : Nat} (hn : 2 * s.act.xoff.toNat ≤ n) (hj : j < 2 * s.act.xoff.toNat) :
    (nextXbuf s n)[j]? = some (inFrame s (n - 2 * s.act.xoff.toNat + j)) := by
  have hw := windowFrame_in s (show n - 2 * s.act.xoff.toNat + j < n by omega)
  rw [show 2 * s.act.xoff.toNat + (n - 2 * s.act.xoff.toNat + j) = n + j by omega] at hw
  rw [nextXbuf, List.getElem?_map, List.getElem?_range hj, Option.map_some, hw]

@[simp] theorem length_nextXbuf (s : State) (n : Nat) : (nextXbuf s n).length = 2 * s.act.xoff.toNat := by
  simp [nextXbuf]

/-! ## Times (R161 to R166) -/

theorem startTime_pfr (s : State) :
    startTime Config.pfr s = (s.pos.ncreep.toNat + s.act.xoff.toNat) * 32768 + s.pos.tfrac.toNat := rfl

theorem endTime_pfr (s : State) (n : Nat) : endTime Config.pfr s n = (s.act.xoff.toNat + n) * 32768 := rfl

/-- `E <= Tend`: the loop of R163 ends at or after `E`. -/
theorem endTime_le_finalTime (P : Params) {s : State} (n : Nat) (hd : 1 ≤ s.act.dtb.toNat) :
    endTime P s n ≤ finalTime P s n := by
  have covers : endTime P s n - startTime P s ≤ outputCount P s n * s.act.dtb.toNat := (ceilDiv_le_iff hd).1 le_rfl
  rw [finalTime, outputTime]
  omega

theorem outputTime_lt_endTime {P : Params} {s : State} {n k : Nat} (hd : 1 ≤ s.act.dtb.toNat)
    (hk : k < outputCount P s n) : outputTime P s k < endTime P s n := by
  have below := (lt_ceilDiv_iff hd).1 hk
  rw [outputTime]
  omega

theorem finalTime_lt {P : Params} {s : State} {n : Nat} (hd : 1 ≤ s.act.dtb.toNat) (hk : 1 ≤ outputCount P s n) :
    finalTime P s n < endTime P s n + s.act.dtb.toNat := by
  obtain ⟨k, hk'⟩ : ∃ k, outputCount P s n = k + 1 := ⟨_, (Nat.sub_add_cancel hk).symm⟩
  have last := outputTime_lt_endTime (P := P) (n := n) (k := k) hd (by omega)
  rw [finalTime, hk', outputTime, Nat.add_mul, Nat.one_mul]
  rw [outputTime] at last
  omega

/-- The outputs of R163 are its loop's. -/
theorem loopCount_outputCount (P : Params) {s : State} (n : Nat) (hd : 1 ≤ s.act.dtb.toNat) :
    LoopCount (startTime P s) (endTime P s n) s.act.dtb.toNat (outputCount P s n) :=
  ⟨fun _ hj => outputTime_lt_endTime hd hj, endTime_le_finalTime P n hd⟩

/-- The quotient rounded up, as the rational ceiling of R15. -/
theorem ceilDiv_eq_ceil {a b : Nat} (hb : 0 < b) : (ceilDiv a b : ℤ) = ⌈(a : ℚ) / b⌉ := by
  have natural : ceilDiv a b = ⌈(a : ℚ) / b⌉₊ := eq_of_forall_ge_iff fun m => by
    rw [ceilDiv_le_iff hb, Nat.ceil_le, div_le_iff₀ (by exact_mod_cast hb)]
    exact_mod_cast Iff.rfl
  rw [natural, Int.natCast_ceil_eq_ceil (by positivity)]

section
variable {s : State} {n : Nat} (hi : Inv Config.pfr s) (hf : BlockFits s n)
include hi hf

/-- A block that fits has frames left after the creep. -/
theorem startTime_lt_endTime : startTime Config.pfr s < endTime Config.pfr s n := by
  obtain ⟨hr, -, -, hlen⟩ := hf
  obtain ⟨⟨-, hfrac, hmin, -, -, -, -, -⟩, -⟩ := hi.ready hr
  rw [Config.pfr_np] at hfrac
  rw [startTime_pfr, endTime_pfr]
  omega

theorem one_le_outputCount : 1 ≤ outputCount Config.pfr s n := by
  have := startTime_lt_endTime hi hf
  exact (lt_ceilDiv_iff (hi.ready hf.1).1.period).2 (by omega)

/-- The frames by which the next output lies beyond the block (R166, R167). -/
theorem nextPosition_ncreep :
    (nextPosition Config.pfr s n).ncreep.toNat = (finalTime Config.pfr s n - endTime Config.pfr s n) / 2 ^ 15 ∧
      (nextPosition Config.pfr s n).ncreep.toNat ≤ (s.act.dtb.toNat - 1) / 2 ^ 15 := by
  obtain ⟨-, -, -, hmax, hd, hcreep, -, -⟩ := (hi.ready hf.1).1
  have top := finalTime_lt hd (one_le_outputCount hi hf)
  have frames : finalTime Config.pfr s n / 32768 - (s.act.xoff.toNat + n) =
      (finalTime Config.pfr s n - endTime Config.pfr s n) / 32768 := by
    rw [endTime_pfr, Nat.mul_comm, Nat.sub_mul_div]
  have bound : (finalTime Config.pfr s n - endTime Config.pfr s n) / 32768 ≤ (s.act.dtb.toNat - 1) / 32768 :=
    Nat.div_le_div_right (by omega)
  simp only [Config.pfr_np, Config.pfr_xbufFramesMax, Nat.reducePow] at hmax hcreep
  have word : (nextPosition Config.pfr s n).ncreep.toNat =
      (finalTime Config.pfr s n - endTime Config.pfr s n) / 32768 := by
    simp only [nextPosition, Config.pfr_np, Nat.reducePow, frames, BitVec.toNat_ofNat]
    exact Nat.mod_eq_of_lt (by omega)
  exact ⟨word, word ▸ bound⟩

theorem nextPosition_ncreep_le : (nextPosition Config.pfr s n).ncreep.toNat ≤ 2 * s.act.xoff.toNat :=
  (nextPosition_ncreep hi hf).2.trans (hi.ready hf.1).1.periodCreep

end

theorem nextPosition_tfrac (s : State) (n : Nat) :
    (nextPosition Config.pfr s n).tfrac.toNat = finalTime Config.pfr s n % 2 ^ 15 := by
  simp only [nextPosition, Config.pfr_np, BitVec.toNat_ofNat]
  omega

/-- Settles O48: a loop that ends at the first time not below `E` overshoots by less than one period. -/
theorem outputCountAndCreepBounds : Obligations.OutputCountAndCreepBounds := by
  intro s n hi hf
  have hd := (hi.ready hf.1).1.period
  have count := one_le_outputCount hi hf
  obtain ⟨creep, creep_le⟩ := nextPosition_ncreep hi hf
  refine ⟨count, endTime_le_finalTime _ n hd, finalTime_lt hd count, creep, creep_le, nextPosition_ncreep_le hi hf,
    fun small => ?_, fun hc ht => ?_⟩
  · refine BitVec.eq_of_toNat_eq ?_
    change _ = 0
    omega
  · have block : endTime Config.pfr s n - startTime Config.pfr s = n * 2 ^ 15 := by
      rw [startTime_pfr, endTime_pfr, hc, ht]
      change _ - ((0 + _) * 32768 + 0) = _
      omega
    rw [outputCount, block, ceilDiv_eq_ceil hd]
    push_cast
    rfl

/-! ## PROCESS completes (R235) -/

/-- Settles O45: the count is the loop's, the position is where the loop ended, and XBUF takes the block's last frames. -/
theorem processCarriesPositionAndHistory : Obligations.ProcessCarriesPositionAndHistory := by
  intro s n k hi hf t0 tend hl hk
  obtain ⟨rfl, hexec⟩ := exec_process_of_loopCount hi hf hl hk
  have final : finalTime Config.pfr s n = tend := rfl
  have past := endTime_le_finalTime Config.pfr n (hi.ready hf.1).1.period
  obtain ⟨creep, -⟩ := nextPosition_ncreep hi hf
  refine ⟨_, hexec, rfl, rfl, ?_, ?_, ?_, length_nextXbuf s n, fun j hj => ?_⟩
  · exact Nat.mod_eq_of_lt (by omega)
  · change (nextPosition Config.pfr s n).ncreep.toNat + _ = _
    rw [creep, ← final]
    rw [endTime_pfr] at past ⊢
    omega
  · exact nextPosition_tfrac s n
  · exact getElem?_nextXbuf s (Nat.le_of_add_right_le hf.2.2.2) hj

theorem processOvf_iff (P : Params) (s : State) (n : Nat) :
    processOvf P s n = true ↔
      ∃ j c, j < outputCount P s n ∧ (kernelOut P (tableEntry s) s.act (windowSample s n c) (outputTime P s j)).ovf = true := by
  simp only [processOvf, List.any_eq_true, List.mem_range, outputOvf, Bool.or_eq_true, kernelAt]
  constructor
  · rintro ⟨j, hj, h | h⟩
    · exact ⟨j, .left, hj, h⟩
    · exact ⟨j, .right, hj, h⟩
  · rintro ⟨j, c, hj, h⟩
    cases c with
    | left => exact ⟨j, hj, .inl h⟩
    | right => exact ⟨j, hj, .inr h⟩

/-- Settles O47: the record of PROCESS holds every field it does not name, and ORs the kernels' monitors into ACC_OVF. -/
theorem processFrame : Obligations.ProcessFrame := by
  intro s n k hi hf hl hk
  obtain ⟨rfl, hexec⟩ := exec_process_of_loopCount hi hf hl hk
  refine ⟨_, hexec, rfl, rfl, hf.1, rfl, rfl, rfl, rfl, rfl, rfl, drawOutputs_host _ _ _, drawOutputs_rdata _ _ _, ?_⟩
  rw [finish_sticky, recordProcess_sticky, Sticky.noteOvf, Bool.or_eq_true, processOvf_iff]
  rfl

/-- A PROCESS that fails a check raises its code. -/
theorem exec_process_of_failing {s : State} {e : ErrCode} (h : processCheck Config.pfr s (blockLength s) = some e) :
    exec .process s = .next (raise e s) := by
  refine exec_of_error (i := .process) ?_
  rw [commandRule, processRule, h]

/-- R235's checks after the first, in numbers. -/
theorem processCheck_of_ready {s : State} (hr : s.ready = true) (n : Nat) :
    processCheck Config.pfr s n =
      if 65536 < n then some .precondRange
      else if n < 2 * s.act.xoff.toNat + s.pos.ncreep.toNat then some .precondShort
      else if 262144 < outputCount Config.pfr s n then some .outOverflow
      else none :=
  if_neg (by simp [hr])

/-- Settles O26: each clause is one check of PROCESS, reached because the checks before it pass. -/
theorem processErrorsInOrder : Obligations.ProcessErrorsInOrder := by
  intro s n
  refine ⟨fun hr => exec_process_of_failing (if_pos hr), fun hr long => ?_, fun hr fits short => ?_, fun k hi hf hl hk => ?_⟩
  · exact exec_process_of_failing ((processCheck_of_ready hr n).trans (if_pos long))
  · refine exec_process_of_failing ((processCheck_of_ready hr n).trans ?_)
    rw [if_neg (Nat.not_lt.2 fits), if_pos short]
  · obtain ⟨hr, -, fits, covers⟩ := id hf
    have count : outputCount Config.pfr s n = k := outputCount_eq_of_loopCount (hi.ready hr).1.period hl
    refine exec_process_of_failing ((processCheck_of_ready hr n).trans ?_)
    rw [if_neg (Nat.not_lt.2 fits), if_neg (Nat.not_lt.2 covers), count, if_pos hk]

/-! ## A broken duty (R290 b, U5) -/

/-- A state with another current memory and another environment of the same epoch. -/
def withMemEnv (s : State) (m : Memory) (e : Env) : State := { s with mem := m, env := e }

theorem tableEntry_withMemEnv {s : State} {e : Env} (he : e.epoch = s.env.epoch) (m : Memory) :
    tableEntry (withMemEnv s m e) = tableEntry s := by
  funext h
  simp only [tableEntry, withMemEnv, he]

theorem inFrame_withMemEnv {s : State} {e : Env} (he : e.epoch = s.env.epoch) (m : Memory) :
    inFrame (withMemEnv s m e) = inFrame s := by
  funext f
  simp only [inFrame, withMemEnv, he]

theorem windowFrame_withMemEnv {s : State} {e : Env} (he : e.epoch = s.env.epoch) (m : Memory) :
    windowFrame (withMemEnv s m e) = windowFrame s := by
  funext n w
  rw [windowFrame, inFrame_withMemEnv he]
  rfl

theorem processOvf_withMemEnv {s : State} {e : Env} (he : e.epoch = s.env.epoch) (m : Memory) (P : Params) (n : Nat) :
    processOvf P (withMemEnv s m e) n = processOvf P s n := by
  have samples : windowSample (withMemEnv s m e) n = windowSample s n := by
    funext c w
    rw [windowSample, windowFrame_withMemEnv he]
    rfl
  rw [Bool.eq_iff_iff, processOvf_iff, processOvf_iff, tableEntry_withMemEnv he, samples]
  rfl

theorem nextXbuf_withMemEnv {s : State} {e : Env} (he : e.epoch = s.env.epoch) (m : Memory) (n : Nat) :
    nextXbuf (withMemEnv s m e) n = nextXbuf s n := by
  rw [nextXbuf, windowFrame_withMemEnv he]
  rfl

/-- A PROCESS draws free values and nothing else from the model's environment. -/
theorem drawOutputs_eq (P : Params) (s : State) (n : Nat) :
    drawOutputs P s n = { s.env with free := (drawOutputs P s n).free } := by
  unfold drawOutputs
  split <;> rfl

/-- Settles O51: checks, position, history and monitors read neither current memory nor the breach, only the latched operands. -/
theorem brokenDutyReachesOutWordsOnly : Obligations.BrokenDutyReachesOutWordsOnly := by
  intro s m e he
  have check : processCheck Config.pfr (withMemEnv s m e) (blockLength s) = processCheck Config.pfr s (blockLength s) := rfl
  cases hc : processCheck Config.pfr s (blockLength s) with
  | some code =>
    exact ⟨_, _, exec_process_of_failing hc, exec_process_of_failing (check.trans hc), rfl, rfl, fun x _ => rfl⟩
  | none =>
    refine ⟨_, _, exec_process_of_check hc, exec_process_of_check (check.trans hc), ?_, drawOutputs_eq _ _ _, fun x hx => ?_⟩
    · change finish (recordProcess Config.pfr (withMemEnv s m e) (blockLength s)) = _
      rw [recordProcess, processOvf_withMemEnv he, nextXbuf_withMemEnv he]
      rfl
    · have epoch : (drawOutputs Config.pfr (withMemEnv s m e) (blockLength s)).epoch = e.epoch := drawOutputs_epoch _ _ _
      change byteAt (drawOutputs Config.pfr (withMemEnv s m e) (blockLength s)).epoch _ _ = _
      rw [epoch]
      exact byteAt_recordProcess_outside (s := withMemEnv s m e) hx _

end Sys2Proof.Machine
end

section
/-! PROOFS. Steps: what a successful command writes (R230 to R243) and what a bus write and a host operation leave of the state (R60
to R72), said once. -/

namespace Sys2Proof.Machine

/-! ## Successful commands -/

/-- The four successful commands, each with the checks it passed and everything it writes (R223). -/
theorem commandRule_ok_cases {i : Instr} {s u : State} (h : commandRule Config.pfr i s = .ok u) :
    (∃ f sel, i = .create ∧ s.ready = false ∧ positiveFactor (fval s.latched.factorBits) = some f ∧
      selectTable Config.pfr s.latched = .ok sel ∧
      failingCheck Config.pfr (derive Config.pfr sel f) sel.header.nwing.toNat = none ∧
      u = recordCreate s (derive Config.pfr sel f) sel) ∨
      (i = .process ∧ BlockFits s (blockLength s) ∧ outputCount Config.pfr s (blockLength s) ≤ 262144 ∧
        u = recordProcess Config.pfr s (blockLength s)) ∨
      (i = .flush ∧ s.ready = true ∧ u = recordFlush s) ∨ (i = .destroy ∧ s.ready = true ∧ u = recordDestroy s) := by
  cases i with
  | create =>
    rcases createRule_cases s with ⟨e, he, -⟩ | ⟨f, sel, hr, hf, hs, hc, hok⟩
    · cases he.symm.trans h
    · cases hok.symm.trans h
      exact .inl ⟨f, sel, rfl, hr, hf, hs, hc, rfl⟩
  | process =>
    rcases processRule_cases s with ⟨e, he, -⟩ | ⟨hr, fits, covers, hk, hok⟩
    · cases he.symm.trans h
    · cases hok.symm.trans h
      exact .inr (.inl ⟨rfl, ⟨hr, rfl, fits, covers⟩, hk, rfl⟩)
  | flush =>
    cases hr : s.ready with
    | false => cases (flushRule_of_unconfigured hr).symm.trans h
    | true =>
      cases (flushRule_of_ready hr).symm.trans h
      exact .inr (.inr (.inl ⟨rfl, rfl, rfl⟩))
  | destroy =>
    cases hr : s.ready with
    | false => cases (destroyRule_of_unconfigured hr).symm.trans h
    | true =>
      cases (destroyRule_of_ready hr).symm.trans h
      exact .inr (.inr (.inr ⟨rfl, rfl, rfl⟩))

/-! ## Bus writes -/

/-- Everything a bus write can do (R63, R66, R73): request a command, set register fields, be dropped by the CTAB lock, or store one
word (and break the duty of R290). -/
theorem busWrite_cases (s : State) (a : Offset) (d : Word) :
    (a = 0#22 ∧ busWrite Config.pfr s a d = commandWrite s d) ∨
      (∃ r, busWrite Config.pfr s a d = { s with regs := r }) ∨
      (∃ i, targetOf Config.pfr a.toNat = .ctab i ∧ (s.ready = true ∨ s.busy = true) ∧
        busWrite Config.pfr s a d = { s with sticky := s.sticky.noteWlock }) ∨
      ∃ m e, (e = s.env ∨ e = (breakDuty s).env) ∧ busWrite Config.pfr s a d = { s with mem := m, env := e } := by
  unfold busWrite
  split
  case h_1 r hr =>
    have offset := targetOf_csr hr
    cases r with
    | cmd => exact .inl ⟨BitVec.eq_of_toNat_eq offset, rfl⟩
    | _ => exact .inr (.inl ⟨_, rfl⟩)
  case h_3 i hi =>
    by_cases locked : s.ready = true ∨ s.busy = true
    · exact .inr (.inr (.inl ⟨i, hi, locked, ctabWrite_locked locked i d⟩))
    · simp only [not_or, Bool.not_eq_true] at locked
      exact .inr (.inr (.inr ⟨_, s.env, .inl rfl, ctabWrite_unlocked locked.1 locked.2 i d⟩))
  case h_4 f hf =>
    unfold inWrite
    split
    · exact .inr (.inr (.inr ⟨_, _, .inr rfl, rfl⟩))
    · exact .inr (.inr (.inr ⟨_, _, .inl rfl, rfl⟩))
  case h_5 k hk =>
    unfold outWrite
    split
    · exact .inr (.inr (.inr ⟨_, _, .inr rfl, rfl⟩))
    · exact .inr (.inr (.inr ⟨_, _, .inl rfl, rfl⟩))
  all_goals exact .inr (.inl ⟨s.regs, rfl⟩)

/-- The fields a command works on: READY, the configuration, the position, OUT_COUNT and XBUF. -/
def SameStream (t s : State) : Prop :=
  t.ready = s.ready ∧ t.act = s.act ∧ t.pos = s.pos ∧ t.outCount = s.outCount ∧ t.xbuf = s.xbuf

/-- No host operation but reset reaches what a command works on. -/
theorem hostOperation_sameStream (s : State) {op : HostOp} (hop : op ≠ .reset) (rest : List HostOp) :
    SameStream (hostOperation Config.pfr s op rest) s := by
  cases op with
  | write a d => exact busWrite_keeps (popHost s rest) a d
  | read a =>
    obtain ⟨e, he⟩ := afterBusRead_eq (popHost s rest) a
    simp only [hostOperation, he]
    exact ⟨rfl, rfl, rfl, rfl, rfl⟩
  | poll => exact ⟨rfl, rfl, rfl, rfl, rfl⟩
  | reset => exact absurd rfl hop

/-- Settles O56: a step that is neither the engine's nor a reset is a bus transaction, a poll, or nothing. -/
theorem onlyCommandsChangeTheConfiguration : Obligations.OnlyCommandsChangeTheConfiguration := by
  intro s t hst hengine hreset
  rcases step_cases hst with ⟨_, engine, -⟩ | ⟨op, rest, hm, -, rfl⟩ | ⟨-, -, -, rfl⟩
  · exact absurd engine hengine
  · exact hostOperation_sameStream s (fun h => hreset rest (h ▸ hm)) rest
  · exact ⟨rfl, rfl, rfl, rfl, rfl⟩

end Sys2Proof.Machine
end

section
/-! PROOFS. Invariant: the invariant of R40 holds at reset and every step keeps it, so no run stops (R250). -/

namespace Sys2Proof.Machine

/-! ## Memory -/

theorem MemoryOk.write {P : Params} {m : Memory} {a : Nat} {bs : List Byte} (h : MemoryOk P m)
    (mapped : ∀ x, a ≤ x → x < a + bs.length → Mapped P x) : MemoryOk P (m.write a bs) := by
  refine ⟨Memory.write_wf h.wf a bs, fun c hc => ?_⟩
  rcases Memory.mem_write hc with hc | ⟨h1, h2⟩
  · exact h.mapped c hc
  · exact mapped c.1 h1 h2

theorem memoryOk_nil (P : Params) : MemoryOk P [] := ⟨List.Pairwise.nil, fun _ hc => absurd hc List.not_mem_nil⟩

theorem mapped_pfr (x : Nat) :
    Mapped Config.pfr x ↔ (65536 ≤ x ∧ x < 131072) ∨ (1048576 ≤ x ∧ x < 1310720) ∨ (2097152 ≤ x ∧ x < 3145728) := Iff.rfl

/-- A stored word lies in the region its offset names (R62). -/
theorem memoryOk_busWrite {s : State} (h : MemoryOk Config.pfr s.mem) (a : Offset) (d : Word) :
    MemoryOk Config.pfr (busWrite Config.pfr s a d).mem := by
  rcases busWrite_mem s a d with hm | ⟨w, hm, target⟩ <;> rw [hm]
  · exact h
  · refine h.write fun x h1 h2 => (mapped_pfr x).2 ?_
    rw [length_bytesOfWord] at h2
    rcases target with ⟨i, hi, -, -⟩ | ⟨f, hf⟩ | ⟨k, hk⟩
    · obtain ⟨entry, offset⟩ := targetOf_ctab hi
      rw [ctabAddr, ctabBase] at offset
      omega
    · obtain ⟨frame, offset⟩ := targetOf_input hf
      rw [inAddr, inBase] at offset
      omega
    · obtain ⟨frame, offset⟩ := targetOf_output hk
      rw [outAddr, outBase] at offset
      omega

/-- The OUT words of a PROCESS that fits lie in OUT (R69). -/
theorem memoryOk_recordProcess {s : State} {n : Nat} (h : MemoryOk Config.pfr s.mem)
    (hk : outputCount Config.pfr s n ≤ 262144) : MemoryOk Config.pfr (recordProcess Config.pfr s n).mem := by
  refine h.write fun x h1 h2 => (mapped_pfr x).2 ?_
  rw [length_bytesOfWords, length_outputWords] at h2
  rw [outBase] at h1 h2
  omega

/-! ## States that agree on what a command works on -/

/-- The invariant's clauses on READY speak of the fields of `SameStream` alone. -/
theorem Inv.of_sameStream {s t : State} (hi : Inv Config.pfr s) (same : SameStream t s) (hm : MemoryOk Config.pfr t.mem)
    (hl : MemoryOk Config.pfr t.latched.mem) (hp : t.busy = true → ∃ i, decode (pendingWord t) = .ok i) : Inv Config.pfr t := by
  obtain ⟨hready, hact, hpos, hout, hxbuf⟩ := same
  refine ⟨hm, hl, hp, fun hr => ?_, fun hr => ?_⟩
  · obtain ⟨⟨h1, h2, h3, h4, h5, h6, h7, h8⟩, ⟨g1, g2, g3, g4, g5, g6⟩⟩ := hi.ready (hready ▸ hr)
    rw [← hact] at h1 h3 h4 h5 h6 h7 h8 g1 g2 g3 g4 g5 g6
    rw [← hpos] at h1 h2
    rw [← hxbuf] at g6
    exact ⟨⟨h1, h2, h3, h4, h5, h6, h7, h8⟩, ⟨g1, g2, g3, g4, g5, g6⟩⟩
  · obtain ⟨⟨h1, h2⟩, h3, h4⟩ := hi.unconfigured (hready ▸ hr)
    exact ⟨⟨hact.trans h1, hpos.trans h2⟩, hxbuf.trans h3, hout.trans h4⟩

/-! ## Host operations -/

/-- Acceptance stores a command's OP, and PROCESS latches memory as it stands (R220, R35). -/
theorem accept_inv {s : State} (hi : Inv Config.pfr s) (i : Instr) : Inv Config.pfr (accept i s) := by
  refine hi.of_sameStream ⟨rfl, rfl, rfl, rfl, rfl⟩ hi.mem ?_ fun _ => ⟨i, decode_pending_of_opOf rfl⟩
  cases i with
  | process => exact hi.mem
  | create => exact hi.latchedMem
  | flush => exact hi.latchedMem
  | destroy => exact hi.latchedMem

theorem commandWrite_inv {s : State} (hi : Inv Config.pfr s) (d : Word) : Inv Config.pfr (commandWrite s d) := by
  rcases commandWrite_cases s d with ⟨-, h⟩ | ⟨-, i, -, h⟩ | ⟨-, -, -, h⟩ <;> rw [h]
  · exact hi.of_sameStream ⟨rfl, rfl, rfl, rfl, rfl⟩ hi.mem hi.latchedMem hi.pending
  · exact accept_inv hi i
  · exact hi.of_sameStream ⟨rfl, rfl, rfl, rfl, rfl⟩ hi.mem hi.latchedMem hi.pending

theorem busWrite_inv {s : State} (hi : Inv Config.pfr s) (a : Offset) (d : Word) : Inv Config.pfr (busWrite Config.pfr s a d) := by
  have hm := memoryOk_busWrite hi.mem a d
  rcases busWrite_cases s a d with ⟨-, h⟩ | ⟨r, h⟩ | ⟨-, -, -, h⟩ | ⟨m, e, -, h⟩ <;> rw [h] at hm ⊢
  · exact commandWrite_inv hi d
  · exact hi.of_sameStream ⟨rfl, rfl, rfl, rfl, rfl⟩ hi.mem hi.latchedMem hi.pending
  · exact hi.of_sameStream ⟨rfl, rfl, rfl, rfl, rfl⟩ hi.mem hi.latchedMem hi.pending
  · exact hi.of_sameStream ⟨rfl, rfl, rfl, rfl, rfl⟩ hm hi.latchedMem hi.pending

/-- The invariant says nothing about the model's own fields. -/
theorem Inv.withEnv {s : State} (hi : Inv Config.pfr s) (e : Env) : Inv Config.pfr { s with env := e } :=
  hi.of_sameStream ⟨rfl, rfl, rfl, rfl, rfl⟩ hi.mem hi.latchedMem hi.pending

/-- Settles O57: at reset nothing is configured, nothing is pending and no byte is listed. -/
theorem resetMeetsInvariant : Obligations.ResetMeetsInvariant where
  mem := memoryOk_nil _
  latchedMem := memoryOk_nil _
  pending := nofun
  ready := nofun
  unconfigured _ := ⟨⟨rfl, rfl⟩, rfl, rfl⟩

theorem hostOperation_inv {s : State} (hi : Inv Config.pfr s) (op : HostOp) (rest : List HostOp) :
    Inv Config.pfr (hostOperation Config.pfr s op rest) := by
  cases op with
  | write a d => exact (busWrite_inv (hi.withEnv _) a d).withEnv _
  | read a =>
    obtain ⟨e, he⟩ := afterBusRead_eq (popHost s rest) a
    simp only [hostOperation, he]
    exact hi.withEnv _
  | poll => exact hi.withEnv _
  | reset => exact resetMeetsInvariant.withEnv _

/-! ## CREATE -/

section
variable {d : Derived} (sel : Selection) (interp : Bool)

theorem activeConfigOf_xoff (h : d.xoff ≤ 65535) : (activeConfigOf d sel interp).xoff.toNat = d.xoff :=
  Nat.mod_eq_of_lt (Nat.lt_succ_of_le h)

theorem activeConfigOf_dtb (h : d.dtb ≤ 2 ^ 32 - 1) : (activeConfigOf d sel interp).dtb.toNat = d.dtb :=
  Nat.mod_eq_of_lt (by omega)

theorem activeConfigOf_dhb (h : d.dhb ≤ 2 ^ 15) : (activeConfigOf d sel interp).dhb.toNat = d.dhb :=
  Nat.mod_eq_of_lt (by omega)

theorem activeConfigOf_lpsclEff (h : d.lpsclEff ≤ 62258) : (activeConfigOf d sel interp).lpsclEff.toNat = d.lpsclEff :=
  Nat.mod_eq_of_lt (by omega)

end

theorem pos_of_positiveFactor {v : FVal} {q : ℚ} (h : positiveFactor v = some (.finite q)) : 0 < q := by
  cases v with
  | nan => cases h
  | infinity negative => cases negative <;> cases h
  | zero negative => cases h
  | finite r =>
    rw [positiveFactor] at h
    split_ifs at h with hr
    cases h
    exact hr

/-- A factor whose configuration passes the checks is finite and positive (R111, R120). -/
theorem finite_of_failingCheck_none {v : FVal} {f : Factor} {sel : Selection} {nwing : Nat} (hf : positiveFactor v = some f)
    (hc : failingCheck Config.pfr (derive Config.pfr sel f) nwing = none) : ∃ q, f = .finite q ∧ 0 < q := by
  cases f with
  | infinite => cases (failingCheck_infinite _ _ _).symm.trans hc
  | finite q => exact ⟨q, rfl, pos_of_positiveFactor hf⟩

/-- In Fast mode CREATE records no table, no step and no gain (R33, R121). -/
theorem activeConfigOf_fastZero {l : Latched} {sel : Selection} (hs : selectTable Config.pfr l = .ok sel) (f : Factor)
    (interp : Bool) (hm : (derive Config.pfr sel f).mode = .fast) :
    let act := activeConfigOf (derive Config.pfr sel f) sel interp
    act.dhb = 0 ∧ act.lpsclEff = 0 ∧ act.nwingAct = 0 ∧ act.nmultAct = 0 ∧ act.interpAct = false := by
  have none : sel.tsel = .none := (selectMode_fast_iff sel f).1 hm
  rcases selectTable_ok hs with rfl | table
  · rw [derive_fast _ none]
    exact ⟨rfl, rfl, rfl, rfl, rfl⟩
  · exact absurd none table

/-- What CREATE records meets the invariant, because it passed the checks of R118 to R120. -/
theorem recordCreate_inv {s : State} {f : Factor} {sel : Selection} (hi : Inv Config.pfr s)
    (hf : positiveFactor (fval s.latched.factorBits) = some f) (hs : selectTable Config.pfr s.latched = .ok sel)
    (hc : failingCheck Config.pfr (derive Config.pfr sel f) sel.header.nwing.toNat = none) :
    Inv Config.pfr (finish (recordCreate s (derive Config.pfr sel f) sel)) := by
  obtain ⟨q, rfl, hq⟩ := finite_of_failingCheck_none hf hc
  obtain ⟨⟨period, period_fits, step, reach_fits⟩, alloc, ⟨left, right⟩, creep⟩ := (failingCheck_eq_none _ _ _).1 hc
  have gain := derive_lpsclEff_le (sel := sel) hq
  have hxoff := activeConfigOf_xoff sel s.latched.interp reach_fits
  have hdtb := activeConfigOf_dtb sel s.latched.interp period_fits
  have hdhb := activeConfigOf_dhb sel s.latched.interp (derive_dhb_le sel q)
  have hgain := activeConfigOf_lpsclEff sel s.latched.interp gain
  have ready : ReadyOk Config.pfr (finish (recordCreate s (derive Config.pfr sel (.finite q)) sel)) := by
    constructor <;> simp only [finish_act, finish_pos, recordCreate_act, recordCreate_pos, hxoff, hdtb, hdhb]
    · exact Nat.zero_le _
    · exact Nat.zero_le _
    · exact ten_le_xoff _ _ _
    · exact alloc
    · exact period
    · exact creep
    · exact selectMode_fast_iff sel _
    · exact fun hm => ⟨step hm, derive_dhb_le sel q⟩
  have record : RecordOk Config.pfr (finish (recordCreate s (derive Config.pfr sel (.finite q)) sel)) := by
    constructor <;> simp only [finish_act, finish_xbuf, recordCreate_act, recordCreate_xbuf, hxoff, hdhb, hgain]
    · exact left
    · exact right
    · exact gain
    · intro hm
      obtain ⟨hsel, hone⟩ := upOnly_of_mode (P := Config.pfr) hm
      rw [derive_upOnly _ hsel hone]
    · exact activeConfigOf_fastZero hs _ _
    · exact List.length_replicate
  exact ⟨hi.mem, hi.latchedMem, nofun, fun _ => ⟨ready, record⟩, nofun⟩

/-! ## PROCESS, FLUSH and DESTROY -/

/-- A new position and history of the same lengths keep the invariant. -/
theorem Inv.of_newStream {s t : State} (hi : Inv Config.pfr s) (hr : s.ready = true) (ht : t.ready = true)
    (hact : t.act = s.act) (hcreep : t.pos.ncreep.toNat ≤ 2 * s.act.xoff.toNat) (hfrac : t.pos.tfrac.toNat ≤ 2 ^ 15 - 1)
    (hxbuf : t.xbuf.length = 2 * s.act.xoff.toNat) (hb : t.busy = false) (hm : MemoryOk Config.pfr t.mem)
    (hl : t.latched = s.latched) : Inv Config.pfr t := by
  refine ⟨hm, hl ▸ hi.latchedMem, fun h => ?_, fun _ => ?_, fun h => ?_⟩
  · rw [hb] at h
    cases h
  · obtain ⟨⟨-, -, h3, h4, h5, h6, h7, h8⟩, ⟨g1, g2, g3, g4, g5, -⟩⟩ := hi.ready hr
    rw [← hact] at h3 h4 h5 h6 h7 h8 g1 g2 g3 g4 g5 hcreep hxbuf
    exact ⟨⟨hcreep, hfrac, h3, h4, h5, h6, h7, h8⟩, ⟨g1, g2, g3, g4, g5, hxbuf⟩⟩
  · rw [ht] at h
    cases h

theorem recordProcess_inv {s : State} {n : Nat} (hi : Inv Config.pfr s) (hf : BlockFits s n)
    (hk : outputCount Config.pfr s n ≤ 262144) : Inv Config.pfr (finish (recordProcess Config.pfr s n)) := by
  refine hi.of_newStream hf.1 hf.1 rfl (nextPosition_ncreep_le hi hf) ?_ (length_nextXbuf s n) rfl
    (memoryOk_recordProcess hi.mem hk) rfl
  have := nextPosition_tfrac s n
  simp only [finish_pos, recordProcess_pos]
  omega

/-- A successful command keeps the invariant. -/
theorem commandRule_inv {i : Instr} {s u : State} (hi : Inv Config.pfr s) (h : commandRule Config.pfr i s = .ok u) :
    Inv Config.pfr (finish u) := by
  rcases commandRule_ok_cases h with ⟨f, sel, -, -, hf, hs, hc, rfl⟩ | ⟨-, fits, hk, rfl⟩ | ⟨-, hr, rfl⟩ | ⟨-, hr, rfl⟩
  · exact recordCreate_inv hi hf hs hc
  · exact recordProcess_inv hi fits hk
  · exact hi.of_newStream hr hr rfl (Nat.zero_le _) (Nat.zero_le _) List.length_replicate rfl hi.mem rfl
  · exact ⟨hi.mem, hi.latchedMem, nofun, nofun, fun _ => ⟨⟨rfl, rfl⟩, rfl, rfl⟩⟩

theorem exec_inv {i : Instr} {s t : State} (hi : Inv Config.pfr s) (h : exec i s = .next t) : Inv Config.pfr t := by
  rcases exec_cases h with ⟨e, -, -, rfl⟩ | ⟨u, hu, rfl⟩
  · exact hi.of_sameStream ⟨rfl, rfl, rfl, rfl, rfl⟩ hi.mem hi.latchedMem nofun
  · exact commandRule_inv hi hu

/-- Settles O58: a step is a command's completion, a host operation, or nothing, and each keeps the invariant. -/
theorem stepKeepsInvariant : Obligations.StepKeepsInvariant := by
  intro s t hi hst
  rcases step_cases hst with ⟨i, -, -, -, hexec⟩ | ⟨op, rest, -, -, rfl⟩ | ⟨-, -, -, rfl⟩
  · exact exec_inv hi hexec
  · exact hostOperation_inv hi op rest
  · exact hi

/-! ## Runs -/

theorem Inv.of_reaches {s t : State} (hi : Inv Config.pfr s) (h : Reaches s t) : Inv Config.pfr t := by
  induction h with
  | here => exact hi
  | step _ hstep ih => exact stepKeepsInvariant _ _ ih hstep

/-- Under the invariant a command is pending whenever the engine moves, so a step never stops. -/
theorem Inv.goes {s : State} (hi : Inv Config.pfr s) : Goes s := by
  by_cases hb : s.busy = true
  · by_cases hw : s.env.host = [] ∨ s.env.wait = 0
    · obtain ⟨i, hd⟩ := hi.pending hb
      rw [Goes, step_engine hb hw hd]
      exact exec_next i s
    · rw [not_or] at hw
      obtain ⟨op, rest, hh⟩ := List.exists_cons_of_ne_nil hw.1
      exact ⟨_, step_host hh (.inr hw.2)⟩
  · rw [Bool.not_eq_true] at hb
    cases hh : s.env.host with
    | nil => exact ⟨s, step_idle hh hb⟩
    | cons op rest => exact ⟨_, step_host hh (.inl hb)⟩

/-- Settles O59: every state a run reaches meets the invariant, and such a state has a next one. -/
theorem runsNeverStop : Obligations.RunsNeverStop := fun _ hi _ h => (hi.of_reaches h).goes

end Sys2Proof.Machine
end

section
/-! PROOFS. Turns: who moves (R295), what a host operation leaves of the command in flight (R35, R72), and that every accepted
command completes (R221). -/

namespace Sys2Proof.Machine

/-! ## Encoding (R90, R91) -/

theorem decode_encode (i : Instr) : decode (encode i) = .ok i :=
  decode_eq_ok_iff.2 ⟨rsvField_command _, opField_command _⟩

/-- A command word's bytes, whatever follows them, decode as the word does (R67). -/
theorem decodeBytes_bytesOfWord {w : Word} {i : Instr} (h : decode w = .ok i) (rest : List Byte) :
    decodeBytes (bytesOfWord w ++ rest) = .ok (i, rest) := by
  simp only [bytesOfWord, List.cons_append, List.nil_append, decodeBytes, wordOfBytes_bytesOfWord, h]

theorem decodeTableWord_encode (i : Instr) : decodeTableWord 32 (encode i).toNat = some i := by
  have bytes := decodeBytes_bytesOfWord (decode_encode i) []
  rw [List.append_nil] at bytes
  rw [decodeTableWord, if_pos le_rfl, Nat.mod_eq_of_lt (encode i).isLt, BitVec.ofNat_toNat, BitVec.setWidth_eq, bytes]

/-- Settles O2: the four words are the encodings of the commands; the other three fail one field's check. -/
theorem commandWordsReadRight : Obligations.CommandWordsReadRight :=
  ⟨decode_encode .create, decode_encode .process, decode_encode .flush, decode_encode .destroy, by decide, by decide, by decide⟩

/-- Settles O3: the word's two fields, its bytes and its table row all read back the command. -/
theorem decodeOfEncode : Obligations.DecodeOfEncode :=
  fun i rest => ⟨decode_encode i, decodeBytes_bytesOfWord (decode_encode i) rest, decodeTableWord_encode i⟩

/-! ## Whose turn it is -/

/-- Settles O4: at its turn the engine decodes the pending word and runs it. -/
theorem stepRunsPendingCommand : Obligations.StepRunsPendingCommand :=
  fun _ _ hb hturn hd => step_engine hb hturn hd

theorem withFetchWord_encode (s : State) (i : Instr) :
    s.withFetchWord 32 (encode i).toNat = { accept i s with env := { (accept i s).env with wait := 0 } } := by
  rw [State.withFetchWord, decodeTableWord_encode]

/-- Settles O5: the placed command is pending with no host operation left before the engine. -/
theorem fetchedWordRunsNext : Obligations.FetchedWordRunsNext := by
  intro s i
  rw [withFetchWord_encode]
  exact ⟨step_engine rfl (.inr rfl) (decode_pending_of_opOf rfl), rfl⟩

/-- A bus read changes nothing, or breaks the duty of R290 (b). -/
theorem afterBusRead_cases (s : State) (a : Offset) :
    afterBusRead Config.pfr s a = s ∨ afterBusRead Config.pfr s a = breakDuty s := by
  unfold afterBusRead
  split
  · split
    · exact .inr rfl
    · exact .inl rfl
  all_goals exact .inl rfl

/-- R24: a read at a register's offset returns the register. -/
theorem busRead_of_csr {P : Params} {a : Offset} {r : Reg} (h : targetOf P a.toNat = .csr r) (s : State) :
    busRead P s a = csrRead s r := by
  rw [busRead, h]

theorem busRead_status (P : Params) (s : State) : busRead P s 0x04#22 = statusWord s :=
  busRead_of_csr (a := 0x04#22) (targetOf_regOffset P .status) s

/-- Settles O6: at the host's turn a step is the next operation, and each operation is one access to the block. -/
theorem hostMovesOrBlockIdles : Obligations.HostMovesOrBlockIdles := by
  refine ⟨fun s op rest hh hturn => ⟨_, step_host hh hturn, rfl, ?_, ?_, ?_, ?_⟩, fun s hh hb => step_idle hh hb⟩
  · rintro a d rfl
    rfl
  · rintro a rfl
    rcases afterBusRead_cases (popHost s rest) a with h | h <;> simp only [hostOperation, h] <;> exact ⟨rfl, rfl, rfl, rfl⟩
  · rintro rfl
    simp only [busRead_status]
    rfl
  · rintro rfl
    exact ⟨rfl, rfl⟩

/-! ## Requests at CMD (R220) -/

theorem commandWrite_command {s : State} {d : Word} {i : Instr} (hb : s.busy = false) (hd : decode d = .ok i) :
    commandWrite s d = accept i s := by
  simp [commandWrite, hb, hd]

/-- A word with a reserved bit or a reserved OP is no command (R92). -/
theorem decode_illegal {d : Word} (h : rsvField d ≠ 0#28 ∨ ∀ i, opField d ≠ opOf i) : ∃ e, decode d = .error e := by
  cases hd : decode d with
  | error e => exact ⟨e, rfl⟩
  | ok i =>
    obtain ⟨hrsv, hop⟩ := decode_eq_ok_iff.1 hd
    rcases h with h | h
    · exact absurd hrsv h
    · exact absurd hop (h i)

/-- Settles O8: offset 0 is CMD, and the request is dropped, refused or accepted. -/
theorem commandAcceptance : Obligations.CommandAcceptance := by
  intro s d
  rw [busWrite_cmd]
  refine ⟨fun hb => commandWrite_busy hb d, fun hb illegal => ?_, fun i hb hrsv hop => ?_⟩
  · obtain ⟨e, he⟩ := decode_illegal illegal
    exact commandWrite_illegal hb he
  · rw [commandWrite_command hb (decode_eq_ok_iff.2 ⟨hrsv, hop⟩), hop]
    refine ⟨_, _, rfl, ?_, ?_, ?_, rfl, rfl, rfl⟩
    · rintro rfl
      rfl
    · rintro rfl
      rfl
    · rintro (rfl | rfl) <;> rfl

/-! ## The command in flight -/

/-- Settles O9: while BUSY a write to CMD is dropped, and no other access reaches the pending command. -/
theorem runningCommandKeepsItsOperands : Obligations.RunningCommandKeepsItsOperands := by
  intro s op rest hb hop
  cases op with
  | write a d =>
    obtain ⟨hbusy, hpending, hlatched, hlast, herr⟩ := busWrite_keeps_busy (s := popHost s rest) hb a d
    exact ⟨hbusy, hpending, hlatched, herr, hlast⟩
  | read a =>
    obtain ⟨e, he⟩ := afterBusRead_eq (popHost s rest) a
    simp only [hostOperation, he]
    exact ⟨hb, rfl, rfl, rfl, rfl⟩
  | poll => exact ⟨hb, rfl, rfl, rfl, rfl⟩
  | reset => exact absurd rfl hop

/-- While BUSY a bus write leaves the host's queue and the wait alone. -/
theorem busWrite_env_busy {s : State} (hb : s.busy = true) (a : Offset) (d : Word) :
    (busWrite Config.pfr s a d).env.host = s.env.host ∧ (busWrite Config.pfr s a d).env.wait = s.env.wait := by
  rcases busWrite_cases s a d with ⟨-, h⟩ | ⟨_, h⟩ | ⟨-, -, -, h⟩ | ⟨_, e, he, h⟩ <;> rw [h]
  · rw [commandWrite_busy hb]
    exact ⟨rfl, rfl⟩
  · exact ⟨rfl, rfl⟩
  · exact ⟨rfl, rfl⟩
  · rcases he with rfl | rfl <;> exact ⟨rfl, rfl⟩

/-- While BUSY a host operation uses up one of those the engine may still be put off by, and a poll alone stays in front (R96). -/
theorem hostOperation_env_busy {s : State} (hb : s.busy = true) {op : HostOp} (hop : op ≠ .reset) (rest : List HostOp) :
    (hostOperation Config.pfr s op rest).env.wait = s.env.wait - 1 ∧
      ∀ o ∈ (hostOperation Config.pfr s op rest).env.host, o = .poll ∨ o ∈ rest := by
  have popped : (popHost s rest).env.wait = s.env.wait - 1 := if_pos hb
  cases op with
  | write a d =>
    obtain ⟨hhost, hwait⟩ := busWrite_env_busy (s := popHost s rest) hb a d
    exact ⟨hwait.trans popped, fun o ho => .inr (by rwa [show (hostOperation Config.pfr s (.write a d) rest).env.host = rest from hhost] at ho)⟩
  | read a =>
    rcases afterBusRead_cases (popHost s rest) a with h | h <;> simp only [hostOperation, h] <;>
      exact ⟨popped, fun o ho => .inr ho⟩
  | poll =>
    refine ⟨popped, fun o ho => List.mem_cons.1 ?_⟩
    simpa [hostOperation, hb] using ho
  | reset => exact absurd rfl hop

theorem decode_pendingWord_congr {s t : State} (h : t.pending = s.pending) : decode (pendingWord t) = decode (pendingWord s) :=
  congrArg (fun op => decode (0#28 ++ op)) h

/-- A step with no turn left for the host is the command's completion. -/
theorem run_of_engine {s : State} {i : Instr} (hb : s.busy = true) (hturn : s.env.host = [] ∨ s.env.wait = 0)
    (hd : decode (pendingWord s) = .ok i) :
    ∃ t, step s = exec i s ∧ exec i s = .next t ∧ t.busy = false ∧ Host.Core.run core 1 s = .next t := by
  obtain ⟨t, ht⟩ := exec_next i s
  have hstep := step_engine hb hturn hd
  exact ⟨t, hstep, ht, (exec_keeps ht).1, core_run_of_step (hstep.trans ht) 0⟩

/-- R281, R295: within the drawn wait and one step the command completes or is abandoned. -/
theorem exists_run_not_busy (i : Instr) (w : Nat) (s : State) (hw : s.env.wait = w) (hb : s.busy = true)
    (hd : decode (pendingWord s) = .ok i) : ∃ k t, k ≤ w + 1 ∧ Host.Core.run core k s = .next t ∧ t.busy = false := by
  induction w generalizing s with
  | zero =>
    obtain ⟨t, -, -, ht, hrun⟩ := run_of_engine hb (.inr hw) hd
    exact ⟨1, t, le_rfl, hrun, ht⟩
  | succ w ih =>
    cases hh : s.env.host with
    | nil =>
      obtain ⟨t, -, -, ht, hrun⟩ := run_of_engine hb (.inl hh) hd
      exact ⟨1, t, by omega, hrun, ht⟩
    | cons op rest =>
      have hstep := step_host hh (.inr (by omega))
      by_cases hop : op = .reset
      · subst hop
        exact ⟨1, _, by omega, core_run_of_step hstep 0, rfl⟩
      · obtain ⟨hbusy, hpending, -⟩ := runningCommandKeepsItsOperands s op rest hb hop
        obtain ⟨hwait, -⟩ := hostOperation_env_busy hb hop rest
        obtain ⟨k, t, hk, hrun, ht⟩ := ih _ (by omega) hbusy ((decode_pendingWord_congr hpending).trans hd)
        exact ⟨k + 1, t, by omega, (core_run_of_step hstep k).trans hrun, ht⟩

/-- R221, R295: with no reset in the queue the engine's turn comes within the drawn wait, on the operands latched. -/
theorem exists_run_engine (i : Instr) (w : Nat) (s : State) (hw : s.env.wait = w) (hb : s.busy = true)
    (hd : decode (pendingWord s) = .ok i) (hr : HostOp.reset ∉ s.env.host) :
    ∃ k u, k ≤ w ∧ Host.Core.run core k s = .next u ∧ u.busy = true ∧ u.pending = s.pending ∧ u.latched = s.latched ∧
      (u.env.host = [] ∨ u.env.wait = 0) := by
  induction w generalizing s with
  | zero => exact ⟨0, s, le_rfl, rfl, hb, rfl, rfl, .inr hw⟩
  | succ w ih =>
    cases hh : s.env.host with
    | nil => exact ⟨0, s, Nat.zero_le _, rfl, hb, rfl, rfl, .inl hh⟩
    | cons op rest =>
      rw [hh, List.mem_cons, not_or] at hr
      have hop : op ≠ .reset := fun h => hr.1 h.symm
      have hstep := step_host hh (.inr (by omega))
      obtain ⟨hbusy, hpending, hlatched, -⟩ := runningCommandKeepsItsOperands s op rest hb hop
      obtain ⟨hwait, hqueue⟩ := hostOperation_env_busy hb hop rest
      obtain ⟨k, u, hk, hrun, hu, hup, hul, hturn⟩ := ih _ (by omega) hbusy ((decode_pendingWord_congr hpending).trans hd)
        (fun h => (hqueue _ h).elim (by simp) hr.2)
      exact ⟨k + 1, u, by omega, (core_run_of_step hstep k).trans hrun, hu, hup.trans hpending, hul.trans hlatched, hturn⟩

/-- Settles O7: the wait falls with every host operation, and no operation but a reset reaches the pending command. -/
theorem acceptedCommandCompletes : Obligations.AcceptedCommandCompletes := by
  intro s i _ hb hd
  refine ⟨exists_run_not_busy i _ s rfl hb hd, fun hr => ?_⟩
  obtain ⟨k, u, hk, hrun, hu, hpending, hlatched, hturn⟩ := exists_run_engine i _ s rfl hb hd hr
  obtain ⟨t, hstep, ht, htb, -⟩ := run_of_engine hu hturn ((decode_pendingWord_congr hpending).trans hd)
  exact ⟨k, u, t, hk, hrun, hu, hpending, hlatched, hstep, ht, htb, core_run_snoc hrun (hstep.trans ht)⟩

/-! ## Reset (R281) -/

/-- Settles O21: a reset looks at the model's own fields alone. -/
theorem resetAbandonsPendingCommand : Obligations.ResetAbandonsPendingCommand := fun _ _ => ⟨rfl, rfl⟩

end Sys2Proof.Machine
end

section
/-! PROOFS. Events: what changes LAST_OP (R222), the sticky flags (R27) and CTAB (R66, R76) over any step, and what FLUSH shares with
CREATE (R169). -/

namespace Sys2Proof.Machine

/-! ## LAST_OP (R222) -/

theorem commandWrite_lastOp {s : State} (hb : s.busy = false) (d : Word) : (commandWrite s d).lastOp = opField d := by
  rcases commandWrite_cases s d with ⟨h, -⟩ | ⟨-, i, hd, h⟩ | ⟨-, -, -, h⟩
  · rw [hb] at h
    cases h
  · rw [h, accept_lastOp, (decode_eq_ok_iff.1 hd).2]
  · rw [h]

/-- A host operation that changes LAST_OP is a reset, or a request at CMD that is not dropped. -/
theorem hostOperation_lastOp {s : State} {op : HostOp} {rest : List HostOp}
    (h : (hostOperation Config.pfr s op rest).lastOp ≠ s.lastOp) : op = .reset ∨ (s.busy = false ∧ ∃ d, op = .write 0#22 d) := by
  cases op with
  | write a d =>
    right
    change (busWrite Config.pfr (popHost s rest) a d).lastOp ≠ _ at h
    rcases busWrite_cases (popHost s rest) a d with ⟨rfl, hw⟩ | ⟨_, hw⟩ | ⟨-, -, -, hw⟩ | ⟨_, _, -, hw⟩ <;> rw [hw] at h
    · refine ⟨Bool.eq_false_iff.2 fun hb => ?_, d, rfl⟩
      rw [commandWrite_busy (s := popHost s rest) hb] at h
      exact h rfl
    all_goals exact absurd rfl h
  | read a =>
    obtain ⟨e, he⟩ := afterBusRead_eq (popHost s rest) a
    simp only [hostOperation, he] at h
    exact absurd rfl h
  | poll => exact absurd rfl h
  | reset => exact .inl rfl

/-- Settles O10: no completion touches LAST_OP, and of the host's operations only a request at CMD and a reset do. -/
theorem lastOpFollowsCommandWrites : Obligations.LastOpFollowsCommandWrites := by
  intro s t hst
  rcases step_cases hst with ⟨i, engine, -, -, hexec⟩ | ⟨op, rest, host, -, rfl⟩ | ⟨idle, -, -, rfl⟩
  · obtain ⟨-, -, hlast, -⟩ := exec_keeps hexec
    exact ⟨fun h => absurd hlast h, fun d rest _ hm => by cases engine.symm.trans hm⟩
  · refine ⟨fun h => ?_, fun d rest' hb hm => ?_⟩
    · rcases hostOperation_lastOp h with rfl | ⟨hb, d, rfl⟩
      · exact .inl ⟨rest, host⟩
      · exact .inr ⟨hb, d, rest, host⟩
    · cases host.symm.trans hm
      change (busWrite Config.pfr (popHost s rest) 0#22 d).lastOp = _
      rw [busWrite_cmd, commandWrite_lastOp (s := popHost s rest) hb]
      rfl
  · exact ⟨fun h => absurd rfl h, fun d rest _ hm => by cases idle.symm.trans hm⟩

/-! ## Sticky flags (R27) -/

/-- What a successful command does to the flags: CREATE clears them, PROCESS may set ACC_OVF, FLUSH and DESTROY keep them. -/
theorem commandRule_sticky {i : Instr} {s u : State} (h : commandRule Config.pfr i s = .ok u) :
    (i = .create ∧ s.ready = false ∧ u.sticky = Sticky.clear) ∨
      (i = .process ∧ s.ready = true ∧ ∃ ovf, u.sticky = s.sticky.noteOvf ovf) ∨ u.sticky = s.sticky := by
  rcases commandRule_ok_cases h with ⟨f, sel, hi, hr, -, -, -, rfl⟩ | ⟨hi, fits, -, rfl⟩ | ⟨-, -, rfl⟩ | ⟨-, -, rfl⟩
  · exact .inl ⟨hi, hr, rfl⟩
  · exact .inr (.inl ⟨hi, fits.1, _, rfl⟩)
  · exact .inr (.inr rfl)
  · exact .inr (.inr rfl)

/-- What a completion does to the flags. -/
theorem exec_sticky {i : Instr} {s t : State} (h : exec i s = .next t) :
    (i = .create ∧ s.ready = false ∧ t.err = .none ∧ t.sticky = Sticky.clear) ∨
      (i = .process ∧ s.ready = true ∧ t.err = .none ∧ ∃ ovf, t.sticky = s.sticky.noteOvf ovf) ∨ t.sticky = s.sticky := by
  rcases exec_cases h with ⟨e, -, -, rfl⟩ | ⟨u, hu, rfl⟩
  · exact .inr (.inr rfl)
  · rcases commandRule_sticky hu with ⟨hi, hr, hs⟩ | ⟨hi, hr, ovf, hs⟩ | hs
    · exact .inl ⟨hi, hr, rfl, hs⟩
    · exact .inr (.inl ⟨hi, hr, rfl, ovf, hs⟩)
    · exact .inr (.inr hs)

/-- What a host operation does to the flags: a dropped request sets OVERRUN, a dropped CTAB write CTAB_WLOCK, a reset clears. -/
theorem hostOperation_sticky (s : State) (op : HostOp) (rest : List HostOp) :
    op = .reset ∨
      (s.busy = true ∧ (∃ d, op = .write 0#22 d) ∧
        (hostOperation Config.pfr s op rest).sticky = { s.sticky with overrun := true }) ∨
      ((s.ready = true ∨ s.busy = true) ∧ (∃ a d i, op = .write a d ∧ targetOf Config.pfr a.toNat = .ctab i) ∧
        (hostOperation Config.pfr s op rest).sticky = s.sticky.noteWlock) ∨
      (hostOperation Config.pfr s op rest).sticky = s.sticky := by
  cases op with
  | write a d =>
    right
    have written : (hostOperation Config.pfr s (.write a d) rest).sticky = (busWrite Config.pfr (popHost s rest) a d).sticky := rfl
    rw [written]
    rcases busWrite_cases (popHost s rest) a d with ⟨rfl, h⟩ | ⟨_, h⟩ | ⟨i, hi, locked, h⟩ | ⟨_, _, -, h⟩ <;> rw [h]
    · rcases commandWrite_cases (popHost s rest) d with ⟨hb, hc⟩ | ⟨-, i, -, hc⟩ | ⟨-, -, -, hc⟩ <;> rw [hc]
      · exact .inl ⟨hb, ⟨d, rfl⟩, rfl⟩
      · exact .inr (.inr rfl)
      · exact .inr (.inr rfl)
    · exact .inr (.inr rfl)
    · exact .inr (.inl ⟨locked, ⟨a, d, i, rfl, hi⟩, rfl⟩)
    · exact .inr (.inr rfl)
  | read a =>
    obtain ⟨e, he⟩ := afterBusRead_eq (popHost s rest) a
    simp only [hostOperation, he]
    exact .inr (.inr (.inr rfl))
  | poll => exact .inr (.inr (.inr rfl))
  | reset => exact .inl rfl

/-- Some flag of `f` is cleared in `g`. -/
def Sticky.Clears (f g : Sticky) : Prop :=
  (f.accOvf = true ∧ g.accOvf = false) ∨ (f.overrun = true ∧ g.overrun = false) ∨ (f.ctabWlock = true ∧ g.ctabWlock = false)

theorem Sticky.not_clears_of_le {f g : Sticky} (ha : f.accOvf = true → g.accOvf = true)
    (ho : f.overrun = true → g.overrun = true) (hw : f.ctabWlock = true → g.ctabWlock = true) : ¬ f.Clears g := by
  rintro (⟨h1, h0⟩ | ⟨h1, h0⟩ | ⟨h1, h0⟩)
  · exact absurd (ha h1) (ne_true_of_eq_false h0)
  · exact absurd (ho h1) (ne_true_of_eq_false h0)
  · exact absurd (hw h1) (ne_true_of_eq_false h0)

/-- A flag that keeps its value is neither newly set nor cleared. -/
theorem absurd_flag {x : Bool} {p : Prop} (h1 : x = true) (h0 : x = false) : p := absurd h1 (ne_true_of_eq_false h0)

/-- Settles O55: completions and host operations each say what they do to the flags; every other step keeps them. -/
theorem stickyFlagEvents : Obligations.StickyFlagEvents := by
  intro s t hst
  have kept : ¬ s.sticky.Clears s.sticky := Sticky.not_clears_of_le id id id
  rcases step_cases hst with ⟨i, engine, -, hd, hexec⟩ | ⟨op, rest, host, -, rfl⟩ | ⟨-, -, -, rfl⟩
  · have hp : s.pending = opOf i := pending_of_decode hd
    rcases exec_sticky hexec with ⟨rfl, hr, he, hs⟩ | ⟨rfl, hr, he, ovf, hs⟩ | hs <;> rw [hs]
    · exact ⟨nofun, nofun, nofun, fun _ => .inr ⟨engine, hp, hr, he⟩⟩
    · refine ⟨fun _ _ => ⟨engine, hp, hr, he⟩, absurd_flag, absurd_flag, fun h => ?_⟩
      exact absurd h (Sticky.not_clears_of_le (fun h => by simp [Sticky.noteOvf, h]) id id)
    · exact ⟨absurd_flag, absurd_flag, absurd_flag, fun h => absurd h kept⟩
  · rcases hostOperation_sticky s op rest with rfl | ⟨hb, ⟨d, rfl⟩, hs⟩ | ⟨locked, ⟨a, d, i, rfl, hi⟩, hs⟩ | hs
    · exact ⟨nofun, nofun, nofun, fun _ => .inl ⟨rest, host⟩⟩
    · rw [hs]
      refine ⟨absurd_flag, fun _ _ => ⟨hb, d, rest, host⟩, absurd_flag, fun h => ?_⟩
      exact absurd h (Sticky.not_clears_of_le id (fun _ => rfl) id)
    · rw [hs]
      obtain ⟨entry, offset⟩ := targetOf_ctab hi
      rw [ctabAddr, ctabBase] at offset
      refine ⟨absurd_flag, absurd_flag, fun _ _ => ⟨locked, a, d, rest, host, by omega, by omega, by omega⟩, fun h => ?_⟩
      exact absurd h (Sticky.not_clears_of_le id id fun _ => rfl)
    · rw [hs]
      exact ⟨absurd_flag, absurd_flag, absurd_flag, fun h => absurd h kept⟩
  · exact ⟨absurd_flag, absurd_flag, absurd_flag, fun h => absurd h kept⟩

/-! ## CTAB and the words of IN and OUT (R66, R73, R76) -/

/-- No command writes a byte below OUT. -/
theorem exec_byteAt_below_out {i : Instr} {s t : State} (h : exec i s = .next t) {x : Nat} (hx : x < outBase) :
    byteAt t.env.epoch t.mem x = byteAt s.env.epoch s.mem x := by
  rcases exec_cases h with ⟨e, -, -, rfl⟩ | ⟨u, hu, rfl⟩
  · rfl
  rcases commandRule_ok_cases hu with ⟨f, sel, -, -, -, -, -, rfl⟩ | ⟨-, -, -, rfl⟩ | ⟨-, -, rfl⟩ | ⟨-, -, rfl⟩
  · rfl
  · rw [finish_env, recordProcess_env, drawOutputs_epoch]
    exact byteAt_recordProcess_outside (.inl hx) _
  · rfl
  · rfl

/-- While READY or BUSY a bus write changes no byte below IN. -/
theorem busWrite_byteAt_below_in {s : State} (locked : s.ready = true ∨ s.busy = true) (a : Offset) (d : Word) {x : Nat}
    (hx : x < inBase) :
    byteAt (busWrite Config.pfr s a d).env.epoch (busWrite Config.pfr s a d).mem x = byteAt s.env.epoch s.mem x := by
  rw [busWrite_epoch]
  rcases busWrite_mem s a d with hm | ⟨w, hm, target⟩ <;> rw [hm]
  refine byteAt_write_outside _ _ _ _ _ (.inl ?_)
  rcases target with ⟨i, -, hr, hb⟩ | ⟨f, hf⟩ | ⟨k, hk⟩
  · simp [hr, hb] at locked
  · rw [(targetOf_input hf).2, inAddr]
    omega
  · rw [(targetOf_output hk).2, outAddr]
    unfold inBase at hx
    unfold outBase
    omega

/-- Settles O18: commands write OUT alone, and the lock drops the only bus writes that reach CTAB. -/
theorem ctabFixedWhileConfigured : Obligations.CtabFixedWhileConfigured := by
  intro s t hst hreset locked x _ hx
  rcases step_cases hst with ⟨i, -, -, -, hexec⟩ | ⟨op, rest, host, -, rfl⟩ | ⟨-, -, -, rfl⟩
  · exact exec_byteAt_below_out hexec (Nat.lt_trans hx (by decide))
  · cases op with
    | write a d => exact busWrite_byteAt_below_in (s := popHost s rest) locked a d hx
    | read a => rcases afterBusRead_cases (popHost s rest) a with h | h <;> simp only [hostOperation, h] <;> rfl
    | poll => rfl
    | reset => exact absurd host (hreset rest)
  · rfl

/-- While BUSY a host write to IN or OUT stores one word and breaks the duty of R290 (b). -/
theorem busWrite_busy_io {s : State} (hb : s.busy = true) {a : Offset}
    (h : (∃ f, targetOf Config.pfr a.toNat = .input f) ∨ ∃ k, targetOf Config.pfr a.toNat = .output k) (d : Word) :
    ∃ w, busWrite Config.pfr s a d = breakDuty (storeWord s a.toNat w) := by
  rcases h with ⟨f, hf⟩ | ⟨k, hk⟩
  · refine ⟨d, ?_⟩
    simp only [busWrite, hf, inWrite, hb, if_true]
    rw [(targetOf_input hf).2]
  · refine ⟨Config.freeWord s.env.free, ?_⟩
    simp only [busWrite, hk, outWrite, hb, if_true]
    rw [(targetOf_output hk).2]

/-- Settles O19: such an access is one stored word at most, beside the model's own fields. -/
theorem hostAccessWhileBusyIsContained : Obligations.HostAccessWhileBusyIsContained := by
  intro s op rest a d hb aligned region hop
  have target : (∃ f, targetOf Config.pfr a.toNat = .input f) ∨ ∃ k, targetOf Config.pfr a.toNat = .output k :=
    region.imp (fun h => targetOf_input_of_range aligned h.1 h.2) (fun h => targetOf_output_of_range aligned h.1 h.2)
  rcases hop with rfl | rfl
  · obtain ⟨w, hw⟩ := busWrite_busy_io (s := popHost s rest) hb target d
    simp only [hostOperation, hw]
    refine ⟨rfl, nofun, fun x hx => ?_⟩
    exact byteAt_write_outside _ _ _ _ _ (hx.resolve_left nofun)
  · rcases afterBusRead_cases (popHost s rest) a with h | h <;> simp only [hostOperation, h] <;>
      exact ⟨rfl, fun _ => rfl, fun _ _ => rfl⟩

/-! ## FLUSH and the fresh stream (R169) -/

/-- What a successful CREATE leaves of the stream is what FLUSH writes for its configuration. -/
theorem exec_create_stream {s c : State} (h : exec .create s = .next c) (he : c.err = .none) :
    c.ready = true ∧ c.xbuf = zeroXbuf c.act.xoff.toNat ∧ c.pos = Position.fresh ∧ c.outCount = 0 := by
  rcases exec_cases h with ⟨e, hne, -, rfl⟩ | ⟨u, hu, rfl⟩
  · exact absurd he hne
  · rcases commandRule_ok_cases hu with ⟨f, sel, -, -, -, -, hc, rfl⟩ | ⟨⟨⟩, -⟩ | ⟨⟨⟩, -⟩ | ⟨⟨⟩, -⟩
    obtain ⟨⟨-, -, -, fits⟩, -⟩ := (failingCheck_eq_none _ _ _).1 hc
    refine ⟨rfl, ?_, rfl, rfl⟩
    rw [finish_xbuf, finish_act, recordCreate_xbuf, recordCreate_act, activeConfigOf_xoff _ _ fits]

/-- Settles O54: FLUSH writes the fresh stream of the configuration it finds. -/
theorem flushEqualsFreshCreate : Obligations.FlushEqualsFreshCreate := by
  intro s c p hexec herr hready hact
  obtain ⟨hcr, hcx, hcp, hco⟩ := exec_create_stream hexec herr
  refine ⟨_, exec_of_ok (i := .flush) (flushRule_of_ready hready), rfl, hready.trans hcr.symm, hact, ?_, hcp.symm, hco.symm⟩
  rw [finish_xbuf, recordFlush_xbuf, hact, hcx]

end Sys2Proof.Machine
end

section
/-! PROOFS. Registers: what a read of the port returns before and after a write (R24 to R33, R62, R67, R280). -/

namespace Sys2Proof.Machine

/-! ## STATUS (R26) -/

/-- Settles O11: a field is what is left above the fields below it. -/
theorem statusReadShowsItsFields : Obligations.StatusReadShowsItsFields := by
  intro s
  rw [busRead_status]
  simp (disch := decide) only [statusWord, BitVec.extractLsb'_append_eq_of_le, BitVec.extractLsb'_append_eq_right,
    Nat.reduceSub, true_and]
  exact ⟨by cases s.act.mode <;> rfl, by cases s.err <;> rfl, rfl⟩

/-! ## Registers read back (R24, R28 to R30, R32) -/

theorem ofBool_eq_one (x : BitVec 1) : BitVec.ofBool (x == 1#1) = x := by
  revert x
  decide

/-- What CFG_MODE (R29), a 16-bit field (R30) and a 24-bit field (R32) keep of the word written. -/
theorem masked_readback (d : Word) :
    0#15 ++ d.extractLsb' 16 1 ++ 0#7 ++ d.extractLsb' 8 1 ++ 0#4 ++ d.extractLsb' 0 4 = d &&& 0x0001010F#32 ∧
      0#16 ++ d.extractLsb' 0 16 = d &&& 0x0000FFFF#32 ∧ 0#8 ++ d.extractLsb' 0 24 = d &&& 0x00FFFFFF#32 := by
  refine ⟨?_, ?_, ?_⟩ <;> refine BitVec.eq_of_getLsbD_eq fun i hi => ?_ <;>
    simp only [BitVec.getLsbD_append, BitVec.getLsbD_extractLsb', BitVec.getLsbD_and] <;> interval_cases i <;> simp

/-- A write at a register's offset is the register's (R24). -/
theorem busWrite_of_csr {P : Params} {a : Offset} {r : Reg} (h : targetOf P a.toNat = .csr r) (s : State) (d : Word) :
    busWrite P s a d = csrWrite s r d := by
  rw [busWrite, h]

theorem readback_of_csr {P : Params} {a : Offset} {r : Reg} (h : targetOf P a.toNat = .csr r) (s : State) (d : Word) :
    busRead P (busWrite P s a d) a = csrRead (csrWrite s r d) r := by
  rw [busWrite_of_csr h, busRead_of_csr h]

/-- A write to a register other than CMD reaches the host-written registers alone. -/
theorem csrWrite_eq {r : Reg} (h : r ≠ .cmd) (s : State) (d : Word) : ∃ x, csrWrite s r d = { s with regs := x } := by
  cases r with
  | cmd => exact absurd rfl h
  | _ => exact ⟨_, rfl⟩

/-- The registers of R24 whose word is made of host-written fields. -/
def Reg.hostWritten : Reg → Bool
  | .cfgFactorLo => true
  | .cfgFactorHi => true
  | .cfgMode => true
  | .ctabNwing => true
  | .ctabNmult => true
  | .ctabLpscl => true
  | .inCount => true
  | _ => false

/-- A write to a read-only register changes nothing (R24). -/
theorem csrWrite_readOnly {r : Reg} (hcmd : r ≠ .cmd) (h : r.hostWritten = false) (s : State) (d : Word) :
    csrWrite s r d = s := by
  cases r with
  | cmd => exact absurd rfl hcmd
  | status | outCount | xoff | ncreep | tfrac | dtb | dhb | lpsclEff | nwingAct | nmultAct => rfl
  | _ => cases h

/-- A register the host does not write reads none of the host-written fields. -/
theorem csrRead_regs {r : Reg} (h : r.hostWritten = false) (s : State) (x : HostRegs) :
    csrRead { s with regs := x } r = csrRead s r := by
  cases r with
  | cmd | status | outCount | xoff | ncreep | tfrac | dtb | dhb | lpsclEff | nwingAct | nmultAct => rfl
  | _ => cases h

/-- A write to one register leaves every other reading as before. -/
theorem csrRead_csrWrite_ne {r r' : Reg} (hcmd : r ≠ .cmd) (hne : r ≠ r') (s : State) (d : Word) :
    csrRead (csrWrite s r d) r' = csrRead s r' := by
  cases hr : r.hostWritten with
  | false => rw [csrWrite_readOnly hcmd hr]
  | true =>
    cases hr' : r'.hostWritten with
    | false =>
      obtain ⟨x, hx⟩ := csrWrite_eq hcmd s d
      rw [hx, csrRead_regs hr']
    | true => cases r <;> cases hr <;> cases r' <;> cases hr' <;> simp [csrWrite, csrRead, cfgModeWord] at hne ⊢

theorem busRead_regs {a : Offset} (h : ∀ r, targetOf Config.pfr a.toNat ≠ .csr r) (s : State) (x : HostRegs) :
    busRead Config.pfr { s with regs := x } a = busRead Config.pfr s a := by
  unfold busRead
  cases ht : targetOf Config.pfr a.toNat with
  | csr r => exact absurd ht (h r)
  | _ => rfl

/-- A write to a register other than CMD leaves every other offset reading as before. -/
theorem busRead_csrWrite_ne {r : Reg} {b : Offset} (hcmd : r ≠ .cmd) (hb : b.toNat ≠ regOffset r) (s : State) (d : Word) :
    busRead Config.pfr (csrWrite s r d) b = busRead Config.pfr s b := by
  by_cases hcsr : ∃ r', targetOf Config.pfr b.toNat = .csr r'
  · obtain ⟨r', hr'⟩ := hcsr
    have hne : r ≠ r' := fun h => hb (h ▸ targetOf_csr hr')
    rw [busRead_of_csr hr', busRead_of_csr hr', csrRead_csrWrite_ne hcmd hne]
  · obtain ⟨x, hx⟩ := csrWrite_eq hcmd s d
    rw [hx, busRead_regs (not_exists.1 hcsr)]

/-- Inside the CSR window an offset is a register's, or reaches nothing (R24, R34, R61). -/
theorem targetOf_window {a : Nat} (h : a < 0x100) :
    (∃ r, targetOf Config.pfr a = .csr r ∧ a = regOffset r) ∨
      (targetOf Config.pfr a = .reserved ∨ targetOf Config.pfr a = .unmapped) := by
  rcases targetOf_cases a with hr | ⟨hr, -⟩ | ⟨i, -, -, ha⟩ | ⟨f, -, -, ha⟩ | ⟨k, -, -, ha⟩ | hu
  · exact .inl hr
  · exact .inr (.inl hr)
  · rw [ctabAddr, ctabBase] at ha
    omega
  · rw [inAddr, inBase] at ha
    omega
  · rw [outAddr, outBase] at ha
    omega
  · exact .inr (.inr hu)

/-- Settles O12: the register at an offset keeps its fields of the word, and the other offsets read other fields. -/
theorem hostRegistersReadBack : Obligations.HostRegistersReadBack := by
  intro s d
  obtain ⟨modeFields, low16, low24⟩ := masked_readback d
  refine ⟨readback_of_csr (a := 0x08#22) (targetOf_regOffset _ .cfgFactorLo) s d,
    readback_of_csr (a := 0x0C#22) (targetOf_regOffset _ .cfgFactorHi) s d,
    (readback_of_csr (a := 0x10#22) (targetOf_regOffset _ .cfgMode) s d).trans ?_,
    (readback_of_csr (a := 0x14#22) (targetOf_regOffset _ .ctabNwing) s d).trans low16,
    (readback_of_csr (a := 0x18#22) (targetOf_regOffset _ .ctabNmult) s d).trans low16,
    (readback_of_csr (a := 0x1C#22) (targetOf_regOffset _ .ctabLpscl) s d).trans low16,
    (readback_of_csr (a := 0x20#22) (targetOf_regOffset _ .inCount) s d).trans low24, fun a b hab ha hwin => ?_⟩
  · simp only [csrRead, csrWrite, cfgModeWord, ofBool_eq_one]
    exact modeFields
  · rcases targetOf_window hwin with ⟨r, hr, offset⟩ | nothing
    · have hcmd : r ≠ .cmd := fun h => ha (BitVec.eq_of_toNat_eq (by rw [offset, h]; rfl))
      rw [busWrite_of_csr hr]
      exact busRead_csrWrite_ne hcmd (fun h => hab (BitVec.eq_of_toNat_eq (offset.trans h.symm))) s d
    · rw [(bus_ignores nothing s d).2.2]

/-! ## Readback registers (R31 to R33) -/

theorem toNat_zero_append (k : Nat) {w : Nat} (x : BitVec w) : (0#k ++ x).toNat = x.toNat := by
  simp

theorem hostWritten_offset {r : Reg} (h : r.hostWritten = true) : 0x08 ≤ regOffset r ∧ regOffset r ≤ 0x20 := by
  revert h
  cases r <;> decide

/-- Settles O13: each readback register is its field under zeros, and none of these offsets takes a write. -/
theorem readbackRegistersReadTheirFields : Obligations.ReadbackRegistersReadTheirFields := by
  intro s
  have read {a : Offset} (r : Reg) (ha : a.toNat = regOffset r) :
      (busRead Config.pfr s a).toNat = (csrRead s r).toNat :=
    congrArg BitVec.toNat (busRead_of_csr (ha ▸ targetOf_regOffset _ r) s)
  refine ⟨(read .outCount rfl).trans (toNat_zero_append 8 _), (read .xoff rfl).trans (toNat_zero_append 16 _),
    (read .ncreep rfl).trans (toNat_zero_append 16 _), read .tfrac rfl, read .dtb rfl, read .dhb rfl,
    (read .lpsclEff rfl).trans (toNat_zero_append 16 _), (read .nwingAct rfl).trans (toNat_zero_append 16 _),
    (read .nmultAct rfl).trans (toNat_zero_append 16 _), read .cmd rfl, fun a d ha => ?_⟩
  rcases targetOf_window (a := a.toNat) (by omega) with ⟨r, hr, offset⟩ | nothing
  · have hcmd : r ≠ .cmd := by
      rintro rfl
      rw [regOffset] at offset
      omega
    have readOnly : r.hostWritten = false := Bool.eq_false_iff.2 fun written => by
      have := hostWritten_offset written
      omega
    rw [busWrite_of_csr hr, csrWrite_readOnly hcmd readOnly]
  · exact (bus_ignores nothing s d).2.2

/-- Settles O20: every register is a view of fields that are 0 at reset. -/
theorem resetClearsEveryRegister : Obligations.ResetClearsEveryRegister :=
  ⟨fun r => by cases r <;> rfl, rfl, rfl, rfl, rfl, rfl, rfl, rfl, rfl, rfl, rfl, rfl⟩

/-! ## Memory at the port (R62, R67, R71) -/

/-- Settles O16: the bytes of a word are its octets from the lowest on. -/
theorem wordsAreLittleEndian : Obligations.WordsAreLittleEndian := by
  intro s a j d hj
  rw [storeWord_mem, byteAt_write_inside _ _ _ _ _ hj]
  match j with
  | 0 => rfl
  | 1 => rfl
  | 2 => rfl
  | 3 => rfl

/-- The offset of a CTAB entry, an IN frame or an OUT frame (R62). -/
def MemoryOffset (a : Nat) : Prop :=
  (∃ i, targetOf Config.pfr a = .ctab i) ∨ (∃ f, targetOf Config.pfr a = .input f) ∨ ∃ k, targetOf Config.pfr a = .output k

theorem MemoryOffset.aligned {a : Nat} (h : MemoryOffset a) : a % 4 = 0 := by
  by_contra misaligned
  rw [MemoryOffset, targetOf_unmapped (.inl misaligned)] at h
  simp at h

/-- While not BUSY a memory offset reads its word of memory. -/
theorem busRead_memory {s : State} {a : Offset} (hb : s.busy = false) (h : MemoryOffset a.toNat) :
    busRead Config.pfr s a = wordAt s.env.epoch s.mem a.toNat := by
  rcases h with ⟨i, hi⟩ | ⟨f, hf⟩ | ⟨k, hk⟩
  · rw [busRead_of_ctab hi, (targetOf_ctab hi).2]
  · rw [(targetOf_input hf).2]
    simp only [busRead, hf]
  · rw [(targetOf_output hk).2]
    simp [busRead, hk, hb]

/-- While not BUSY, and for CTAB not READY either, a write to a memory offset stores its word. -/
theorem busWrite_memory {s : State} {a : Offset} (hb : s.busy = false) (h : MemoryOffset a.toNat)
    (unlocked : ∀ i, targetOf Config.pfr a.toNat = .ctab i → s.ready = false) (d : Word) :
    busWrite Config.pfr s a d = storeWord s a.toNat d := by
  rcases h with ⟨i, hi⟩ | ⟨f, hf⟩ | ⟨k, hk⟩
  · rw [busWrite_of_ctab hi, ctabWrite_unlocked (unlocked i hi) hb, (targetOf_ctab hi).2]
  · rw [(targetOf_input hf).2]
    simp [busWrite, hf, inWrite, hb]
  · rw [(targetOf_output hk).2]
    simp [busWrite, hk, outWrite, hb]

/-- A stored word shows at no offset outside memory. -/
theorem busRead_storeWord_elsewhere {b : Offset} (h : ¬ MemoryOffset b.toNat) (s : State) (a : Nat) (d : Word) :
    busRead Config.pfr (storeWord s a d) b = busRead Config.pfr s b := by
  unfold busRead
  cases ht : targetOf Config.pfr b.toNat with
  | csr r => cases r <;> rfl
  | ctab i => exact absurd (.inl ⟨i, ht⟩) h
  | input f => exact absurd (.inr (.inl ⟨f, ht⟩)) h
  | output k => exact absurd (.inr (.inr ⟨k, ht⟩)) h
  | _ => rfl

/-- Settles O15: a stored word reads back, and aligned words at other offsets do not meet it. -/
theorem hostMemoryReadsBack : Obligations.HostMemoryReadsBack := by
  intro s a d hb aligned region
  have memory : MemoryOffset a.toNat := by
    rcases region with h | h | h
    · exact .inr (.inl (targetOf_input_of_range aligned h.1 h.2))
    · exact .inr (.inr (targetOf_output_of_range aligned h.1 h.2))
    · exact .inl (targetOf_ctab_of_range aligned h.2.1 h.2.2)
  have unlocked : ∀ i, targetOf Config.pfr a.toNat = .ctab i → s.ready = false := fun i hi => by
    obtain ⟨entry, offset⟩ := targetOf_ctab hi
    rw [ctabAddr, ctabBase] at offset
    rcases region with h | h | h
    · omega
    · omega
    · exact h.1
  rw [busWrite_memory hb memory unlocked]
  refine ⟨(busRead_memory (s := storeWord s a.toNat d) hb memory).trans (wordAt_write_word ..), fun b hne => ?_⟩
  by_cases hm : MemoryOffset b.toNat
  · have apart : b.toNat ≠ a.toNat := fun h => hne (BitVec.eq_of_toNat_eq h)
    have aligned' := hm.aligned
    rw [busRead_memory (s := storeWord s a.toNat d) hb hm, busRead_memory hb hm]
    exact wordAt_write_outside _ _ _ _ _ (by rw [length_bytesOfWord]; omega)
  · exact busRead_storeWord_elsewhere hm s _ d

end Sys2Proof.Machine
end

section
/-! PROOFS. Kernels: the coefficient and product of a tap (R191, R192), the wings (R201, R202), the kernels' outputs (R180, R203) and
what they read of the table (R190). -/

namespace Sys2Proof.Machine

/-! ## Taps (R191, R192) -/

theorem coef_interp (P : Params) (e : Coefficient) (a : Nat) : coef P true e a = e.imp + asr (e.impd * a) P.na := if_pos rfl

theorem coef_plain (P : Params) (e : Coefficient) (a : Nat) : coef P false e a = e.imp := if_neg (by decide)

/-- A shifted product stays within the shifted extremes. -/
theorem asr_mem_Icc {x lo hi : Int} {k : Nat} (h0 : lo * 2 ^ k ≤ x) (h1 : x < (hi + 1) * 2 ^ k) :
    lo ≤ asr x k ∧ asr x k ≤ hi :=
  ⟨le_asr_iff.2 h0, Int.lt_add_one_iff.1 (asr_lt_iff.2 h1)⟩

/-- Settles O36: the interpolation term is a floor, and `a < 2^7` keeps it within the entry's own range. -/
theorem coefficientRange : Obligations.CoefficientRange := by
  intro interp e a
  refine ⟨fun h => ?_, fun h => ?_, fun ⟨h1, h2⟩ ⟨h3, h4⟩ ha => ?_⟩
  · rw [h, coef_interp, asr_eq_floor]
    rfl
  · rw [h, coef_plain]
  · cases interp with
    | false =>
      rw [coef_plain]
      omega
    | true =>
      have lower : -32512 * 2 ^ 7 ≤ e.impd * (a : ℤ) := by nlinarith
      have upper : e.impd * (a : ℤ) < (32511 + 1) * 2 ^ 7 := by nlinarith
      have := asr_mem_Icc lower upper
      rw [coef_interp, Config.pfr_na]
      omega

/-- The rounding bit of R192 is the carry that adding half the divisor makes. -/
theorem roundProd_eq {P : Params} (h : 1 ≤ P.nhxn) (cf x : Int) :
    roundProd P cf x = asr (cf * x + 2 ^ (P.nhxn - 1)) P.nhxn := by
  obtain ⟨k, hk⟩ : ∃ k, P.nhxn = k + 1 := ⟨_, (Nat.sub_add_cancel h).symm⟩
  simp only [roundProd, hk, Nat.add_sub_cancel, bitAt, asr, decide_eq_true_eq]
  generalize cf * x = t
  have split : (2 : Int) ^ (k + 1) = 2 ^ k * 2 := pow_succ 2 k
  split
  · rfl
  · rename_i even
    have half : (0 : Int) ≤ 2 ^ k := by positivity
    rw [split, ← Int.ediv_ediv_of_nonneg half, ← Int.ediv_ediv_of_nonneg half, Int.add_ediv_of_dvd_right dvd_rfl, Int.ediv_self (by positivity)]
    omega

/-- Settles O37: the two forms of rounding agree, and a product of 17 by 16 bits keeps well inside 32. -/
theorem productRounding : Obligations.ProductRounding := by
  intro cf x h1 h2 ⟨h3, h4⟩
  have product : |cf * x| ≤ 65280 * 32768 := by
    rw [abs_mul]
    exact mul_le_mul (abs_le.2 ⟨h1, h2⟩) (abs_le.2 ⟨h3, by omega⟩) (abs_nonneg _) (by norm_num)
  obtain ⟨lower, upper⟩ := abs_le.1 product
  have rounded : roundProd Config.pfr cf x = asr (biasSum (cf * x) 14) 14 := roundProd_eq (by decide) cf x
  refine ⟨rounded, rounded.trans (asr_biasSum_eq_floor _ (by decide)), by omega, ?_⟩
  rw [rounded, abs_le]
  exact asr_mem_Icc (by rw [biasSum]; omega) (by rw [biasSum]; omega)

/-! ## Wings (R201, R202, R204) -/

/-- A run of taps from the empty sum: its value, and when it records an overflow (R196). -/
theorem runTaps_zero (p : Nat → Int) (n : Nat) :
    (runTaps Monitored.zero p n).v = ∑ j ∈ Finset.range n, p j ∧
      ((runTaps Monitored.zero p n).ovf = true ↔ ∃ m, 1 ≤ m ∧ m ≤ n ∧ Leaves32 (∑ j ∈ Finset.range m, p j)) := by
  rw [runTaps_v, runTaps_ovf]
  simp [Monitored.zero]

/-- Settles O38: the wing is a run of its taps. -/
theorem upOnlyWingSumsItsTaps : Obligations.UpOnlyWingSumsItsTaps := by
  intro tab act W side n0 ph h0 a taps partialSum v
  have run : v = runTaps Monitored.zero (tapUp Config.pfr tab act.interpAct W side.inc a h0 n0) taps :=
    wingUp_eq tab act W side n0 ph
  rw [run]
  exact runTaps_zero _ taps

/-- Settles O39: with a step of at least 1 the wing is a run of its taps. -/
theorem upDownWingSumsItsTaps : Obligations.UpDownWingSumsItsTaps := by
  intro tab act W side n0 ph hd ho taps partialSum v
  have run : v = runTaps Monitored.zero (tapUD Config.pfr tab act.interpAct W side.inc act.dhb.toNat (ho 0) n0) taps :=
    wingUD_eq tab act W side n0 ph hd
  rw [run]
  exact runTaps_zero _ taps

/-- With the full step the first position of a wing is its phase, past the skipped centre tap (R202). -/
theorem firstPositionUD_fullStep (side : Wing) (ph : Nat) :
    firstPositionUD Config.pfr (2 ^ 15) side ph = ph + (if side = .right ∧ ph = 0 then 2 ^ 15 else 0) := by
  rw [firstPositionUD, Config.pfr_np, Nat.mul_div_cancel _ (by decide)]

/-- A position in the table advances by whole entries when it advances by the full step (R202). -/
theorem fullStep_position (ph : Nat) (skip : Prop) [Decidable skip] (j : Nat) :
    (ph + (if skip then 2 ^ 15 else 0) + 2 ^ 15 * j) / 2 ^ 7 = ph / 2 ^ 7 + (if skip then 256 else 0) + 256 * j ∧
      (ph + (if skip then 2 ^ 15 else 0) + 2 ^ 15 * j) % 2 ^ 7 = ph % 2 ^ 7 := by
  split <;> omega

/-- Settles O40: with the full step every tap of the two wings is the same, and so is their number. -/
theorem fullStepWingsAgree : Obligations.FullStepWingsAgree := by
  intro tab act W side n0 ph hd _
  rw [wingUD_eq _ _ _ _ _ _ (by omega), wingUp_eq, hd, firstPositionUD_fullStep]
  have taps : tapUD Config.pfr tab act.interpAct W side.inc (2 ^ 15) (ph + if side = .right ∧ ph = 0 then 2 ^ 15 else 0) n0 =
      tapUp Config.pfr tab act.interpAct W side.inc (tapFraction Config.pfr act.interpAct ph) (firstEntryUp Config.pfr side ph) n0 := by
    funext j
    obtain ⟨entry, fraction⟩ := fullStep_position ph (side = .right ∧ ph = 0) j
    simp only [tapUD, tapUp, tapFraction, firstEntryUp, Config.pfr_na, Config.pfr_npc, entry, fraction]
  have count : ceilDiv (side.endOf act.nwingAct.toNat * 2 ^ 7 - (ph + if side = .right ∧ ph = 0 then 2 ^ 15 else 0)) (2 ^ 15) =
      ceilDiv (side.endOf act.nwingAct.toNat - (ph / 2 ^ 7 + if side = .right ∧ ph = 0 then 256 else 0)) 256 := by
    refine eq_of_forall_ge_iff fun m => ?_
    rw [ceilDiv_le_iff (by decide), ceilDiv_le_iff (by decide)]
    split <;> omega
  rw [taps]
  exact congrArg _ count

/-! ## Fast kernel (R180, R145) -/

/-- The Fast blend's bias sum is a 31-bit value, so that `Q` neither clamps nor sets its flag (R145). -/
theorem fastBlend_mem_Icc {x1 x2 : Int} {frac : Nat} (h1 : InSampleRange x1) (h2 : InSampleRange x2) (hf : frac ≤ 2 ^ 15) :
    -32768 * 2 ^ 15 ≤ fastBlend Config.pfr x1 x2 frac ∧ fastBlend Config.pfr x1 x2 frac ≤ 32767 * 2 ^ 15 := by
  obtain ⟨h1, h1'⟩ := h1
  obtain ⟨h2, h2'⟩ := h2
  rw [fastBlend, Config.pfr_np]
  constructor <;> nlinarith

/-- `Q` of a value within the shifted sample range is its rounding alone (R140, R142). -/
theorem quantizeMonitored_fast {v : Int} (h1 : -32768 * 2 ^ 15 ≤ v) (h2 : v ≤ 32767 * 2 ^ 15) :
    quantizeMonitored Config.pfr v 15 = { v := asr (biasSum v 15) 15, ovf := false } := by
  have inRange : -32768 ≤ asr (biasSum v 15) 15 ∧ asr (biasSum v 15) 15 ≤ 32767 :=
    asr_mem_Icc (by rw [biasSum]; omega) (by rw [biasSum]; omega)
  have quiet : ¬ ovf32 (biasSum v 15) = true := by
    rw [ovf32_iff, biasSum]
    omega
  rw [quantizeMonitored, quantize_pfr, quantizeOvf, Bool.eq_false_iff.2 quiet]
  congr 1
  omega

theorem kernelOut_fast (P : Params) (tab : Nat → Coefficient) {act : ActiveConfig} (h : act.mode = .fast) (W : Int → Int) (T : Nat) :
    kernelOut P tab act W T = fastKernel P W T := by
  rw [kernelOut, h]

theorem kernelOut_fir (P : Params) (tab : Nat → Coefficient) {act : ActiveConfig} (h : act.mode ≠ .fast) (W : Int → Int) (T : Nat) :
    kernelOut P tab act W T = firKernel P tab act W T := by
  unfold kernelOut
  cases hm : act.mode with
  | fast => exact absurd hm h
  | upOnly => rfl
  | upDown => rfl

/-- In Fast mode a kernel rounds the blend, silently (R145, R180). -/
theorem fastKernel_eq {W : Int → Int} (hW : ∀ w, InSampleRange (W w)) (T : Nat) :
    fastKernel Config.pfr W T =
      { v := asr (biasSum (fastBlend Config.pfr (W (T / 2 ^ 15 : Nat)) (W ((T / 2 ^ 15 : Nat) + 1)) (T % 2 ^ 15)) 15) 15
        ovf := false } := by
  obtain ⟨lower, upper⟩ := fastBlend_mem_Icc (hW (T / 2 ^ 15 : Nat)) (hW ((T / 2 ^ 15 : Nat) + 1))
    (Nat.mod_lt T (by decide : 0 < 2 ^ 15)).le
  exact quantizeMonitored_fast lower upper

/-- At a whole frame the blend is that frame, and its rounding exact. -/
theorem asr_biasSum_fastBlend_zero (x1 x2 : Int) : asr (biasSum (fastBlend Config.pfr x1 x2 0) 15) 15 = x1 := by
  rw [biasSum, fastBlend, Config.pfr_np, asr]
  push_cast
  omega

/-- Settles O35: the blend of 16-bit samples stays inside the range in which `Q` only rounds. -/
theorem fastKernelBlendsWithoutSaturation : Obligations.FastKernelBlendsWithoutSaturation := by
  intro tab act W T hm hW n frac y
  have hy : y = _ := (kernelOut_fast _ tab hm W T).trans (fastKernel_eq hW T)
  rw [hy]
  refine ⟨asr_biasSum_eq_floor _ (by decide), rfl, fun h0 => ?_⟩
  have whole : T % 2 ^ 15 = 0 := Int.natCast_eq_zero.1 h0
  rw [whole]
  exact asr_biasSum_fastBlend_zero _ _

/-! ## FIR kernels (R203) -/

/-- `PhR` of R200 is the phase of `-T`. -/
theorem phaseOf_right (T : Nat) : phaseOf Config.pfr T .right = ((-(T : Int)) % 2 ^ 15).toNat := by
  rw [phaseOf, Config.pfr_np]
  omega

theorem wing_upOnly (P : Params) (tab : Nat → Coefficient) {act : ActiveConfig} (h : act.mode = .upOnly) (W : Int → Int) :
    wing P tab act W = wingUp P tab act W := by
  funext side n0 ph
  rw [wing, h]

theorem wing_upDown (P : Params) (tab : Nat → Coefficient) {act : ActiveConfig} (h : act.mode = .upDown) (W : Int → Int) :
    wing P tab act W = wingUD P tab act W := by
  funext side n0 ph
  rw [wing, h]

theorem ovf32_iff_leaves32 (x : Int) : ovf32 x = true ↔ Leaves32 x := ovf32_iff x

/-- Settles O60: the output's monitor points are those of the wings, their sum, the product and the bias sum. -/
theorem firOutputScalesBothWings : Obligations.FirOutputScalesBothWings := by
  intro tab act W T hm n phL phR wingOf vL vR product y
  have hwing : wingOf = wing Config.pfr tab act W := by
    funext side n0 ph
    cases hc : act.mode with
    | fast => exact absurd hc hm
    | upOnly => rw [wing_upOnly _ _ hc]; exact if_pos hc
    | upDown => rw [wing_upDown _ _ hc]; exact if_neg (by simp [hc])
  have hL : wing Config.pfr tab act W .left n (phaseOf Config.pfr T .left) = vL := by
    change _ = wingOf .left n phL
    rw [hwing]
    rfl
  have hR : wing Config.pfr tab act W .right (n + 1) (phaseOf Config.pfr T .right) = vR := by
    change _ = wingOf .right (n + 1) phR
    rw [hwing, phaseOf_right]
  have hsum : wingSum Config.pfr tab act W T = { v := vL.v + vR.v, ovf := vL.ovf || vR.ovf || ovf32 (vL.v + vR.v) } := by
    rw [← hL, ← hR]
    rfl
  have hproduct : asr (vL.v + vR.v) 2 * act.lpsclEff.toNat = product := by rw [asr_eq_floor]
  have hy : y = firKernel Config.pfr tab act W T := kernelOut_fir _ tab hm W T
  rw [hy, firKernel, hsum]
  dsimp only [Config.pfr_nhg, monitor]
  rw [hproduct]
  refine ⟨rfl, ?_⟩
  simp only [Bool.or_eq_true, quantizeMonitored, quantizeOvf, ovf32_iff_leaves32, or_assoc]
  rfl

/-- Settles O44: a zero gain makes the product 0, which `Q` keeps. -/
theorem zeroGainIsSilent : Obligations.ZeroGainIsSilent := by
  intro tab act W T hm hgain
  rw [kernelOut_fir _ tab hm, firKernel, hgain]
  change quantize Config.pfr (_ * ((0#16).toNat : Int)) 13 = 0
  rw [BitVec.toNat_ofNat, Nat.zero_mod, Nat.cast_zero, mul_zero]
  rfl

/-! ## What a kernel reads of its table (R190, R191) -/

/-- Tables that agree below `n`, and without interpolation in `Imp` alone, give the same coefficients there. -/
theorem sameCoefficients_of_agree {P : Params} {interp : Bool} {n : Nat} {tab tab' : Nat → Coefficient}
    (h : ∀ k, k < n → (tab k).imp = (tab' k).imp ∧ (interp = true → (tab k).impd = (tab' k).impd)) :
    SameCoefficients P interp n tab tab' := by
  intro k hk a
  obtain ⟨himp, himpd⟩ := h k hk
  cases interp with
  | false => rw [coef_plain, coef_plain, himp]
  | true => rw [coef_interp, coef_interp, himp, himpd rfl]

/-- A wing depends on the coefficients below NWING_ACT alone, whatever its step is. -/
theorem wing_congr_table {P : Params} {tab tab' : Nat → Coefficient} {act : ActiveConfig}
    (h : SameCoefficients P act.interpAct act.nwingAct.toNat tab tab') (W : Int → Int) : wing P tab act W = wing P tab' act W := by
  funext side n0 ph
  unfold wing
  cases act.mode with
  | fast => rfl
  | upOnly => exact wingUp_congr (fun _ _ => rfl) h
  | upDown => exact wingUD_congr (fun _ _ => rfl) h

theorem kernelOut_congr_table {P : Params} {tab tab' : Nat → Coefficient} {act : ActiveConfig}
    (h : SameCoefficients P act.interpAct act.nwingAct.toNat tab tab') (W : Int → Int) (T : Nat) :
    kernelOut P tab act W T = kernelOut P tab' act W T := by
  unfold kernelOut firKernel wingSum
  rw [wing_congr_table h]

/-- Settles O41: the coefficients below NWING_ACT are all a wing reads, and an entry is one word of the bound table. -/
theorem kernelsReadOnlyTheBoundTable : Obligations.KernelsReadOnlyTheBoundTable := by
  refine ⟨fun tab tab' act W T h => kernelOut_congr_table (sameCoefficients_of_agree h) W T, fun s h => ⟨?_, ?_, ?_⟩⟩ <;>
    intro bound <;> rw [tableEntry, bound] <;> exact ⟨rfl, rfl⟩

end Sys2Proof.Machine
end

section
/-! PROOFS. Accumulator: the datapath's values are within the bounds that `Params.accWide` computes (R11, R196, R205). -/

namespace Sys2Proof.Machine

variable {P : Params}

/-! ## One tap -/

/-- Shifting right divides a bound, rounded away from zero. -/
theorem abs_asr_le {x : Int} {M : Nat} (k : Nat) (h : |x| ≤ M) : |asr x k| ≤ (M / 2 ^ k + 1 : Nat) := by
  have above : (M : Int) < 2 ^ k * (M / 2 ^ k + 1 : Nat) := by exact_mod_cast Nat.lt_mul_div_succ M (Nat.two_pow_pos k)
  obtain ⟨lower, upper⟩ := abs_le.1 h
  rw [abs_le]
  exact ⟨le_asr_iff.2 (by linarith), (asr_lt_iff.2 (by linarith)).le⟩

/-- R191: the interpolated coefficient of an entry in `[-H, H)` is within `2*H`. -/
theorem abs_coef_le {H : Int} {e : Coefficient} {a : Nat} (interp : Bool) (hi : -H ≤ e.imp ∧ e.imp < H)
    (hd : -H ≤ e.impd ∧ e.impd < H) (ha : a < 2 ^ P.na) : |coef P interp e a| ≤ 2 * H := by
  have fraction : (a : Int) < 2 ^ P.na := by exact_mod_cast ha
  rw [abs_le]
  cases interp with
  | false =>
    rw [coef_plain]
    omega
  | true =>
    have lower : -H ≤ asr (e.impd * a) P.na := le_asr_iff.2 (by nlinarith)
    have upper : asr (e.impd * a) P.na < H := asr_lt_iff.2 (by nlinarith)
    rw [coef_interp]
    omega

/-- R192: a product of bounded factors, with its rounding bias, and rounded. -/
theorem abs_product_le {cf x : Int} {C X : Nat} (hc : |cf| ≤ C) (hx : |x| ≤ X) (hn : 1 ≤ P.nhxn) :
    |cf * x| ≤ (C * X : Nat) ∧ |cf * x + 2 ^ (P.nhxn - 1)| ≤ (C * X + 2 ^ (P.nhxn - 1) : Nat) ∧
      |roundProd P cf x| ≤ ((C * X + 2 ^ (P.nhxn - 1)) / 2 ^ P.nhxn + 1 : Nat) := by
  have product : |cf * x| ≤ (C * X : Nat) := by
    rw [abs_mul, Nat.cast_mul]
    exact mul_le_mul hc hx (abs_nonneg _) (by positivity)
  have biased : |cf * x + 2 ^ (P.nhxn - 1)| ≤ (C * X + 2 ^ (P.nhxn - 1) : Nat) := by
    refine (abs_add_le _ _).trans ?_
    rw [abs_of_nonneg (by positivity : (0 : Int) ≤ 2 ^ (P.nhxn - 1))]
    push_cast at product ⊢
    linarith
  exact ⟨product, biased, roundProd_eq hn cf x ▸ abs_asr_le _ biased⟩

theorem tapFraction_lt (P : Params) (interp : Bool) (position : Nat) : tapFraction P interp position < 2 ^ P.na := by
  unfold tapFraction
  split
  · exact Nat.mod_lt _ (Nat.two_pow_pos _)
  · exact Nat.two_pow_pos _

/-! ## Wings of bounded taps (R203, R205) -/

/-- Every rounded product of the table and the window is within `B`. -/
def TapsWithin (P : Params) (tab : Nat → Coefficient) (interp : Bool) (W : Int → Int) (B : Nat) : Prop :=
  ∀ (h a : Nat) (w : Int), a < 2 ^ P.na → |roundProd P (coef P interp (tab h) a) (W w)| ≤ B

section
variable {tab : Nat → Coefficient} {act : ActiveConfig} {W : Int → Int} {B : Nat}

/-- The taps of an UpOnly wing are at most `Lmax` (`Rmax`) (R118, R204). -/
theorem upOnly_taps_le (hm : act.mode = .upOnly) (side : Wing) (h0 : Nat) :
    ceilDiv (side.endOf act.nwingAct.toNat - h0) P.npc ≤ maxTaps P act side := by
  have entries : 0 < P.npc := Nat.two_pow_pos _
  refine (ceilDiv_mono entries (Nat.sub_le _ h0)).trans (Nat.le_of_eq ?_)
  cases side <;> simp only [maxTaps, hm, lmaxOf, rmaxOf, Wing.endOf]

/-- The taps of an UpDown wing are at most `Lmax` (`Rmax`) (R118, R204). -/
theorem upDown_taps_le (hm : act.mode = .upDown) (hd : 1 ≤ act.dhb.toNat) (side : Wing) (ho : Nat) :
    ceilDiv (side.endOf act.nwingAct.toNat * 2 ^ P.na - ho) act.dhb.toNat ≤ maxTaps P act side := by
  refine (ceilDiv_mono hd (Nat.sub_le _ ho)).trans (Nat.le_of_eq ?_)
  cases side <;> simp only [maxTaps, hm, lmaxOf, rmaxOf, Wing.endOf]

variable (hd : act.mode = .upDown → 1 ≤ act.dhb.toNat) (hB : TapsWithin P tab act.interpAct W B)
include hd hB

/-- In every mode a wing is a run of bounded products, no longer than its reach. -/
theorem wing_eq_runTaps (side : Wing) (n0 : Int) (ph : Nat) :
    ∃ p n, wing P tab act W side n0 ph = runTaps Monitored.zero p n ∧ n ≤ maxTaps P act side ∧ ∀ j, |p j| ≤ B := by
  cases hm : act.mode with
  | fast =>
    refine ⟨fun _ => roundProd P (coef P act.interpAct (tab 0) 0) (W 0), 0, ?_, Nat.zero_le _, fun _ => hB 0 0 0 (by positivity)⟩
    rw [wing, hm]
    rfl
  | upOnly =>
    rw [wing_upOnly _ _ hm, wingUp_eq]
    exact ⟨_, _, rfl, upOnly_taps_le hm side _, fun _ => hB _ _ _ (tapFraction_lt _ _ _)⟩
  | upDown =>
    rw [wing_upDown _ _ hm, wingUD_eq _ _ _ _ _ _ (hd hm)]
    exact ⟨_, _, rfl, upDown_taps_le hm (hd hm) side _, fun _ => hB _ _ _ (tapFraction_lt _ _ _)⟩

theorem abs_wing_le (side : Wing) (n0 : Int) (ph : Nat) : |(wing P tab act W side n0 ph).v| ≤ (maxTaps P act side * B : Nat) := by
  obtain ⟨p, n, heq, hn, hp⟩ := wing_eq_runTaps hd hB side n0 ph
  rw [heq, (runTaps_zero p n).1]
  refine (abs_sum_le n hp).trans ?_
  exact_mod_cast Nat.mul_le_mul_right B hn

/-- A wing whose largest possible sum fits 32 bits records no overflow. -/
theorem wing_ovf_false (side : Wing) (n0 : Int) (ph : Nat) (hfit : maxTaps P act side * B ≤ 2147483647) :
    (wing P tab act W side n0 ph).ovf = false := by
  obtain ⟨p, n, heq, hn, hp⟩ := wing_eq_runTaps hd hB side n0 ph
  rw [heq, Bool.eq_false_iff, ne_eq, (runTaps_zero p n).2]
  rintro ⟨m, -, hm, leaves⟩
  have partialSum : |∑ j ∈ Finset.range m, p j| ≤ 2147483647 :=
    (abs_sum_le m hp).trans (by exact_mod_cast (Nat.mul_le_mul_right B (hm.trans hn)).trans hfit)
  rw [abs_le] at partialSum
  rw [Leaves32] at leaves
  omega

theorem abs_wingSum_le (T : Nat) :
    |(wingSum P tab act W T).v| ≤ ((maxTaps P act .left + maxTaps P act .right) * B : Nat) := by
  refine (abs_add_le _ _).trans ?_
  rw [Nat.add_mul, Nat.cast_add]
  exact add_le_add (abs_wing_le hd hB _ _ _) (abs_wing_le hd hB _ _ _)

end

/-- R118, R120: both wings together read at most `2*Xoff + 1` frames, and XBUF bounds `Xoff`. -/
theorem maxTaps_le {s : State} (hr : ReadyOk P s) (hc : RecordOk P s) :
    maxTaps P s.act .left + maxTaps P s.act .right ≤ P.xbufFramesMax + 1 := by
  have left : maxTaps P s.act .left ≤ _ := hc.left
  have right : maxTaps P s.act .right ≤ _ := hc.right
  have reach := hr.reachMax
  omega

/-! ## The defaults (R205) -/

theorem tapsWithin_pfr {tab : Nat → Coefficient} {W : Int → Int} (interp : Bool) (hW : ∀ w, InSampleRange (W w))
    (ht : TableInRange tab) : TapsWithin Config.pfr tab interp W 130560 := by
  intro h a w ha
  rw [Config.pfr_na] at ha
  obtain ⟨-, -, range⟩ := coefficientRange interp (tab h) a
  obtain ⟨lower, upper⟩ := range (ht h).1 (ht h).2 (by omega)
  exact (productRounding _ _ lower (by omega) (hW w)).2.2.2

/-- R205: the wing sums of the default machine fit 32 bits. -/
theorem wingSum_pfr {s : State} {tab : Nat → Coefficient} {W : Int → Int} (hi : Inv Config.pfr s) (hr : s.ready = true)
    (hW : ∀ w, InSampleRange (W w)) (ht : TableInRange tab) (T : Nat) :
    (wingSum Config.pfr tab s.act W T).ovf = false ∧ |(wingSum Config.pfr tab s.act W T).v| ≤ 2139225600 := by
  obtain ⟨ready, record⟩ := hi.ready hr
  have hd : s.act.mode = .upDown → 1 ≤ s.act.dhb.toNat := fun hm => (ready.stepRange hm).1
  have hB := tapsWithin_pfr s.act.interpAct hW ht
  have taps := maxTaps_le ready record
  rw [Config.pfr_xbufFramesMax] at taps
  have sum : |(wingSum Config.pfr tab s.act W T).v| ≤ 2139225600 :=
    (abs_wingSum_le hd hB T).trans (by exact_mod_cast Nat.mul_le_mul_right 130560 taps)
  have quiet : ¬ ovf32 (wingSum Config.pfr tab s.act W T).v = true := by
    rw [ovf32_iff]
    rw [abs_le] at sum
    omega
  refine ⟨?_, sum⟩
  rw [wingSum, wing_ovf_false hd hB _ _ _ (by omega), wing_ovf_false hd hB _ _ _ (by omega)]
  exact Bool.eq_false_iff.2 quiet

/-! ## Any admitted parameters (R11, R196) -/

/-- What `Params.wf` asks of the shifts and of ACC_W (R9, R11). -/
theorem wf_accumulator (h : P.wf = true) :
    1 ≤ P.nhxn ∧ 1 ≤ P.nh ∧ 2 ^ P.nh * 2 ^ (P.nb - 1) + 2 ^ (P.nhxn - 1) < 2 ^ (P.accW - 1) ∧
      P.wingSumBound < 2 ^ (P.accW - 1) ∧ P.firBound < 2 ^ (P.accW - 1) ∧ P.fastBound < 2 ^ (P.accW - 1) := by
  simp only [Params.wf, Params.relationsWf, Params.accWide, Bool.and_eq_true, beq_iff_eq, decide_eq_true_eq] at h
  obtain ⟨⟨⟨⟨⟨⟨⟨-, width⟩, shift⟩, -⟩, -⟩, -⟩, -⟩, ⟨⟨⟨⟨product, wings⟩, fir⟩, fast⟩, -⟩, -⟩ := h
  exact ⟨shift, by omega, product, wings, fir, fast⟩

/-- Every sample of the window has `Nb` bits. -/
def SamplesFit (P : Params) (W : Int → Int) : Prop := ∀ w, P.sampleMin ≤ W w ∧ W w ≤ P.sampleMax

/-- Every entry of the table has `Nh` bits (log entry 19). -/
def EntriesFit (P : Params) (tab : Nat → Coefficient) : Prop :=
  ∀ h, -2 ^ (P.nh - 1) ≤ (tab h).imp ∧ (tab h).imp < 2 ^ (P.nh - 1) ∧ -2 ^ (P.nh - 1) ≤ (tab h).impd ∧
    (tab h).impd < 2 ^ (P.nh - 1)

section
variable {tab : Nat → Coefficient} {W : Int → Int} (hwf : P.wf = true) (hW : SamplesFit P W)
include hW

theorem abs_sample_le (w : Int) : |W w| ≤ (2 ^ (P.nb - 1) : Nat) := by
  obtain ⟨lower, upper⟩ := hW w
  rw [Params.sampleMin] at lower
  rw [Params.sampleMax] at upper
  rw [abs_le]
  push_cast
  omega

/-- R180: the blend of two samples, and its bias sum. -/
theorem abs_fastBlend_le (x y : Int) {frac : Nat} (hf : frac < 2 ^ P.np) :
    |fastBlend P (W x) (W y) frac| ≤ P.fastBound ∧ |biasSum (fastBlend P (W x) (W y) frac) P.np| ≤ P.fastBound := by
  have fraction : (frac : Int) < 2 ^ P.np := by exact_mod_cast hf
  have first := abs_le.1 (abs_sample_le hW x)
  have second := abs_le.1 (abs_sample_le hW y)
  have bias : (0 : Int) ≤ 2 ^ (P.np - 1) := by positivity
  simp only [Params.fastBound, biasSum, fastBlend]
  push_cast at first second ⊢
  have lower : -(2 ^ (P.nb - 1) * 2 ^ P.np : Int) ≤ W x * (2 ^ P.np - frac) + W y * frac := by nlinarith
  have upper : W x * (2 ^ P.np - frac) + W y * frac ≤ (2 ^ (P.nb - 1) * 2 ^ P.np : Int) := by nlinarith
  constructor <;> rw [abs_le] <;> constructor <;> linarith

variable (ht : EntriesFit P tab)
include hwf ht

/-- R192 under `Params.wf`: the product, with its bias, and rounded. -/
theorem abs_tap_le (interp : Bool) (h : Nat) {a : Nat} (w : Int) (ha : a < 2 ^ P.na) :
    |coef P interp (tab h) a * W w| ≤ (2 ^ P.nh * 2 ^ (P.nb - 1) : Nat) ∧
      |coef P interp (tab h) a * W w + 2 ^ (P.nhxn - 1)| ≤ (2 ^ P.nh * 2 ^ (P.nb - 1) + 2 ^ (P.nhxn - 1) : Nat) ∧
      |roundProd P (coef P interp (tab h) a) (W w)| ≤ P.productBound := by
  obtain ⟨shift, width, -⟩ := wf_accumulator hwf
  obtain ⟨h1, h2, h3, h4⟩ := ht h
  have entry : |coef P interp (tab h) a| ≤ (2 ^ P.nh : Nat) := by
    have := abs_coef_le (P := P) interp ⟨h1, h2⟩ ⟨h3, h4⟩ ha
    rwa [mul_pow_sub_one (by omega)] at this
  exact abs_product_le entry (abs_sample_le hW w) shift

theorem tapsWithin_productBound (interp : Bool) : TapsWithin P tab interp W P.productBound :=
  fun h _ w ha => (abs_tap_le hwf hW ht interp h w ha).2.2

end

/-- A sum of at most as many products as a wing has taps is within the bound of both wings. -/
theorem abs_partialSum_le {s : State} {p : Nat → Int} {m : Nat} {side : Wing} (hr : ReadyOk P s) (hc : RecordOk P s)
    (hm : m ≤ maxTaps P s.act side) (hp : ∀ j, |p j| ≤ P.productBound) : |∑ j ∈ Finset.range m, p j| ≤ P.wingSumBound := by
  have taps := maxTaps_le hr hc
  have count : m ≤ P.xbufFramesMax + 1 := by
    cases side <;> omega
  refine (abs_sum_le m hp).trans ?_
  exact_mod_cast Nat.mul_le_mul_right P.productBound count

/-- R203: guard bits dropped, times a 16-bit gain, and its bias sum. -/
theorem abs_firProduct_le {v : Int} (gain : BitVec 16) (h : |v| ≤ P.wingSumBound) :
    |asr v P.nhg * gain.toNat| ≤ P.firBound ∧ |biasSum (asr v P.nhg * gain.toNat) P.nlpscl| ≤ P.firBound := by
  have scaled : |asr v P.nhg * gain.toNat| ≤ ((P.wingSumBound / 2 ^ P.nhg + 1) * 2 ^ 16 : Nat) := by
    rw [abs_mul, Nat.abs_cast, Nat.cast_mul]
    exact mul_le_mul (abs_asr_le _ h) (by exact_mod_cast gain.isLt.le) (by positivity) (by positivity)
  have bias : (0 : Int) ≤ 2 ^ (P.nlpscl - 1) := by positivity
  simp only [Params.firBound, biasSum]
  push_cast at scaled ⊢
  refine ⟨by linarith, (abs_add_le _ _).trans ?_⟩
  rw [abs_of_nonneg bias]
  linarith

/-- Settles O43: at the defaults by R205's numbers, and for any admitted parameters by the bounds `Params.accWide` compares. -/
theorem accumulatorNeverWraps : Obligations.AccumulatorNeverWraps := by
  refine ⟨fun s tab W T hi hr hW ht => ?_, fun P s tab W T hwf hr hc hW ht => ?_⟩
  · obtain ⟨quiet, sum⟩ := wingSum_pfr hi hr hW ht T
    have gain := (hi.ready hr).2.gain
    have dropped := abs_asr_le (M := 2139225600) 2 sum
    have product : |asr (wingSum Config.pfr tab s.act W T).v 2 * s.act.lpsclEff.toNat| ≤ 534806401 * 62258 := by
      rw [abs_mul, Nat.abs_cast]
      exact mul_le_mul dropped (by exact_mod_cast gain) (by positivity) (by norm_num)
    refine ⟨quiet, sum, product.trans_lt (by norm_num), ?_⟩
    rw [biasSum, abs_lt]
    rw [abs_le] at product
    omega
  · obtain ⟨-, -, product, wings, fir, fast⟩ := wf_accumulator hwf
    have fits {v : Int} {B : Nat} (h : |v| ≤ B) (hB : B < 2 ^ (P.accW - 1)) : |v| < 2 ^ (P.accW - 1) :=
      h.trans_lt (by exact_mod_cast hB)
    have hd : s.act.mode = .upDown → 1 ≤ s.act.dhb.toNat := fun hm => (hr.stepRange hm).1
    have hB := tapsWithin_productBound hwf hW ht s.act.interpAct
    have sum : |(wingSum P tab s.act W T).v| ≤ P.wingSumBound :=
      (abs_wingSum_le hd hB T).trans (by exact_mod_cast Nat.mul_le_mul_right P.productBound (maxTaps_le hr hc))
    have scaled := abs_firProduct_le s.act.lpsclEff sum
    have blend := abs_fastBlend_le hW (T / 2 ^ P.np : Nat) ((T / 2 ^ P.np : Nat) + 1) (Nat.mod_lt T (Nat.two_pow_pos P.np))
    refine ⟨fun h a w ha => ?_, fun side n0 ph m => ⟨fun hm hle => ?_, fun hm hle => ?_⟩, fits sum wings, fits scaled.1 fir,
      fits scaled.2 fir, fits blend.1 fast, fits blend.2 fast⟩
    · obtain ⟨plain, biased, -⟩ := abs_tap_le hwf hW ht s.act.interpAct h w ha
      exact ⟨fits plain ((Nat.le_add_right _ _).trans_lt product), fits biased product⟩
    · exact fits (abs_partialSum_le hr hc (hle.trans (upOnly_taps_le hm side _)) fun _ => hB _ _ _ (tapFraction_lt _ _ _)) wings
    · exact fits (abs_partialSum_le hr hc (hle.trans (upDown_taps_le hm (hd hm) side _)) fun _ => hB _ _ _ (tapFraction_lt _ _ _)) wings

end Sys2Proof.Machine
end

section
/-! PROOFS. Streams: a kernel stays inside its window (R168), Basic at `f = 1` copies the block (R171, R181), and a block may be
split anywhere (R170, R172, R173). -/

namespace Sys2Proof.Machine

/-! ## A kernel stays inside its window (R168) -/

/-- The frame of an output lies from `NCREEP + Xoff` on and before the block's last reach. -/
theorem outputTime_frame {s : State} {n k : Nat} (hd : 1 ≤ s.act.dtb.toNat) (hk : k < outputCount Config.pfr s n) :
    s.pos.ncreep.toNat + s.act.xoff.toNat ≤ outputTime Config.pfr s k / 2 ^ 15 ∧
      outputTime Config.pfr s k / 2 ^ 15 + 1 ≤ s.act.xoff.toNat + n := by
  have below := outputTime_lt_endTime hd hk
  have start : startTime Config.pfr s ≤ outputTime Config.pfr s k := Nat.le_add_right _ _
  rw [startTime_pfr] at start
  rw [endTime_pfr] at below
  omega

/-- What R118 and R40 leave of a configuration: wings no longer than the reach, and an UpDown step. -/
def WithinReach (act : ActiveConfig) : Prop :=
  (act.mode = .upDown → 1 ≤ act.dhb.toNat) ∧ maxTaps Config.pfr act .left ≤ act.xoff.toNat + 1 ∧
    maxTaps Config.pfr act .right ≤ act.xoff.toNat

theorem Inv.withinReach {s : State} (hi : Inv Config.pfr s) (hr : s.ready = true) : WithinReach s.act :=
  ⟨fun hm => ((hi.ready hr).1.stepRange hm).1, (hi.ready hr).2.left, (hi.ready hr).2.right⟩

/-- A kernel whose frame leaves `Xoff` frames on either side reads `[0, 2*Xoff + n)` only. -/
theorem kernelOut_congr_window {tab tab' : Nat → Coefficient} {act : ActiveConfig} {W W' : Int → Int} {n T : Nat}
    (hr : WithinReach act) (before : act.xoff.toNat ≤ T / 2 ^ 15) (after : T / 2 ^ 15 + 1 ≤ act.xoff.toNat + n)
    (hW : ∀ w : Int, 0 ≤ w → w < 2 * act.xoff.toNat + n → W w = W' w)
    (ht : SameCoefficients Config.pfr act.interpAct act.nwingAct.toNat tab tab') :
    kernelOut Config.pfr tab act W T = kernelOut Config.pfr tab' act W' T := by
  obtain ⟨step, left, right⟩ := hr
  refine kernelOut_congr step (fun j hj => hW _ ?_ ?_) (fun j hj => hW _ ?_ ?_) ht <;> rw [Config.pfr_np] <;> omega

theorem xbufFrame_of_getElem? {s : State} {w : Nat} {f : Frame} (h : s.xbuf[w]? = some f) : xbufFrame s w = f := by
  rw [xbufFrame, h, Option.getD_some]

/-- Settles O42: the reach check leaves room for both wings, and the window is XBUF and then IN. -/
theorem windowReadsStayInside : Obligations.WindowReadsStayInside := by
  refine ⟨fun s n k tab W W' hi hf hk hW => ?_, fun s n => ⟨fun w f hw hx => ?_, fun j hj => ?_⟩⟩
  · obtain ⟨before, after⟩ := outputTime_frame (hi.ready hf.1).1.period hk
    refine ⟨kernelOut_congr_window (hi.withinReach hf.1) ?_ after hW fun _ _ _ => rfl, before, after⟩
    exact (Nat.le_add_left _ _).trans before
  · simp only [windowSample, windowFrame_xbuf s n hw, xbufFrame_of_getElem? hx]
    exact ⟨rfl, rfl⟩
  · simp only [windowSample, windowFrame_in s hj]
    exact ⟨rfl, rfl⟩

/-! ## The delayed identity (R171, R181) -/

theorem inSampleRange_toInt (x : Sample) : InSampleRange x.toInt := by
  have lower := x.le_toInt
  have upper := x.toInt_lt
  simp only [InSampleRange]
  omega

theorem inSampleRange_windowSample (s : State) (n : Nat) (c : Channel) (w : Int) : InSampleRange (windowSample s n c w) := by
  cases c <;> exact inSampleRange_toInt _

/-- At a whole frame a Fast kernel returns that frame's sample. -/
theorem kernelAt_fast_whole {s : State} (hm : s.act.mode = .fast) (n : Nat) (c : Channel) (w : Nat) :
    (kernelAt Config.pfr s n c (w * 2 ^ 15)).v = windowSample s n c w := by
  rw [kernelAt, kernelOut_fast _ _ hm, fastKernel_eq (inSampleRange_windowSample s n c), Nat.mul_mod_left,
    Nat.mul_div_cancel _ (by decide)]
  exact asr_biasSum_fastBlend_zero _ _

/-- An output at a whole frame of a Fast stream is that frame of the window. -/
theorem outputFrame_fast_whole {s : State} (hm : s.act.mode = .fast) {n k w : Nat}
    (ht : outputTime Config.pfr s k = w * 2 ^ 15) : outputFrame Config.pfr s n k = windowFrame s n w := by
  rw [outputFrame, ht, kernelAt_fast_whole hm, kernelAt_fast_whole hm]
  exact congrArg₂ Frame.mk (BitVec.ofInt_toInt ..) (BitVec.ofInt_toInt ..)

/-- A frame word is its two samples (R64). -/
theorem wordOfFrame_frameOfWord (w : Word) : wordOfFrame (frameOfWord w) = w := by
  refine BitVec.eq_of_getLsbD_eq fun i hi => ?_
  simp only [wordOfFrame, frameOfWord, BitVec.getLsbD_append, BitVec.getLsbD_extractLsb']
  split
  · simp [*]
  · rw [show 16 + (i - 16) = i by omega, show decide (i - 16 < 16) = true by simp; omega, Bool.true_and]

theorem wordOfFrame_zero : wordOfFrame { left := 0, right := 0 } = 0#32 := by decide

/-- Settles O49: at DTB = 2^15 output `j` is the window's frame `Xoff + j`, which is a zero frame or an IN frame. -/
theorem unityFastIsDelayedIdentity : Obligations.UnityFastIsDelayedIdentity := by
  intro s n hi hf hz hm hd hc ht hx
  have start : startTime Config.pfr s = s.act.xoff.toNat * 32768 := by
    rw [startTime_pfr, hc, ht]
    change (0 + _) * 32768 + 0 = _
    omega
  have loop : LoopCount (startTime Config.pfr s) (endTime Config.pfr s n) s.act.dtb.toNat n := by
    rw [start, endTime_pfr, hd]
    exact ⟨fun j hj => by omega, by omega⟩
  obtain ⟨count, hexec⟩ := exec_process_of_loopCount hi hf loop (hf.2.2.1.trans (by decide))
  refine ⟨_, hexec, rfl, ?_, fun j hj => ?_⟩
  · change (BitVec.ofNat 24 (outputCount Config.pfr s n)).toNat = n
    rw [count]
    exact Nat.mod_eq_of_lt (hf.2.2.1.trans_lt (by decide))
  · have time : outputTime Config.pfr s j = (s.act.xoff.toNat + j) * 2 ^ 15 := by
      rw [outputTime, start, hd]
      omega
    rw [finish_mem, show 0x200000 + 4 * j = outAddr j from rfl, wordAt_recordProcess hz (by omega), outputFrame_fast_whole hm time]
    split
    · rw [windowFrame_xbuf s n (by omega), xbufFrame, hx, List.getElem?_replicate, if_pos (by omega), Option.getD_some]
      exact wordOfFrame_zero
    · have frame := windowFrame_in s (show j - s.act.xoff.toNat < n by omega)
      rw [show 2 * s.act.xoff.toNat + (j - s.act.xoff.toNat) = s.act.xoff.toNat + j by omega] at frame
      rw [frame]
      exact wordOfFrame_frameOfWord _

/-! ## Splitting a block (R170, R172, R173 c) -/

/-- A PROCESS that ends without an error made its writes, and its outputs fit OUT. -/
theorem eq_recordProcess_of_exec {s t : State} {n : Nat} (h : exec .process s = .next t) (he : t.err = .none)
    (hf : BlockFits s n) : t = finish (recordProcess Config.pfr s n) ∧ outputCount Config.pfr s n ≤ 262144 := by
  obtain rfl : n = blockLength s := hf.2.1
  rcases exec_cases h with ⟨e, hne, -, rfl⟩ | ⟨u, hu, rfl⟩
  · exact absurd he hne
  · rcases commandRule_ok_cases hu with ⟨_, _, ⟨⟩, -⟩ | ⟨-, -, hk, rfl⟩ | ⟨⟨⟩, -⟩ | ⟨⟨⟩, -⟩
    exact ⟨rfl, hk⟩

theorem outCount_recordProcess {s : State} {n : Nat} (hk : outputCount Config.pfr s n ≤ 262144) :
    (finish (recordProcess Config.pfr s n)).outCount.toNat = outputCount Config.pfr s n :=
  Nat.mod_eq_of_lt (hk.trans_lt (by decide))

/-- `sb` continues with `m` frames from what `n` frames in `sa` left, and `sw` has both blocks at once. -/
structure SplitStream (sa sb sw : State) (n m : Nat) : Prop where
  actSecond : sb.act = sa.act
  posSecond : sb.pos = nextPosition Config.pfr sa n
  xbufSecond : sb.xbuf = nextXbuf sa n
  actWhole : sw.act = sa.act
  posWhole : sw.pos = sa.pos
  xbufWhole : sw.xbuf = sa.xbuf
  firstFrames : ∀ f, f < n → inFrame sw f = inFrame sa f
  secondFrames : ∀ f, f < m → inFrame sw (n + f) = inFrame sb f

namespace SplitStream
variable {sa sb sw : State} {n m : Nat} (h : SplitStream sa sb sw n m)
include h

/-- The whole window starts as the first block's. -/
theorem windowFrame_first {w : Int} (h0 : 0 ≤ w) (h1 : w < 2 * sa.act.xoff.toNat + n) :
    windowFrame sw (n + m) w = windowFrame sa n w := by
  lift w to Nat using h0
  rcases Nat.lt_or_ge w (2 * sa.act.xoff.toNat) with hw | hw
  · rw [windowFrame_xbuf _ _ hw, windowFrame_xbuf _ _ (h.actWhole ▸ hw), xbufFrame, xbufFrame, h.xbufWhole]
  · obtain ⟨f, rfl⟩ := Nat.exists_eq_add_of_le hw
    have hf : f < n := by omega
    have whole := windowFrame_in sw (show f < n + m by omega)
    rw [h.actWhole] at whole
    rw [whole, windowFrame_in sa hf, h.firstFrames f hf]

/-- The whole window ends as the second block's, `n` frames later. -/
theorem windowFrame_second {w : Int} (h0 : 0 ≤ w) (h1 : w < 2 * sa.act.xoff.toNat + m) :
    windowFrame sw (n + m) (w + n) = windowFrame sb m w := by
  lift w to Nat using h0
  rcases Nat.lt_or_ge w (2 * sa.act.xoff.toNat) with hw | hw
  · rw [windowFrame_xbuf _ _ (h.actSecond ▸ hw), xbufFrame, h.xbufSecond, nextXbuf, List.getElem?_map, List.getElem?_range hw,
      Option.map_some, Option.getD_some, ← h.windowFrame_first (by omega) (by omega)]
    congr 1
    omega
  · obtain ⟨f, rfl⟩ := Nat.exists_eq_add_of_le hw
    have hf : f < m := by omega
    have whole := windowFrame_in sw (show n + f < n + m by omega)
    have second := windowFrame_in sb hf
    rw [h.actWhole] at whole
    rw [h.actSecond] at second
    rw [second, ← h.secondFrames f hf, ← whole]
    congr 1
    omega

/-- The second block leaves the history that the whole leaves. -/
theorem nextXbuf_eq : nextXbuf sw (n + m) = nextXbuf sb m := by
  rw [nextXbuf, nextXbuf, h.actWhole, h.actSecond]
  refine List.map_congr_left fun j hj => ?_
  have hj' := List.mem_range.1 hj
  rw [← h.windowFrame_second (by omega) (by omega)]
  congr 1
  omega

theorem startTime_whole : startTime Config.pfr sw = startTime Config.pfr sa := by
  rw [startTime_pfr, startTime_pfr, h.actWhole, h.posWhole]

variable (hi : Inv Config.pfr sa) (hf : BlockFits sa n)
include hi hf

/-- The second block starts at the time at which the first stopped, `n` frames earlier (R166). -/
theorem startTime_second : startTime Config.pfr sb + n * 32768 = finalTime Config.pfr sa n := by
  have past := endTime_le_finalTime Config.pfr n (hi.ready hf.1).1.period
  have creep := (nextPosition_ncreep hi hf).1
  have frac := nextPosition_tfrac sa n
  rw [startTime_pfr, h.actSecond, h.posSecond, creep, frac]
  rw [endTime_pfr] at past ⊢
  omega

/-- The time of the second block's output `j` in the whole stream. -/
theorem outputTime_whole (j : Nat) :
    outputTime Config.pfr sw (outputCount Config.pfr sa n + j) = outputTime Config.pfr sb j + n * 32768 := by
  have second := h.startTime_second hi hf
  rw [finalTime, outputTime] at second
  rw [outputTime, outputTime, h.startTime_whole, h.actWhole, h.actSecond, Nat.add_mul]
  omega

/-- The whole stream has the outputs of both blocks (R172). -/
theorem outputCount_whole : outputCount Config.pfr sw (n + m) = outputCount Config.pfr sa n + outputCount Config.pfr sb m := by
  have hd := (hi.ready hf.1).1.period
  obtain ⟨below, -⟩ := loopCount_outputCount Config.pfr n hd
  obtain ⟨below', top'⟩ := loopCount_outputCount Config.pfr m (s := sb) (h.actSecond ▸ hd)
  have second := h.startTime_second hi hf
  rw [finalTime, outputTime] at second
  refine outputCount_eq_of_loopCount (h.actWhole ▸ hd) ⟨fun j hj => ?_, ?_⟩ <;>
    rw [h.startTime_whole, endTime_pfr, h.actWhole]
  · rcases Nat.lt_or_ge j (outputCount Config.pfr sa n) with hj' | hj'
    · have := below j hj'
      rw [endTime_pfr] at this
      exact this.trans_le (Nat.mul_le_mul_right _ (by omega))
    · obtain ⟨i, rfl⟩ := Nat.exists_eq_add_of_le hj'
      have := below' i (by omega)
      rw [endTime_pfr, h.actSecond] at this
      linarith
  · rw [endTime_pfr, h.actSecond] at top'
    linarith

/-- The whole stream stops where the second block does, `n` frames later. -/
theorem nextPosition_eq : nextPosition Config.pfr sw (n + m) = nextPosition Config.pfr sb m := by
  have final : finalTime Config.pfr sw (n + m) = finalTime Config.pfr sb m + n * 32768 := by
    rw [finalTime, h.outputCount_whole hi hf, h.outputTime_whole hi hf, finalTime]
  have frames : finalTime Config.pfr sw (n + m) / 2 ^ 15 - (sa.act.xoff.toNat + (n + m)) =
      finalTime Config.pfr sb m / 2 ^ 15 - (sa.act.xoff.toNat + m) := by
    rw [final]
    omega
  have fraction : finalTime Config.pfr sw (n + m) % 2 ^ 15 = finalTime Config.pfr sb m % 2 ^ 15 := by
    rw [final]
    omega
  simp only [nextPosition, Config.pfr_np, h.actWhole, h.actSecond, frames, fraction]

variable (ht : ∀ k, k < sa.act.nwingAct.toNat → tableEntry sb k = tableEntry sa k ∧ tableEntry sw k = tableEntry sa k)
include ht

/-- The outputs of the first block are those of the whole (R170). -/
theorem outputFrame_first {j : Nat} (hj : j < outputCount Config.pfr sa n) :
    outputFrame Config.pfr sw (n + m) j = outputFrame Config.pfr sa n j := by
  obtain ⟨before, after⟩ := outputTime_frame (hi.ready hf.1).1.period hj
  have time : outputTime Config.pfr sw j = outputTime Config.pfr sa j := by
    rw [outputTime, outputTime, h.startTime_whole, h.actWhole]
  have kernel (c : Channel) : kernelAt Config.pfr sw (n + m) c (outputTime Config.pfr sa j) =
      kernelAt Config.pfr sa n c (outputTime Config.pfr sa j) := by
    rw [kernelAt, kernelAt, h.actWhole]
    refine kernelOut_congr_window (hi.withinReach hf.1) (by omega) after (fun w h0 h1 => ?_) (fun k hk a => by rw [(ht k hk).2])
    rw [windowSample, windowSample, h.windowFrame_first h0 h1]
  rw [outputFrame, outputFrame, time, kernel, kernel]

/-- The outputs of the second block are those that follow in the whole (R170). -/
theorem outputFrame_second {j : Nat} (hj : j < outputCount Config.pfr sb m) :
    outputFrame Config.pfr sw (n + m) (outputCount Config.pfr sa n + j) = outputFrame Config.pfr sb m j := by
  obtain ⟨before, after⟩ := outputTime_frame (s := sb) (h.actSecond ▸ (hi.ready hf.1).1.period) hj
  rw [h.actSecond] at before after
  have kernel (c : Channel) : kernelAt Config.pfr sw (n + m) c (outputTime Config.pfr sb j + n * 32768) =
      kernelAt Config.pfr sb m c (outputTime Config.pfr sb j) := by
    rw [kernelAt, kernelAt, h.actWhole, h.actSecond]
    refine (kernelOut_shift (P := Config.pfr) n _).symm.trans ?_
    refine kernelOut_congr_window (hi.withinReach hf.1) (by omega) after (fun w h0 h1 => ?_)
      (fun k hk a => by rw [(ht k hk).2, (ht k hk).1])
    rw [windowSample, windowSample, h.windowFrame_second h0 h1]
  rw [outputFrame, outputFrame, h.outputTime_whole hi hf, kernel, kernel]

end SplitStream

/-- Settles O50: both blocks read the whole window at the whole stream's times, shifted by whole frames. -/
theorem blockSplitInvariance : Obligations.BlockSplitInvariance := by
  intro sa sb sw ta tb tw n m hi hfa hfb hfw hza hzb hzw hact hpos hxbuf hfirst hsecond ht hexa hea hactb hposb hxbufb hexb heb hexw hew
  obtain ⟨rfl, hka⟩ := eq_recordProcess_of_exec hexa hea hfa
  obtain ⟨rfl, hkb⟩ := eq_recordProcess_of_exec hexb heb hfb
  obtain ⟨rfl, hkw⟩ := eq_recordProcess_of_exec hexw hew hfw
  have h : SplitStream sa sb sw n m := ⟨hactb, hposb, hxbufb, hact, hpos, hxbuf, hfirst, hsecond⟩
  have count := h.outputCount_whole hi hfa
  rw [outCount_recordProcess hka, outCount_recordProcess hkb, outCount_recordProcess hkw]
  refine ⟨count, fun j hj => ?_, fun j hj => ?_, h.nextPosition_eq hi hfa, h.nextXbuf_eq⟩ <;> rw [finish_mem, finish_mem]
  · rw [wordAt_recordProcess hzw (by omega), wordAt_recordProcess hza hj, h.outputFrame_first hi hfa ht hj]
  · rw [wordAt_recordProcess hzw (by omega), wordAt_recordProcess hzb hj, h.outputFrame_second hi hfa ht hj]

end Sys2Proof.Machine
end
